-- ==== Sys2Proof/Word.lean ====
section
/-! DEFINITION. The word types of RSACORE: the 32-bit bus word, the byte and the 4-bit register number
(spec/00_scope.md R8, R11; spec/30_encoding.md R131). -/

namespace Sys2Proof

/-- A 32-bit bus word, also the width of a command word and of every control register
(spec/00_scope.md R11). -/
abbrev Word := BitVec 32

/-- A byte of MSGMEM (spec/20_memory.md R90). -/
abbrev Byte := BitVec 8

/-- A register number: B0 to B15, a 4-bit field (spec/10_state.md R32). -/
abbrev RegNum := Fin 16

/-- An 8-bit unsigned immediate (spec/30_encoding.md R131). -/
abbrev Imm8 := BitVec 8

end Sys2Proof
end

