-- ==== Sys2Proof/Syntax.lean ====
section
/-! DEFINITION. The 24 commands of spec/30_encoding.md R136 (spec/opcode_table.json), one constructor
per row, in the table's order. Operands stand in the order of R140: rd, rs1, rs2, rs3, imm8. -/

namespace Sys2Proof

/-- A command with its operand fields (spec/30_encoding.md R132, R136). -/
inductive Instr where
  | nop
  | mov (rd rs1 : RegNum)
  | ldi (rd : RegNum) (imm : Imm8)
  | add (rd rs1 rs2 : RegNum)
  | sub (rd rs1 rs2 : RegNum)
  | cmp (rs1 rs2 : RegNum)
  | shl (rd rs1 rs2 : RegNum)
  | shr (rd rs1 rs2 : RegNum)
  | shli (rd rs1 : RegNum) (imm : Imm8)
  | shri (rd rs1 : RegNum) (imm : Imm8)
  | bitlen (rd rs1 : RegNum)
  | ctz (rd rs1 : RegNum)
  | mul (rd rs1 rs2 : RegNum)
  | modmul (rd rs1 rs2 rs3 : RegNum)
  | mod (rd rs1 rs2 : RegNum)
  | modpow (rd rs1 rs2 rs3 : RegNum)
  | egcd (rd rs1 rs2 : RegNum)
  | gcd (rd rs1 rs2 : RegNum)
  | modinv (rd rs1 rs2 : RegNum)
  | isprime (rd rs1 : RegNum) (imm : Imm8)
  | b2i (rd rs1 rs2 : RegNum)
  | i2b (rd rs1 rs2 : RegNum)
  | encrypt (rs1 rs2 : RegNum)
  | decrypt (rs1 rs2 : RegNum)
  deriving DecidableEq, Repr

end Sys2Proof
end

