-- ==== Sys2Proof/WellFormed.lean ====
section
/-! DEFINITION. Which commands are well formed: every operand field admits every value, but for the rd
of EGCD (spec/30_encoding.md R134). -/

namespace Sys2Proof

/-- A command a legal word encodes: EGCD writes B[d], B[d+1] and B[d+2], so its rd is at most 13
(spec/30_encoding.md R134, R137 (c)). -/
def Instr.wellFormed : Instr → Bool
  | .egcd rd _ _ => decide (rd.val ≤ 13)
  | .nop | .mov _ _ | .ldi _ _ | .add _ _ _ | .sub _ _ _ | .cmp _ _ | .shl _ _ _ | .shr _ _ _
  | .shli _ _ _ | .shri _ _ _ | .bitlen _ _ | .ctz _ _ | .mul _ _ _ | .modmul _ _ _ _
  | .mod _ _ _ | .modpow _ _ _ _ | .gcd _ _ _ | .modinv _ _ _ | .isprime _ _ _ | .b2i _ _ _
  | .i2b _ _ _ | .encrypt _ _ | .decrypt _ _ => true

end Sys2Proof
end

