-- ==== Sys2Proof/Decode.lean ====
section
/-! DEFINITION. Decoding a command word (spec/30_encoding.md R131 to R139) and encoding one. The opcode
map is the table of R136 as data: match, mask and the command the fields make. -/

namespace Sys2Proof

/-- The operand fields of format C (spec/30_encoding.md R131, R132). -/
structure Fields where
  rd : RegNum
  rs1 : RegNum
  rs2 : RegNum
  rs3 : RegNum
  imm : Imm8
  deriving DecidableEq, Repr

/-- Why a word is illegal (spec/30_encoding.md R137), or why bytes are no word at all. -/
inductive DecodeError where
  /-- Fewer than the four bytes of a command word. -/
  | truncated
  /-- R137 (a): the opcode is not in the table. -/
  | unlistedOpcode
  /-- R137 (b): a reserved bit is set. -/
  | reservedBitSet
  /-- R137 (c): EGCD with rd above 13. -/
  | egcdDestination
  deriving DecidableEq, Repr

/-- The 4-bit register field of a word whose lowest bit is lo (spec/30_encoding.md R131). -/
def regField (w : Word) (lo : Nat) : RegNum := (w.extractLsb' lo 4).toFin

/-- The opcode field, bits 7:0 (spec/30_encoding.md R131). -/
def opcodeOf (w : Word) : BitVec 8 := w.extractLsb' 0 8

/-- The operand fields of a word (spec/30_encoding.md R132). -/
def fieldsOf (w : Word) : Fields :=
  { rd := regField w 8, rs1 := regField w 12, rs2 := regField w 16, rs3 := regField w 20,
    imm := w.extractLsb' 24 8 }

/-- One row of the opcode map (spec/30_encoding.md R136). -/
structure OpcodeRow where
  mnemonic : String
  opcode : BitVec 8
  pattern : Word
  mask : Word
  build : Fields → Instr

/-- The rows of the support and the compare and shift units (spec/30_encoding.md R136). -/
def opcodeRowsLow : List OpcodeRow :=
  [ ⟨"NOP", 0x01, 0x00000001, 0xFFFFFFFF, fun _ => .nop⟩,
    ⟨"MOV", 0x02, 0x00000002, 0xFFFF00FF, fun f => .mov f.rd f.rs1⟩,
    ⟨"LDI", 0x03, 0x00000003, 0x00FFF0FF, fun f => .ldi f.rd f.imm⟩,
    ⟨"ADD", 0x04, 0x00000004, 0xFFF000FF, fun f => .add f.rd f.rs1 f.rs2⟩,
    ⟨"SUB", 0x05, 0x00000005, 0xFFF000FF, fun f => .sub f.rd f.rs1 f.rs2⟩,
    ⟨"CMP", 0x10, 0x00000010, 0xFFF00FFF, fun f => .cmp f.rs1 f.rs2⟩,
    ⟨"SHL", 0x11, 0x00000011, 0xFFF000FF, fun f => .shl f.rd f.rs1 f.rs2⟩,
    ⟨"SHR", 0x12, 0x00000012, 0xFFF000FF, fun f => .shr f.rd f.rs1 f.rs2⟩,
    ⟨"SHLI", 0x13, 0x00000013, 0x00FF00FF, fun f => .shli f.rd f.rs1 f.imm⟩,
    ⟨"SHRI", 0x14, 0x00000014, 0x00FF00FF, fun f => .shri f.rd f.rs1 f.imm⟩,
    ⟨"BITLEN", 0x15, 0x00000015, 0xFFFF00FF, fun f => .bitlen f.rd f.rs1⟩,
    ⟨"CTZ", 0x16, 0x00000016, 0xFFFF00FF, fun f => .ctz f.rd f.rs1⟩ ]

/-- The rows of the arithmetic, primality, codec and cipher units (spec/30_encoding.md R136). -/
def opcodeRowsHigh : List OpcodeRow :=
  [ ⟨"MUL", 0x20, 0x00000020, 0xFFF000FF, fun f => .mul f.rd f.rs1 f.rs2⟩,
    ⟨"MODMUL", 0x21, 0x00000021, 0xFF0000FF, fun f => .modmul f.rd f.rs1 f.rs2 f.rs3⟩,
    ⟨"MOD", 0x22, 0x00000022, 0xFFF000FF, fun f => .mod f.rd f.rs1 f.rs2⟩,
    ⟨"MODPOW", 0x30, 0x00000030, 0xFF0000FF, fun f => .modpow f.rd f.rs1 f.rs2 f.rs3⟩,
    ⟨"EGCD", 0x40, 0x00000040, 0xFFF000FF, fun f => .egcd f.rd f.rs1 f.rs2⟩,
    ⟨"GCD", 0x41, 0x00000041, 0xFFF000FF, fun f => .gcd f.rd f.rs1 f.rs2⟩,
    ⟨"MODINV", 0x42, 0x00000042, 0xFFF000FF, fun f => .modinv f.rd f.rs1 f.rs2⟩,
    ⟨"ISPRIME", 0x50, 0x00000050, 0x00FF00FF, fun f => .isprime f.rd f.rs1 f.imm⟩,
    ⟨"B2I", 0x60, 0x00000060, 0xFFF000FF, fun f => .b2i f.rd f.rs1 f.rs2⟩,
    ⟨"I2B", 0x61, 0x00000061, 0xFFF000FF, fun f => .i2b f.rd f.rs1 f.rs2⟩,
    ⟨"ENCRYPT", 0x62, 0x00000062, 0xFFF00FFF, fun f => .encrypt f.rs1 f.rs2⟩,
    ⟨"DECRYPT", 0x63, 0x00000063, 0xFFF00FFF, fun f => .decrypt f.rs1 f.rs2⟩ ]

/-- The opcode map (spec/30_encoding.md R136). -/
def opcodeRows : List OpcodeRow := opcodeRowsLow ++ opcodeRowsHigh

/-- Decode of any 32-bit word, the three tests of spec/30_encoding.md R139 in its order. -/
def decodeWord (w : Word) : Except DecodeError Instr :=
  match opcodeRows.find? (fun row => row.opcode == opcodeOf w) with
  | none => .error .unlistedOpcode
  | some row =>
    if w &&& row.mask ≠ row.pattern then .error .reservedBitSet
    else
      let i := row.build (fieldsOf w)
      if i.wellFormed then .ok i else .error .egcdDestination

/-- The word of four bytes, the first least significant (spec/20_memory.md R91). -/
def wordOfBytes (b0 b1 b2 b3 : Byte) : Word := b3 ++ b2 ++ b1 ++ b0

/-- The four bytes of a word, the least significant first (spec/20_memory.md R91). -/
def bytesOfWord (w : Word) : List Byte :=
  [w.extractLsb' 0 8, w.extractLsb' 8 8, w.extractLsb' 16 8, w.extractLsb' 24 8]

/-- Decode of any bytes: a command is always one little-endian word (spec/30_encoding.md R130,
spec/20_memory.md R91). The bytes after it are returned. -/
def decode : List Byte → Except DecodeError (Instr × List Byte)
  | b0 :: b1 :: b2 :: b3 :: rest => (decodeWord (wordOfBytes b0 b1 b2 b3)).map fun i => (i, rest)
  | _ => .error .truncated

/-- A word of format C from its fields, imm8 highest (spec/30_encoding.md R131). -/
def formatC (op : BitVec 8) (rd rs1 rs2 rs3 : RegNum) (imm : Imm8) : Word :=
  imm ++ BitVec.ofFin (w := 4) rs3 ++ BitVec.ofFin (w := 4) rs2 ++ BitVec.ofFin (w := 4) rs1 ++
    BitVec.ofFin (w := 4) rd ++ op

/-- The word of a command, every unused field 0 (spec/30_encoding.md R133, R136). -/
def encode : Instr → Word
  | .nop => formatC 0x01 0 0 0 0 0
  | .mov rd rs1 => formatC 0x02 rd rs1 0 0 0
  | .ldi rd imm => formatC 0x03 rd 0 0 0 imm
  | .add rd rs1 rs2 => formatC 0x04 rd rs1 rs2 0 0
  | .sub rd rs1 rs2 => formatC 0x05 rd rs1 rs2 0 0
  | .cmp rs1 rs2 => formatC 0x10 0 rs1 rs2 0 0
  | .shl rd rs1 rs2 => formatC 0x11 rd rs1 rs2 0 0
  | .shr rd rs1 rs2 => formatC 0x12 rd rs1 rs2 0 0
  | .shli rd rs1 imm => formatC 0x13 rd rs1 0 0 imm
  | .shri rd rs1 imm => formatC 0x14 rd rs1 0 0 imm
  | .bitlen rd rs1 => formatC 0x15 rd rs1 0 0 0
  | .ctz rd rs1 => formatC 0x16 rd rs1 0 0 0
  | .mul rd rs1 rs2 => formatC 0x20 rd rs1 rs2 0 0
  | .modmul rd rs1 rs2 rs3 => formatC 0x21 rd rs1 rs2 rs3 0
  | .mod rd rs1 rs2 => formatC 0x22 rd rs1 rs2 0 0
  | .modpow rd rs1 rs2 rs3 => formatC 0x30 rd rs1 rs2 rs3 0
  | .egcd rd rs1 rs2 => formatC 0x40 rd rs1 rs2 0 0
  | .gcd rd rs1 rs2 => formatC 0x41 rd rs1 rs2 0 0
  | .modinv rd rs1 rs2 => formatC 0x42 rd rs1 rs2 0 0
  | .isprime rd rs1 imm => formatC 0x50 rd rs1 0 0 imm
  | .b2i rd rs1 rs2 => formatC 0x60 rd rs1 rs2 0 0
  | .i2b rd rs1 rs2 => formatC 0x61 rd rs1 rs2 0 0
  | .encrypt rs1 rs2 => formatC 0x62 0 rs1 rs2 0 0
  | .decrypt rs1 rs2 => formatC 0x63 0 rs1 rs2 0 0

/-- The bytes of a command as the bus carries them (spec/20_memory.md R91). -/
def encodeBytes (i : Instr) : List Byte := bytesOfWord (encode i)

/-- The instruction the decoder reads from a word numbered as spec/opcode_table.json numbers it: its
bytes in bus order are given to decode; none where the decoder refuses. -/
def decodeTableWord (nbits w : Nat) : Option Instr :=
  match decode (bytesOfWord (BitVec.ofNat 32 (w % 2 ^ nbits))) with
  | .ok (i, _) => some i
  | .error _ => none

end Sys2Proof
end

