-- ==== Sys2Proof/Machine/Arith.lean ====
section
/-! DEFINITION. The arithmetic of the units, as functions on integers: bit length, trailing zeros, the
reference multiplication, square and multiply, the Euclidean recursion, the Miller-Rabin trial and the
block codec (spec/00_scope.md R12, spec/40_multiplier.md to spec/45_compare_shift.md). All recursion
is structural, on a list or on fuel that is never exhausted. -/

namespace Sys2Proof.Machine

/-- The least k with v < 2^k (spec/00_scope.md R12). -/
def bitlen (v : Nat) : Nat := if v = 0 then 0 else Nat.log2 v + 1

/-- The bytes that hold v: ceil(bitlen(v) / 8) (spec/44_codec_cipher.md R312, R321). -/
def byteLen (v : Nat) : Nat := (bitlen v + 7) / 8

/-- Trailing zero bits, halving at most fuel times. -/
def ctzFuel : Nat → Nat → Nat
  | 0, _ => 0
  | fuel + 1, v => if v % 2 = 0 then ctzFuel fuel (v / 2) + 1 else 0

/-- The largest r with v mod 2^r = 0, for v > 0 (spec/45_compare_shift.md R356). -/
def trailingZeros (v : Nat) : Nat := ctzFuel (bitlen v) v

/-- a div 2^n; the power is formed only where the quotient is not 0 (spec/45_compare_shift.md R352). -/
def shiftRight (a n : Nat) : Nat := if bitlen a ≤ n then 0 else a / 2 ^ n

/-! ### Multiplication (spec/40_multiplier.md) -/

/-- Decimal digits of v, at most fuel + 1. -/
def ndigitsFuel : Nat → Nat → Nat
  | 0, _ => 1
  | fuel + 1, v => if v < 10 then 1 else ndigitsFuel fuel (v / 10) + 1

/-- The number of decimal digits of v; 1 for v = 0 (spec/40_multiplier.md R201). -/
def ndigits (v : Nat) : Nat := ndigitsFuel v v

/-- The reference definition K of spec/40_multiplier.md R201. The combination is written
z2*10^(2m) + (z1 - z2 - z0)*10^m + z0 over the natural numbers: R202 (a) says no difference is
negative. -/
def karatsubaFuel : Nat → Nat → Nat → Nat
  | 0, _, _ => 0
  | fuel + 1, x, y =>
    if x < 10 ∨ y < 10 then x * y
    else
      let m := max (ndigits x) (ndigits y) / 2
      let h1 := x / 10 ^ m
      let l1 := x % 10 ^ m
      let h2 := y / 10 ^ m
      let l2 := y % 10 ^ m
      let z0 := karatsubaFuel fuel l1 l2
      let z1 := karatsubaFuel fuel (l1 + h1) (l2 + h2)
      let z2 := karatsubaFuel fuel h1 h2
      z2 * 10 ^ (2 * m) + (z1 - z2 - z0) * 10 ^ m + z0

/-- K(x, y) of spec/40_multiplier.md R201. The arguments' sum falls at every recursion. -/
def karatsuba (x y : Nat) : Nat := karatsubaFuel (x + y + 1) x y

/-- The product of the MM unit: "a model computes x·y directly" (spec/40_multiplier.md R203; log 16). -/
def mmProduct (x y : Nat) : Nat := x * y

/-! ### Modular exponentiation (spec/41_modexp.md) -/

/-- The loop of spec/41_modexp.md R230: test the bit, multiply, halve, square. -/
def modPowLoop : Nat → Nat → Nat → Nat → Nat → Nat
  | 0, result, _, _, _ => result
  | fuel + 1, result, base, e, m =>
    if e = 0 then result
    else
      modPowLoop fuel (if e % 2 = 1 then mmProduct result base % m else result)
        (mmProduct base base % m) (e / 2) m

/-- ModPow(base, e, m) (spec/41_modexp.md R230); the loop runs bitlen(e) times. -/
def modPow (base e m : Nat) : Nat := modPowLoop (bitlen e) (1 % m) (base % m) e m

/-! ### Extended GCD (spec/42_gcd_inverse.md) -/

/-- The recursion of spec/42_gcd_inverse.md R250, with the depth it can reach as fuel. -/
def egcdFuel : Nat → Nat → Nat → Nat × Int × Int
  | 0, _, b => (b, 0, 1)
  | fuel + 1, a, b =>
    if a = 0 then (b, 0, 1)
    else
      let r := egcdFuel fuel (b % a) a
      (r.1, r.2.2 - ((b / a : Nat) : Int) * r.2.1, r.2.1)

/-- EGCD(a, b) = (g, x, y) (spec/42_gcd_inverse.md R250). The first argument falls at every call, so a
is fuel enough. -/
def egcd (a b : Nat) : Nat × Int × Int := egcdFuel a a b

/-! ### Miller-Rabin (spec/43_primality.md) -/

/-- The answer IsPrime gives without a witness, if any (spec/43_primality.md R280, first three lines). -/
def primeWithoutWitness (n : Nat) : Option Bool :=
  if n ≤ 1 ∨ n = 4 then some false
  else if n = 2 ∨ n = 3 then some true
  else if n % 2 = 0 then some false
  else none

/-- The odd d of n - 1 = 2^r * d (spec/43_primality.md R280). -/
def oddPart (n : Nat) : Nat := (n - 1) / 2 ^ trailingZeros (n - 1)

/-- The squaring loop of spec/43_primality.md R280, while the exponent tracker t is not n - 1 (R285). -/
def squaringLoop : Nat → Nat → Nat → Nat → Bool
  | 0, _, _, _ => false
  | fuel + 1, n, x, t =>
    if t = n - 1 then false
    else
      let x' := mmProduct x x % n
      if x' = 1 then false
      else if x' = n - 1 then true
      else squaringLoop fuel n x' (2 * t)

/-- Does n pass the trial with witness a (spec/43_primality.md R280)? The loop makes at most r
squarings, and r is below bitlen(n). -/
def trialPasses (n a : Nat) : Bool :=
  let d := oddPart n
  let x := modPow a d n
  if x = 1 ∨ x = n - 1 then true else squaringLoop (bitlen n) n x d

/-- How a run of trials ends. -/
inductive TrialsEnd where
  /-- Decided, with the answers not asked for. -/
  | verdict (p : Bool) (rest : List Nat)
  /-- A witness out of range came (spec/43_primality.md R283), with the answers not asked for. -/
  | badWitness (rest : List Nat)
  /-- The source has no answer to the next request; so many trials have passed in this run. -/
  | waiting (passed : Nat)
  deriving DecidableEq, Repr

/-- The trial loop of spec/43_primality.md R280 on a port of width W: one request per trial, none after
the result is decided (R284). Answers are used in their order (spec/20_memory.md R116), each taken as
the W bits of wit_data (spec/10_state.md R80, R86, log 8). -/
def runTrials (W n : Nat) : Nat → List Nat → TrialsEnd
  | 0, ws => .verdict true ws
  | _ + 1, [] => .waiting 0
  | k + 1, w :: ws =>
    let a := w % 2 ^ W
    if a < 2 ∨ a > n - 2 then .badWitness ws
    else if trialPasses n a then
      match runTrials W n k ws with
      | .waiting passed => .waiting (passed + 1)
      | .verdict p rest => .verdict p rest
      | .badWitness rest => .badWitness rest
    else .verdict false ws

/-- The round count of an immediate: 0 means 20 (spec/43_primality.md R281, R282; spec/00_scope.md R10). -/
def roundsOf (imm : Imm8) : Nat := if imm.toNat = 0 then 20 else imm.toNat

/-! ### The block codec (spec/44_codec_cipher.md) -/

/-- BytesToInt: base 256, little-endian (spec/44_codec_cipher.md R311). -/
def bytesToInt : List Byte → Nat
  | [] => 0
  | b :: bs => b.toNat + 256 * bytesToInt bs

/-- The k lowest base-256 digits of v, the least significant first. -/
def digits256 : Nat → Nat → List Byte
  | 0, _ => []
  | k + 1, v => BitVec.ofNat 8 (v % 256) :: digits256 k (v / 256)

/-- IntToBytes: the shortest little-endian sequence; 0 is one zero byte (spec/44_codec_cipher.md R312). -/
def intToBytes (v : Nat) : List Byte := if v = 0 then [0] else digits256 (byteLen v) v

/-- The block size k(n) = ceil(bitlen(n)/8) - 1, which is -1 for n = 0 (spec/44_codec_cipher.md R321). -/
def blockSize (n : Nat) : Int := (byteLen n : Int) - 1

/-- nb = ceil(len / k) for k > 0 (spec/44_codec_cipher.md R323). -/
def blockCount (len k : Nat) : Nat := (len + k - 1) / k

/-- The blocks m[j*k .. min((j+1)*k, len)) for j = 0 .. nb - 1 (spec/44_codec_cipher.md R323). -/
def splitBlocks (k : Nat) (m : List Byte) : List (List Byte) :=
  (List.range (blockCount m.length k)).map fun j => (m.drop (j * k)).take k

/-- The ciphertext of a message, first block first (spec/44_codec_cipher.md R320, R322). -/
def encryptBytes (e n : Nat) (m : List Byte) : List Nat :=
  (splitBlocks (blockSize n).toNat m).map fun blk => modPow (bytesToInt blk) e n

/-- The concatenated plaintext of ciphertext entries (spec/44_codec_cipher.md R320, R331). -/
def decryptEntries (d n : Nat) (cs : List Nat) : List Byte :=
  cs.flatMap fun c => intToBytes (modPow c d n)

end Sys2Proof.Machine
end

