-- ==== Sys2Proof/Config.lean ====
section
/-! DEFINITION. What an implementation fixes: the parameters of spec/00_scope.md R6 to R11 and
spec/20_memory.md R95, and the free values the spec leaves open (spec/93_implementation_defined.md
I7, I8, I9). The parameters are plain data that State carries and no step changes, so a statement
about every state is a statement about every parameter value (log 1). -/

namespace Sys2Proof

/-- The parameters of one implementation (spec/00_scope.md R11). -/
structure Config where
  /-- W, the magnitude bits of a register and of a ciphertext entry (R6). -/
  W : Nat
  /-- MSG_BYTES, the bytes of MSGMEM (R9). -/
  msgBytes : Nat
  /-- CT_WORDS, the entries of CTMEM (R9). -/
  ctWords : Nat
  /-- RSACORE_BASE, chosen by the platform (spec/20_memory.md R95). -/
  base : Word
  deriving DecidableEq, Repr

/-- L, the 32-bit limbs of a register and of a ciphertext entry (spec/00_scope.md R7). -/
def Config.limbs (c : Config) : Nat := c.W / 32

/-- The parameter ranges of spec/00_scope.md R6 and R9. -/
abbrev Config.valid (c : Config) : Prop :=
  c.W % 32 = 0 ∧ 64 ≤ c.W ∧ c.W ≤ 32768 ∧
  c.msgBytes % 4 = 0 ∧ 4 ≤ c.msgBytes ∧ c.msgBytes ≤ 1048576 ∧
  1 ≤ c.ctWords ∧ c.ctWords ≤ 4096

/-- The parameters of State.reset: those of every vector and program of spec/95_test_vectors.md
section 0, with base 0. DESIGN CHOICE, unsafe where a claim rests on them (log 1, log 2). -/
def Config.vectors : Config := { W := 64, msgBytes := 64, ctWords := 16, base := 0 }

/-- The reference width of spec/00_scope.md R6, W = 4096, with the same buffers. -/
def Config.reference : Config := { Config.vectors with W := 4096 }

/-- A free byte: what a memory byte that "may hold any value" holds (spec/30_encoding.md R146). The
n-th draw; nothing says which byte it is (log 9). -/
opaque Config.freeByte : Nat → Byte

/-- The free value on wit_n while wit_req = 0 (spec/70_reset_and_hazards.md R463; log 10). -/
opaque Config.freeWitN : Nat → Nat

end Sys2Proof
end

