-- ==== Sys2Proof/Machine/State.lean ====
section
/-! DEFINITION. The state of RSACORE as plain data: everything spec/10_state.md and
spec/70_reset_and_hazards.md R463 give the machine, the parameters of the implementation, and the
model's own three fields (agenda, witAnswers, draws). -/

namespace Sys2Proof.Machine

/-- A big-integer register: its raw sign bit and raw magnitude (spec/10_state.md R31). The magnitude
is below 2^W, an invariant (the width is a parameter). -/
structure BigReg where
  sign : Bool
  mag : Nat
  deriving DecidableEq, Repr

/-- The four flags (spec/10_state.md R38). -/
structure Flags where
  lt : Bool
  eq : Bool
  gt : Bool
  prime : Bool
  deriving DecidableEq, Repr

/-- The error codes of spec/60_exceptions.md R411, in the order of their numbers 0 to 9. Codes 10 to 15
are never produced and do not exist here. -/
inductive ErrCode where
  | none
  | illegal
  | neg
  | overflow
  | div0
  | noinv
  | keysmall
  | bounds
  | witness
  | range
  deriving DecidableEq, Repr

/-- The snapshot taken at issue (spec/30_encoding.md R143): the values of the source registers by
number, MSG_LEN and CT_COUNT. -/
structure Snapshot where
  src : List (RegNum × Int)
  msgLen : Word
  ctCount : Word
  deriving DecidableEq, Repr

/-- The hidden state of a running command (spec/10_state.md R60): the latched word, the snapshot, and
for ISPRIME the trials passed, wit_req and the current witness once it is captured and until the core
uses it (R85, R86). All of it ends with the command (R61). What else R60 names lives inside one
atomic execution (log 4). -/
structure Running where
  word : Word
  snap : Snapshot
  trials : Nat
  witReq : Bool
  captured : Option Nat
  deriving DecidableEq, Repr

/-- The answer to a bus access: bus_ack, bus_err and bus_rdata (spec/10_state.md R80,
spec/20_memory.md R93). -/
inductive BusReply where
  | written
  | data (w : Word)
  | error
  deriving DecidableEq, Repr

/-- One move of one agent (spec/10_state.md R30): the host, the witness source, the reset pin, or the
core. -/
inductive Event where
  /-- The host reads (bus_addr, bus_be). -/
  | busRead (addr : Word) (be : BitVec 4)
  /-- The host writes (bus_addr, bus_wdata, bus_be). -/
  | busWrite (addr data : Word) (be : BitVec 4)
  /-- The witness source sets wit_valid with this value on wit_data. -/
  | witValid (w : Nat)
  /-- The pin rst_n takes this level. -/
  | rst (level : Bool)
  /-- The core takes its turn. -/
  | core
  deriving DecidableEq, Repr

/-- The state of the machine. -/
structure State where
  /-- The parameters of the implementation (spec/00_scope.md R11); no step changes them. -/
  cfg : Config
  /-- B0 to B15 (spec/10_state.md R31, R32). -/
  regs : Vector BigReg 16
  /-- FLAGS (R38). -/
  flags : Flags
  /-- CTRL.IE (R44). -/
  ie : Bool
  /-- STATUS.DONE (R45, R47). -/
  done : Bool
  /-- STATUS.OVR (R45, R48). -/
  ovr : Bool
  /-- STATUS.ERR (R45, R46). -/
  err : ErrCode
  /-- The read value of CMD (R50). -/
  cmd : Word
  /-- MSG_LEN (R52). -/
  msgLen : Word
  /-- CT_COUNT (R53). -/
  ctCount : Word
  /-- MSGMEM and CTMEM by bus offset (spec/20_memory.md R90, R95 to R97): (offset, byte) pairs, offsets
  strictly rising; an offset not listed holds no value (R100). -/
  mem : List Host.Cell
  /-- The running command; STATUS.BUSY is 1 exactly when there is one (R45, R60). -/
  running : Option Running
  /-- The level of rst_n (R82). -/
  rstN : Bool
  /-- The answer to the last bus access, none while none was answered (R80, log 14). -/
  busReply : Option BusReply
  /-- The model's own: the moves to come, in their order; with none left the core moves (log 3). -/
  agenda : List Event
  /-- The model's own: the answers the witness source has ready for the requests to come (log 7). -/
  witAnswers : List Nat
  /-- The model's own: how many free bytes have been drawn (log 9). -/
  draws : Nat
  deriving DecidableEq, Repr

/-- Why a run can stop. -/
inductive Fault where
  /-- UNINIT: a host read or a command read (B2I, ENCRYPT, DECRYPT) of MSGMEM or CTMEM that nothing has
  written (spec/20_memory.md R100, spec/93_implementation_defined.md I6). Raised by busRead and by those
  three meanings. Safe: the hardware goes on with an unknown value, the model stops. -/
  | uninit
  deriving DecidableEq, Repr

/-- Why an instruction has no meaning. -/
inductive Refusal where
  /-- The instruction of this mnemonic has no meaning yet. Raised by no arm of this model. Safe. -/
  | notModelled (mnemonic : String)
  deriving DecidableEq, Repr

/-- The outcomes of a step of this machine. -/
abbrev Result := Host.Outcome State Fault Refusal

/-- The state just after a hardware reset with rst_n back at 1, for any parameters: every value is the
one of spec/70_reset_and_hazards.md R463; memory holds nothing (R100). The agenda, the ready answers,
the last bus reply and the draw counter are the model's (log 3, 7, 9, 14). -/
def State.resetWith (c : Config) : State :=
  { cfg := c
    regs := Vector.replicate 16 { sign := false, mag := 0 }
    flags := { lt := false, eq := false, gt := false, prime := false }
    ie := false
    done := false
    ovr := false
    err := .none
    cmd := 0
    msgLen := 0
    ctCount := 0
    mem := []
    running := none
    rstN := true
    busReply := none
    agenda := []
    witAnswers := []
    draws := 0 }

/-- The machine right after reset, with the parameters of spec/95_test_vectors.md section 0 (log 1). -/
def State.reset : State := State.resetWith Config.vectors

end Sys2Proof.Machine
end

