-- ==== Sys2Proof/Machine/Ops.lean ====
section
/-! DEFINITION. The named operations every meaning and every agent uses: memory by bytes, MSGMEM and
CTMEM, the register file, completion with or without an error, and the reading of STATUS, the
interrupt and the witness port. -/

namespace Sys2Proof.Machine

/-! ### Memory: (offset, byte) pairs, offsets strictly rising -/

/-- What an offset of memory that nothing has written holds: no value, UNINIT (spec/20_memory.md R100). -/
def unwritten : Option Byte := none

/-- The byte at an offset. -/
def memRead : List Host.Cell → Nat → Option Byte
  | [], _ => unwritten
  | (k, v) :: rest, a => if k = a then some v else memRead rest a

/-- A byte stored at an offset, in its place. -/
def memWrite : List Host.Cell → Nat → Byte → List Host.Cell
  | [], a, b => [(a, b)]
  | (k, v) :: rest, a, b =>
    if a < k then (a, b) :: (k, v) :: rest
    else if a = k then (a, b) :: rest
    else (k, v) :: memWrite rest a b

/-- The canonical form: offsets strictly rising. An unlisted offset holds no value, so no listed byte can
equal what it reads as. -/
def memWf : List Host.Cell → Bool
  | [] => true
  | [_] => true
  | (k, _) :: (k', v') :: rest => decide (k < k') && memWf ((k', v') :: rest)

/-- The n bytes from an offset up, if every one has been written. -/
def memReadBytes (m : List Host.Cell) : Nat → Nat → Option (List Byte)
  | _, 0 => some []
  | a, n + 1 =>
    match memRead m a, memReadBytes m (a + 1) n with
    | some b, some bs => some (b :: bs)
    | _, _ => none

/-- Bytes stored from an offset up. -/
def memWriteBytes : List Host.Cell → Nat → List Byte → List Host.Cell
  | m, _, [] => m
  | m, a, b :: bs => memWriteBytes (memWrite m a b) (a + 1) bs

/-! ### The two buffer memories (spec/20_memory.md R90, R95 to R97) -/

/-- The offset of MSGMEM byte off (spec/20_memory.md R96). -/
def msgAddr (off : Nat) : Nat := 0x00100000 + off

/-- The offset of limb 0 of CTMEM entry k (spec/20_memory.md R97). -/
def ctAddr (k : Nat) : Nat := 0x01000000 + k * 0x1000

/-- The bytes of a register or a ciphertext entry: 4 * L (spec/00_scope.md R7). -/
def entryBytes (c : Config) : Nat := 4 * c.limbs

/-- The address space of the two buffers: the offsets of MSGMEM bytes and of CTMEM entry bytes
(spec/20_memory.md R95). -/
def inBuffers (c : Config) (a : Nat) : Bool :=
  (decide (0x00100000 ≤ a) && decide (a < 0x00100000 + c.msgBytes)) ||
  (decide (0x01000000 ≤ a) && decide ((a - 0x01000000) / 0x1000 < c.ctWords) &&
    decide ((a - 0x01000000) % 0x1000 < entryBytes c))

/-- MsgRead(off, n), none where a byte is unwritten (spec/00_scope.md R16). -/
def State.msgRead (s : State) (off n : Nat) : Option (List Byte) := memReadBytes s.mem (msgAddr off) n

/-- MsgWrite(off, bs) (spec/00_scope.md R16). -/
def State.msgWrite (s : State) (off : Nat) (bs : List Byte) : State :=
  { s with mem := memWriteBytes s.mem (msgAddr off) bs }

/-- CtRead(k), none where a byte of the entry is unwritten (spec/00_scope.md R16, log 11). -/
def State.ctRead (s : State) (k : Nat) : Option Nat :=
  (memReadBytes s.mem (ctAddr k) (entryBytes s.cfg)).map bytesToInt

/-- CtRead of the n entries from k up, in order. -/
def State.ctReadFrom (s : State) : Nat → Nat → Option (List Nat)
  | _, 0 => some []
  | k, n + 1 =>
    match s.ctRead k, s.ctReadFrom (k + 1) n with
    | some v, some vs => some (v :: vs)
    | _, _ => none

/-- The entries of CTMEM from k up replaced by values, the memory's own form of CtWrite. -/
def ctWriteFrom (bytes : Nat) : List Host.Cell → Nat → List Nat → List Host.Cell
  | m, _, [] => m
  | m, k, v :: vs => ctWriteFrom bytes (memWriteBytes m (ctAddr k) (digits256 bytes v)) (k + 1) vs

/-- CtWrite(k, v), CtWrite(k + 1, v'), … for the values in order (spec/00_scope.md R16). -/
def State.ctWrite (s : State) (k : Nat) (vs : List Nat) : State :=
  { s with mem := ctWriteFrom (entryBytes s.cfg) s.mem k vs }

/-- MSG_LEN <- n (spec/10_state.md R52). -/
def State.setMsgLen (s : State) (n : Word) : State := { s with msgLen := n }

/-- CT_COUNT <- n (spec/10_state.md R53). -/
def State.setCtCount (s : State) (n : Word) : State := { s with ctCount := n }

/-! ### Free bytes (spec/30_encoding.md R146, log 9) -/

/-- The n free bytes from draw number i up. -/
def freeBytes : Nat → Nat → List Byte
  | _, 0 => []
  | i, n + 1 => Config.freeByte i :: freeBytes (i + 1) n

/-- MSGMEM bytes [off, off + n) hold any values: each byte is a fresh draw. -/
def State.scrambleMsg (s : State) (off n : Nat) : State :=
  { s with mem := memWriteBytes s.mem (msgAddr off) (freeBytes s.draws n), draws := s.draws + n }

/-- CTMEM entries [k, k + n) hold any values: each byte is a fresh draw. -/
def State.scrambleCt (s : State) : Nat → Nat → State
  | _, 0 => s
  | k, n + 1 =>
    let w := entryBytes s.cfg
    State.scrambleCt
      { s with mem := memWriteBytes s.mem (ctAddr k) (freeBytes s.draws w), draws := s.draws + w }
      (k + 1) n

/-! ### The register file (spec/10_state.md R31, spec/00_scope.md R15) -/

/-- The signed value of a raw pair (spec/10_state.md R31). -/
def BigReg.value (r : BigReg) : Int := if r.sign then -(r.mag : Int) else (r.mag : Int)

/-- The canonical pair of a value: S = 1 exactly when it is negative (spec/00_scope.md R15). -/
def BigReg.ofInt (v : Int) : BigReg := { sign := decide (v < 0), mag := v.natAbs }

/-- The raw pair of register r. -/
def State.reg (s : State) (r : RegNum) : BigReg := s.regs.get r

/-- B[r], the signed value (spec/00_scope.md R15). -/
def State.B (s : State) (r : RegNum) : Int := (s.reg r).value

/-- The raw pair of register r replaced. -/
def State.setReg (s : State) (r : RegNum) (v : BigReg) : State :=
  { s with regs := s.regs.set r.val v r.isLt }

/-- B[r] <- v (spec/00_scope.md R15). -/
def State.setB (s : State) (r : RegNum) (v : Int) : State := s.setReg r (BigReg.ofInt v)

/-- Is v too wide for a register (spec/10_state.md R34)? -/
def State.overflows (s : State) (v : Int) : Bool := decide (2 ^ s.cfg.W ≤ v.natAbs)

/-! ### Status, interrupt, witness port -/

/-- STATUS.BUSY (spec/10_state.md R45). -/
def State.busy (s : State) : Bool := s.running.isSome

/-- The number of an error code (spec/60_exceptions.md R411). -/
def ErrCode.code : ErrCode → Nat
  | .none => 0
  | .illegal => 1
  | .neg => 2
  | .overflow => 3
  | .div0 => 4
  | .noinv => 5
  | .keysmall => 6
  | .bounds => 7
  | .witness => 8
  | .range => 9

/-- A bit as a word. -/
def bitWord (b : Bool) : Word := if b then 1 else 0

/-- The read value of STATUS (spec/10_state.md R49). -/
def State.statusWord (s : State) : Word :=
  bitWord s.busy ||| bitWord s.done <<< 1 ||| bitWord s.ovr <<< 2 ||| BitVec.ofNat 32 s.err.code <<< 4

/-- The interrupt output (spec/10_state.md R83). While rst_n = 0 DONE is 0, so irq = 0 (R82). -/
def State.irq (s : State) : Bool := s.done && s.ie

/-- wit_req (spec/10_state.md R80, R85). -/
def State.witReq (s : State) : Bool :=
  match s.running with
  | some c => c.witReq
  | none => false

/-- The answers to the requests of the running command that can be used now, in order: the witness it has
captured (spec/10_state.md R85), then those the witness source has ready (log 7). -/
def State.answers (s : State) : List Nat :=
  match s.running with
  | some c => c.captured.toList ++ s.witAnswers
  | none => s.witAnswers

/-- The answers the witness source still has ready. -/
def State.setAnswers (s : State) (ws : List Nat) : State := { s with witAnswers := ws }

/-- The command waits at a witness request (spec/10_state.md R85, R86): so many more trials have passed,
wit_req is 1, no witness is captured, and every ready answer has been used. -/
def State.await (s : State) (passed : Nat) : State :=
  { s with
    running := s.running.map fun c => { c with trials := c.trials + passed, witReq := true, captured := none }
    witAnswers := [] }

/-- The trials of the running command that have passed before this turn (spec/10_state.md R60). -/
def State.trialsPassed (s : State) : Nat :=
  match s.running with
  | some c => c.trials
  | none => 0

/-! ### Completion: the one way a command ends (spec/30_encoding.md R145, spec/60_exceptions.md R410) -/

/-- Completion with a code: the command is over, ERR holds the code, DONE is set; with a nonzero code
this is `raise` (spec/00_scope.md R17) and nothing else is written. This takes the place of trap entry,
which RSACORE has not (spec/60_exceptions.md R425): no mode, no saved register, no vector. -/
def State.complete (s : State) (e : ErrCode) : State :=
  { s with running := none, err := e, done := true }

/-- `raise ERR_X` (spec/00_scope.md R17). -/
def State.raise (s : State) (e : ErrCode) : Result := .next (s.complete e)

/-- Completion without error; s already holds the command's writes (spec/30_encoding.md R145). -/
def State.commit (s : State) : Result := .next (s.complete .none)

/-- The host's acknowledge, what takes the place of a return (spec/60_exceptions.md R426): bit 1 of the
word clears DONE, bit 2 clears OVR, a 0 leaves them (spec/10_state.md R45, R47, R48). -/
def State.acknowledge (s : State) (w : Word) : State :=
  { s with done := s.done && !w.getLsbD 1, ovr := s.ovr && !w.getLsbD 2 }

end Sys2Proof.Machine
end

