-- ==== Sys2Proof/Machine/Flags.lean ====
section
/-! DEFINITION. The flag computations (spec/10_state.md R38, R39): CMP's one-hot LT, EQ, GT and
ISPRIME's PRIME, and the read value of FLAGS. -/

namespace Sys2Proof.Machine

/-- The flags after a comparison of two signed values; PRIME is unchanged (spec/45_compare_shift.md
R350). -/
def compareFlags (f : Flags) (a b : Int) : Flags :=
  { f with lt := decide (a < b), eq := decide (a = b), gt := decide (a > b) }

/-- LT, EQ and GT written from a comparison (spec/45_compare_shift.md R350). -/
def State.setCompare (s : State) (a b : Int) : State := { s with flags := compareFlags s.flags a b }

/-- PRIME written; LT, EQ and GT are unchanged (spec/43_primality.md R281). -/
def State.setPrime (s : State) (p : Bool) : State := { s with flags := { s.flags with prime := p } }

/-- The read value of FLAGS (spec/10_state.md R38). -/
def State.flagsWord (s : State) : Word :=
  bitWord s.flags.lt ||| bitWord s.flags.eq <<< 1 ||| bitWord s.flags.gt <<< 2 |||
    bitWord s.flags.prime <<< 3

end Sys2Proof.Machine
end

