-- ==== Sys2Proof/Machine/Operands.lean ====
section
/-! DEFINITION. Operands: which registers a command reads and writes, the snapshot taken at issue and how
a meaning reads it, and the non-negativity check (spec/30_encoding.md R132, R143; spec/10_state.md
R33, R35). -/

namespace Sys2Proof.Machine

/-- The source registers of a command, in the order rs1, rs2, rs3 (spec/30_encoding.md R136). -/
def sourcesOf : Instr → List RegNum
  | .nop | .ldi _ _ => []
  | .mov _ a | .shli _ a _ | .shri _ a _ | .bitlen _ a | .ctz _ a | .isprime _ a _ => [a]
  | .add _ a b | .sub _ a b | .cmp a b | .shl _ a b | .shr _ a b | .mul _ a b | .mod _ a b
  | .egcd _ a b | .gcd _ a b | .modinv _ a b | .b2i _ a b | .i2b _ a b | .encrypt a b
  | .decrypt a b => [a, b]
  | .modmul _ a b c | .modpow _ a b c => [a, b, c]

/-- The destination registers of a command (spec/10_state.md R33). -/
def destsOf : Instr → List RegNum
  | .nop | .cmp _ _ | .encrypt _ _ | .decrypt _ _ => []
  | .egcd d _ _ => [d, d + 1, d + 2]
  | .mov d _ | .ldi d _ | .add d _ _ | .sub d _ _ | .shl d _ _ | .shr d _ _ | .shli d _ _
  | .shri d _ _ | .bitlen d _ | .ctz d _ | .mul d _ _ | .modmul d _ _ _ | .mod d _ _
  | .modpow d _ _ _ | .gcd d _ _ | .modinv d _ _ | .isprime d _ _ | .b2i d _ _ | .i2b d _ _ => [d]

/-- The snapshot of a command's sources, MSG_LEN and CT_COUNT (spec/30_encoding.md R143). -/
def State.snapshotFor (s : State) (i : Instr) : Snapshot :=
  { src := (sourcesOf i).map fun r => (r, s.B r), msgLen := s.msgLen, ctCount := s.ctCount }

/-- The snapshot value of source register r (spec/30_encoding.md R143). Where no snapshot holds r (no
command is running) it is the register's value now: the command is then run whole (log 6). -/
def State.src (s : State) (r : RegNum) : Int :=
  match s.running with
  | some c => (c.snap.src.lookup r).getD (s.B r)
  | none => s.B r

/-- MSG_LEN as the snapshot has it (spec/30_encoding.md R143). -/
def State.srcMsgLen (s : State) : Nat :=
  match s.running with
  | some c => c.snap.msgLen.toNat
  | none => s.msgLen.toNat

/-- CT_COUNT as the snapshot has it (spec/30_encoding.md R143). -/
def State.srcCtCount (s : State) : Nat :=
  match s.running with
  | some c => c.snap.ctCount.toNat
  | none => s.ctCount.toNat

/-- A source that must be non-negative (spec/10_state.md R35): ERR_NEG, or the command goes on with its
value. -/
def State.natSrc (s : State) (r : RegNum) (go : Nat → Result) : Result :=
  if s.src r < 0 then s.raise .neg else go (s.src r).toNat

/-- wit_n: the n under test while wit_req = 1, any value otherwise (spec/10_state.md R80,
spec/70_reset_and_hazards.md R463, log 10). -/
def State.witN (s : State) : Nat :=
  match s.running with
  | some c =>
    if c.witReq then
      match decodeWord c.word with
      | .ok (.isprime _ a _) => (s.src a).toNat
      | _ => Config.freeWitN s.draws % 2 ^ s.cfg.W
    else Config.freeWitN s.draws % 2 ^ s.cfg.W
  | none => Config.freeWitN s.draws % 2 ^ s.cfg.W

end Sys2Proof.Machine
end

