-- ==== Sys2Proof/Machine/Lifecycle.lean ====
section
/-! DEFINITION. Issue (spec/30_encoding.md R141), abandonment (spec/70_reset_and_hazards.md R461,
spec/30_encoding.md R146) and the two resets (spec/70_reset_and_hazards.md R460, R462, R463). -/

namespace Sys2Proof.Machine

/-- Issue of word w while no command runs (spec/30_encoding.md R141): CMD reads w, ERR and DONE are 0,
BUSY is 1 and the snapshot is taken. An illegal word completes at once with ERR_ILLEGAL (R137). -/
def State.issue (s : State) (w : Word) : State :=
  let s' := { s with cmd := w, err := .none, done := false }
  match decodeWord w with
  | .ok i =>
    { s' with
      running := some
        { word := w, snap := s.snapshotFor i, trials := 0, witReq := false, captured := none } }
  | .error _ => s'.complete .illegal

/-- What a reset does to memory while a command runs (spec/30_encoding.md R146): the output region of
ENCRYPT, DECRYPT or I2B holds any values. For I2B that is the bytes it would write, if its checks pass;
for the other two the whole memory they write to (log 12). -/
def State.abandon (s : State) : State :=
  match s.running with
  | none => s
  | some c =>
    match decodeWord c.word with
    | .ok (.encrypt _ _) => s.scrambleCt 0 s.cfg.ctWords
    | .ok (.decrypt _ _) => s.scrambleMsg 0 s.cfg.msgBytes
    | .ok (.i2b _ rs1 rs2) =>
      let len := (intToBytes (s.src rs1).toNat).length
      if s.src rs1 < 0 ∨ s.src rs2 < 0 ∨ (s.cfg.msgBytes : Int) < s.src rs2 + len then s
      else s.scrambleMsg (s.src rs2).toNat len
    | _ => s

/-- Every register, flag and control field at its reset value, and no command running
(spec/70_reset_and_hazards.md R463): the running command's hidden state, a captured witness among it, is
discarded (R461). Memory and what is outside the core stay. -/
def State.clearCore (s : State) : State :=
  { s with
    regs := Vector.replicate 16 { sign := false, mag := 0 }
    flags := { lt := false, eq := false, gt := false, prime := false }
    ie := false
    done := false
    ovr := false
    err := .none
    cmd := 0
    msgLen := 0
    ctCount := 0
    running := none }

/-- A soft reset: memory keeps its contents, but for an abandoned command's output region
(spec/70_reset_and_hazards.md R462). -/
def State.softReset (s : State) : State := s.abandon.clearCore

/-- A hardware reset: memory holds no value after it, and no bus access is answered
(spec/70_reset_and_hazards.md R460, R463, spec/10_state.md R82, log 13). -/
def State.hardReset (s : State) : State := { s.clearCore with mem := [], busReply := none }

end Sys2Proof.Machine
end

