-- ==== Sys2Proof/Machine/Bus.lean ====
section
/-! DEFINITION. The host bus: the address map, the busy lock, reads and writes of every location
(spec/20_memory.md R90 to R100, spec/10_state.md R40 to R55). -/

namespace Sys2Proof.Machine

/-- The control registers (spec/10_state.md R40). -/
inductive CtrlReg where
  | id
  | param
  | msgcap
  | ctcap
  | ctrl
  | status
  | flags
  | cmd
  | sign
  | msgLen
  | ctCount
  deriving DecidableEq, Repr

/-- What stands at a mapped word offset (spec/20_memory.md R95). -/
inductive Loc where
  | reg (r : CtrlReg)
  /-- Limb j of the magnitude of register i (spec/10_state.md R55). -/
  | limb (i : RegNum) (j : Nat)
  /-- The MSGMEM word at byte offset off (spec/20_memory.md R96). -/
  | msg (off : Nat)
  /-- Limb j of CTMEM entry k (spec/20_memory.md R97). -/
  | ct (k j : Nat)
  deriving DecidableEq, Repr

/-- The control register at a byte offset (spec/10_state.md R40). -/
def ctrlRegAt (off : Nat) : Option CtrlReg :=
  if off = 0x000 then some .id
  else if off = 0x004 then some .param
  else if off = 0x008 then some .msgcap
  else if off = 0x00C then some .ctcap
  else if off = 0x010 then some .ctrl
  else if off = 0x014 then some .status
  else if off = 0x018 then some .flags
  else if off = 0x01C then some .cmd
  else if off = 0x020 then some .sign
  else if off = 0x024 then some .msgLen
  else if off = 0x028 then some .ctCount
  else none

/-- The address map by offset from RSACORE_BASE; none where the offset is unmapped or is no word offset
(spec/20_memory.md R95). -/
def locate (c : Config) (off : Nat) : Option Loc :=
  if off % 4 ≠ 0 then none
  else if off < 0x00010000 then (ctrlRegAt off).map Loc.reg
  else if off < 0x00020000 then
    let j := off % 0x1000 / 4
    if j < c.limbs then some (.limb (Fin.ofNat 16 ((off - 0x00010000) / 0x1000)) j) else none
  else if off < 0x00100000 then none
  else if off < 0x01000000 then
    if off - 0x00100000 < c.msgBytes then some (.msg (off - 0x00100000)) else none
  else if off < 0x02000000 then
    let k := (off - 0x01000000) / 0x1000
    let j := off % 0x1000 / 4
    if k < c.ctWords ∧ j < c.limbs then some (.ct k j) else none
  else none

/-- The busy-locked locations (spec/20_memory.md R94). -/
def Loc.busyLocked : Loc → Bool
  | .reg r =>
    match r with
    | .sign | .msgLen | .ctCount => true
    | .id | .param | .msgcap | .ctcap | .ctrl | .status | .flags | .cmd => false
  | .limb _ _ | .msg _ | .ct _ _ => true

/-- The location an access reaches, or none: the access then gets a bus error (spec/20_memory.md R92 to
R94). An address below RSACORE_BASE is outside the block (log 2). -/
def State.target (s : State) (addr : Word) (be : BitVec 4) : Option Loc :=
  if be ≠ 0xF ∨ addr.toNat % 4 ≠ 0 ∨ addr.toNat < s.cfg.base.toNat then none
  else
    match locate s.cfg (addr.toNat - s.cfg.base.toNat) with
    | none => none
    | some l => if l.busyLocked && s.busy then none else some l

/-! ### Words of the locations -/

/-- Limb j of a magnitude (spec/10_state.md R55). -/
def limbOf (m j : Nat) : Word := BitVec.ofNat 32 (m / 2 ^ (32 * j))

/-- A magnitude with limb j replaced (spec/10_state.md R55). -/
def setLimb (m j : Nat) (w : Word) : Nat :=
  m / 2 ^ (32 * (j + 1)) * 2 ^ (32 * (j + 1)) + w.toNat * 2 ^ (32 * j) + m % 2 ^ (32 * j)

/-- PARAM: L, NREG = 16 and the spec's edition 1 (spec/10_state.md R42). -/
def paramWord (c : Config) : Word := BitVec.ofNat 32 (c.limbs + 16 * 2 ^ 16 + 1 * 2 ^ 24)

/-- The read value of CTRL: IE in bit 0, SRST reads 0 (spec/10_state.md R44). -/
def State.ctrlWord (s : State) : Word := bitWord s.ie

/-- The read value of SIGN: the sum of S[i] * 2^i (spec/10_state.md R51). -/
def State.signWord (s : State) : Word :=
  BitVec.ofNat 32 ((List.finRange 16).foldl (fun acc r => acc + (s.reg r).sign.toNat * 2 ^ r.val) 0)

/-- A write of SIGN: S[i] is bit i, the magnitudes stay (spec/10_state.md R51). -/
def State.writeSign (s : State) (w : Word) : State :=
  { s with regs := Vector.ofFn fun r : Fin 16 => { s.regs.get r with sign := w.getLsbD r.val } }

/-- A write of CTRL (spec/10_state.md R44): IE is bit 0, and bit 1 performs a soft reset after it. -/
def State.writeCtrl (s : State) (w : Word) : State :=
  let s' := { s with ie := w.getLsbD 0 }
  if w.getLsbD 1 then s'.softReset else s'

/-- A write of CMD: an issue, or dropped with OVR set while a command runs (spec/30_encoding.md R141,
R142). -/
def State.writeCmd (s : State) (w : Word) : State :=
  if s.busy then { s with ovr := true } else s.issue w

/-- The word of a buffer offset, none where one of its bytes is unwritten (spec/20_memory.md R91, R100). -/
def State.bufferWord (s : State) (a : Nat) : Option Word :=
  match memReadBytes s.mem a 4 with
  | some [b0, b1, b2, b3] => some (wordOfBytes b0 b1 b2 b3)
  | _ => none

/-- What a read of a control register returns (spec/10_state.md R41 to R53). -/
def State.readReg (s : State) : CtrlReg → Word
  | .id => 0x31415352
  | .param => paramWord s.cfg
  | .msgcap => BitVec.ofNat 32 s.cfg.msgBytes
  | .ctcap => BitVec.ofNat 32 s.cfg.ctWords
  | .ctrl => s.ctrlWord
  | .status => s.statusWord
  | .flags => s.flagsWord
  | .cmd => s.cmd
  | .sign => s.signWord
  | .msgLen => s.msgLen
  | .ctCount => s.ctCount

/-- What a read of a location returns; none is UNINIT (spec/20_memory.md R96, R97, R100). -/
def State.readLoc (s : State) : Loc → Option Word
  | .reg r => some (s.readReg r)
  | .limb i j => some (limbOf (s.reg i).mag j)
  | .msg off => s.bufferWord (msgAddr off)
  | .ct k j => s.bufferWord (ctAddr k + 4 * j)

/-- What a write of a control register does (spec/10_state.md R40, R44 to R53): a read-only register
ignores it. -/
def State.writeReg (s : State) (w : Word) : CtrlReg → State
  | .id | .param | .msgcap | .ctcap | .flags => s
  | .ctrl => s.writeCtrl w
  | .status => s.acknowledge w
  | .cmd => s.writeCmd w
  | .sign => s.writeSign w
  | .msgLen => s.setMsgLen w
  | .ctCount => s.setCtCount w

/-- What a write of a location does (spec/10_state.md R55, spec/20_memory.md R96, R97). A limb write leaves
S[i] as it is (R55), so zeroing the limbs of a negative register leaves S = 1, M = 0, where R31 says that
only a SIGN write can: the model follows R55. DEDUCED (log 20). -/
def State.writeLoc (s : State) (w : Word) : Loc → State
  | .reg r => s.writeReg w r
  | .limb i j => s.setReg i { s.reg i with mag := setLimb (s.reg i).mag j w }
  | .msg off => { s with mem := memWriteBytes s.mem (msgAddr off) (bytesOfWord w) }
  | .ct k j => { s with mem := memWriteBytes s.mem (ctAddr k + 4 * j) (bytesOfWord w) }

/-! ### The two accesses -/

/-- The answer to a bus access. -/
def State.reply (s : State) (r : Option BusReply) : State := { s with busReply := r }

/-- A bus read (spec/20_memory.md R92 to R100): no side effect but the answer. While rst_n = 0 there is
no answer (spec/10_state.md R82). -/
def busRead (addr : Word) (be : BitVec 4) (s : State) : Result :=
  if s.rstN then
    match s.target addr be with
    | none => .next (s.reply (some .error))
    | some l =>
      match s.readLoc l with
      | some w => .next (s.reply (some (.data w)))
      | none => .fault .uninit
  else .next (s.reply none)

/-- A bus write (spec/20_memory.md R92 to R98). While rst_n = 0 there is no answer and no effect
(spec/10_state.md R82). -/
def busWrite (addr data : Word) (be : BitVec 4) (s : State) : Result :=
  if s.rstN then
    match s.target addr be with
    | none => .next (s.reply (some .error))
    | some l => .next ((s.writeLoc data l).reply (some .written))
  else .next (s.reply none)

end Sys2Proof.Machine
end

