-- ==== Sys2Proof/Machine/Support.lean ====
section
/-! DEFINITION. The support commands NOP, MOV, LDI, ADD, SUB (spec/46_support.md). -/

namespace Sys2Proof.Machine

/-- A signed result that must fit a register: ERR_OVERFLOW by magnitude, or written to Bd
(spec/10_state.md R34). -/
def State.writeChecked (s : State) (rd : RegNum) (v : Int) : Result :=
  if s.overflows v then s.raise .overflow else (s.setB rd v).commit

/-- NOP: nothing but the lifecycle (spec/46_support.md R390). -/
def execNop (s : State) : Result := s.commit

/-- MOV Bd, Bs: a signed copy, written canonically (spec/46_support.md R391). -/
def execMov (rd rs1 : RegNum) (s : State) : Result := (s.setB rd (s.src rs1)).commit

/-- LDI Bd, #imm: the immediate zero-extended (spec/46_support.md R392). -/
def execLdi (rd : RegNum) (imm : Imm8) (s : State) : Result := (s.setB rd imm.toNat).commit

/-- ADD Bd, Ba, Bb: the signed sum or ERR_OVERFLOW (spec/46_support.md R393). -/
def execAdd (rd rs1 rs2 : RegNum) (s : State) : Result := s.writeChecked rd (s.src rs1 + s.src rs2)

/-- SUB Bd, Ba, Bb: the signed difference or ERR_OVERFLOW (spec/46_support.md R394). -/
def execSub (rd rs1 rs2 : RegNum) (s : State) : Result := s.writeChecked rd (s.src rs1 - s.src rs2)

end Sys2Proof.Machine
end

