-- ==== Sys2Proof/Machine/CodecCipher.lean ====
section
/-! DEFINITION. The block codec B2I, I2B and the cipher orchestrator ENCRYPT, DECRYPT (spec/44_codec_cipher.md). -/

namespace Sys2Proof.Machine

/-- B2I Bd, Boff, Blen: bytes to integer, ERR_BOUNDS, then ERR_OVERFLOW (spec/44_codec_cipher.md R314). A
byte nothing has written is UNINIT (spec/20_memory.md R100). -/
def execB2i (rd rs1 rs2 : RegNum) (s : State) : Result :=
  s.natSrc rs1 fun off => s.natSrc rs2 fun len =>
    if s.cfg.msgBytes < off + len then s.raise .bounds
    else
      match s.msgRead off len with
      | none => .fault .uninit
      | some bs => s.writeChecked rd (bytesToInt bs)

/-- I2B Bd, Bv, Boff: integer to bytes, the length to Bd (spec/44_codec_cipher.md R315). -/
def execI2b (rd rs1 rs2 : RegNum) (s : State) : Result :=
  s.natSrc rs1 fun v => s.natSrc rs2 fun off =>
    let bs := intToBytes v
    if s.cfg.msgBytes < off + bs.length then s.raise .bounds
    else ((s.msgWrite off bs).setB rd bs.length).commit

/-- ENCRYPT Be, Bn: every error before the first CtWrite (spec/44_codec_cipher.md R322). -/
def execEncrypt (rs1 rs2 : RegNum) (s : State) : Result :=
  s.natSrc rs1 fun e => s.natSrc rs2 fun n =>
    if blockSize n ≤ 0 then s.raise .keysmall
    else if s.cfg.msgBytes < s.srcMsgLen then s.raise .bounds
    else
      let nb := blockCount s.srcMsgLen (blockSize n).toNat
      if s.cfg.ctWords < nb then s.raise .bounds
      else
        match s.msgRead 0 s.srcMsgLen with
        | none => .fault .uninit
        | some m => ((s.ctWrite 0 (encryptBytes e n m)).setCtCount (BitVec.ofNat 32 nb)).commit

/-- DECRYPT Bd, Bn (spec/44_codec_cipher.md R331). After the output-length ERR_BOUNDS every MSGMEM byte
holds any value (spec/30_encoding.md R146, spec/90_conflicts.md C6, log 9). -/
def execDecrypt (rs1 rs2 : RegNum) (s : State) : Result :=
  s.natSrc rs1 fun d => s.natSrc rs2 fun n =>
    if n = 0 then s.raise .div0
    else if s.cfg.ctWords < s.srcCtCount then s.raise .bounds
    else
      match s.ctReadFrom 0 s.srcCtCount with
      | none => .fault .uninit
      | some cs =>
        let out := decryptEntries d n cs
        if s.cfg.msgBytes < out.length then (s.scrambleMsg 0 s.cfg.msgBytes).raise .bounds
        else ((s.msgWrite 0 out).setMsgLen (BitVec.ofNat 32 out.length)).commit

end Sys2Proof.Machine
end

