-- ==== Sys2Proof/Machine/CompareShift.lean ====
section
/-! DEFINITION. The comparison and shift units CMP, SHL, SHR, SHLI, SHRI, BITLEN, CTZ (spec/45_compare_shift.md). -/

namespace Sys2Proof.Machine

/-- CMP Ba, Bb: the signed comparison sets exactly one of LT, EQ, GT (spec/45_compare_shift.md R350). -/
def execCmp (rs1 rs2 : RegNum) (s : State) : Result := (s.setCompare (s.src rs1) (s.src rs2)).commit

/-- A left shift that never wraps: 0 by any amount is 0, a lost bit is ERR_OVERFLOW
(spec/45_compare_shift.md R351). -/
def State.shiftLeftInto (s : State) (rd : RegNum) (a n : Nat) : Result :=
  if a = 0 then (s.setB rd 0).commit
  else if s.cfg.W ≤ n then s.raise .overflow
  else s.writeChecked rd ((a * 2 ^ n : Nat) : Int)

/-- SHL Bd, Ba, Bs: shift left by a register amount (spec/45_compare_shift.md R351). -/
def execShl (rd rs1 rs2 : RegNum) (s : State) : Result :=
  s.natSrc rs1 fun a => s.natSrc rs2 fun n => s.shiftLeftInto rd a n

/-- SHR Bd, Ba, Bs: a div 2^b, no overflow (spec/45_compare_shift.md R352). -/
def execShr (rd rs1 rs2 : RegNum) (s : State) : Result :=
  s.natSrc rs1 fun a => s.natSrc rs2 fun n => (s.setB rd (shiftRight a n)).commit

/-- SHLI Bd, Ba, #sh: shift left by an immediate (spec/45_compare_shift.md R353). -/
def execShli (rd rs1 : RegNum) (imm : Imm8) (s : State) : Result :=
  s.natSrc rs1 fun a => s.shiftLeftInto rd a imm.toNat

/-- SHRI Bd, Ba, #sh: a div 2^imm (spec/45_compare_shift.md R354). -/
def execShri (rd rs1 : RegNum) (imm : Imm8) (s : State) : Result :=
  s.natSrc rs1 fun a => (s.setB rd (shiftRight a imm.toNat)).commit

/-- BITLEN Bd, Ba (spec/45_compare_shift.md R355). -/
def execBitlen (rd rs1 : RegNum) (s : State) : Result :=
  s.natSrc rs1 fun a => (s.setB rd (bitlen a)).commit

/-- CTZ Bd, Ba: ERR_RANGE for 0 (spec/45_compare_shift.md R356). -/
def execCtz (rd rs1 : RegNum) (s : State) : Result :=
  s.natSrc rs1 fun a =>
    if a = 0 then s.raise .range else (s.setB rd (trailingZeros a)).commit

end Sys2Proof.Machine
end

