-- ==== Sys2Proof/Machine/GcdInverse.lean ====
section
/-! DEFINITION. The extended GCD and inverse unit EGCD, GCD, MODINV (spec/42_gcd_inverse.md). -/

namespace Sys2Proof.Machine

/-- EGCD Bd, Ba, Bb: g, x, y into B[d], B[d+1], B[d+2] (spec/42_gcd_inverse.md R251). A command with rd
above 13 is no legal word (spec/30_encoding.md R137 (c)): decode never gives it, and here it ends as
an illegal word does. -/
def execEgcd (rd rs1 rs2 : RegNum) (s : State) : Result :=
  if 13 < rd.val then s.raise .illegal
  else
    s.natSrc rs1 fun a => s.natSrc rs2 fun b =>
      let r := egcd a b
      if s.overflows r.2.1 || s.overflows r.2.2 then s.raise .overflow
      else (((s.setB rd r.1).setB (rd + 1) r.2.1).setB (rd + 2) r.2.2).commit

/-- GCD Bd, Ba, Bb: the first component of EGCD (spec/42_gcd_inverse.md R254). -/
def execGcd (rd rs1 rs2 : RegNum) (s : State) : Result :=
  s.natSrc rs1 fun a => s.natSrc rs2 fun b => (s.setB rd (egcd a b).1).commit

/-- MODINV Bd, Be, Bm: x mod b, not negative; ERR_DIV0 before the gcd, then ERR_NOINV
(spec/42_gcd_inverse.md R253). -/
def execModinv (rd rs1 rs2 : RegNum) (s : State) : Result :=
  s.natSrc rs1 fun a => s.natSrc rs2 fun b =>
    if b = 0 then s.raise .div0
    else
      let r := egcd a b
      if r.1 ≠ 1 then s.raise .noinv else (s.setB rd (r.2.1 % (b : Int))).commit

end Sys2Proof.Machine
end

