-- ==== Sys2Proof/Machine/Multiplier.lean ====
section
/-! DEFINITION. The multiplier unit MUL, MODMUL, MOD (spec/40_multiplier.md) and the modexp engine MODPOW (spec/41_modexp.md). -/

namespace Sys2Proof.Machine

/-- MUL Bd, Ba, Bb: the exact product or ERR_OVERFLOW (spec/40_multiplier.md R204). -/
def execMul (rd rs1 rs2 : RegNum) (s : State) : Result :=
  s.natSrc rs1 fun a => s.natSrc rs2 fun b => s.writeChecked rd (mmProduct a b)

/-- MODMUL Bd, Ba, Bb, Bm: the full product, then reduced (spec/40_multiplier.md R205). -/
def execModmul (rd rs1 rs2 rs3 : RegNum) (s : State) : Result :=
  s.natSrc rs1 fun a => s.natSrc rs2 fun b => s.natSrc rs3 fun c =>
    if c = 0 then s.raise .div0 else (s.setB rd (mmProduct a b % c : Nat)).commit

/-- MOD Bd, Ba, Bm (spec/40_multiplier.md R206). -/
def execMod (rd rs1 rs2 : RegNum) (s : State) : Result :=
  s.natSrc rs1 fun a => s.natSrc rs2 fun b =>
    if b = 0 then s.raise .div0 else (s.setB rd (a % b : Nat)).commit

/-- MODPOW Bd, Bbase, Bexp, Bmod (spec/41_modexp.md R232). -/
def execModpow (rd rs1 rs2 rs3 : RegNum) (s : State) : Result :=
  s.natSrc rs1 fun a => s.natSrc rs2 fun b => s.natSrc rs3 fun c =>
    if c = 0 then s.raise .div0 else (s.setB rd (modPow a b c)).commit

end Sys2Proof.Machine
end

