-- ==== Sys2Proof/Machine/Primality.lean ====
section
/-! DEFINITION. The Miller-Rabin driver ISPRIME (spec/43_primality.md). -/

namespace Sys2Proof.Machine

/-- ISPRIME ends with a verdict: B[d] and FLAGS.PRIME (spec/43_primality.md R281). -/
def State.verdict (s : State) (rd : RegNum) (p : Bool) : Result :=
  ((s.setB rd (if p then 1 else 0)).setPrime p).commit

/-- ISPRIME Bd, Bn, #rounds (spec/43_primality.md R281): the captured witness and the answers the witness
source has ready are used in order; with none left the command waits, busy, with wit_req = 1 (spec/70_reset_and_hazards.md R483),
and a later turn goes on after the trials passed. -/
def execIsprime (rd rs1 : RegNum) (imm : Imm8) (s : State) : Result :=
  s.natSrc rs1 fun n =>
    match primeWithoutWitness n with
    | some p => s.verdict rd p
    | none =>
      match runTrials s.cfg.W n (roundsOf imm - s.trialsPassed) s.answers with
      | .verdict p rest => (s.setAnswers rest).verdict rd p
      | .badWitness rest => (s.setAnswers rest).raise .witness
      | .waiting passed => .next (s.await passed)

end Sys2Proof.Machine
end

