-- ==== Sys2Proof/Machine/Dispatch.lean ====
section
/-! DEFINITION. The dispatch: one arm per command of spec/30_encoding.md R136, each a call of its meaning. -/

namespace Sys2Proof.Machine

/-- The execution of a command by the core, from the state after its issue (spec/30_encoding.md R144). -/
def exec (i : Instr) (s : State) : Host.Outcome State Fault Refusal :=
  match i with
  | .nop => Sys2Proof.Machine.execNop s
  | .mov rd rs1 => Sys2Proof.Machine.execMov rd rs1 s
  | .ldi rd imm => Sys2Proof.Machine.execLdi rd imm s
  | .add rd rs1 rs2 => Sys2Proof.Machine.execAdd rd rs1 rs2 s
  | .sub rd rs1 rs2 => Sys2Proof.Machine.execSub rd rs1 rs2 s
  | .cmp rs1 rs2 => Sys2Proof.Machine.execCmp rs1 rs2 s
  | .shl rd rs1 rs2 => Sys2Proof.Machine.execShl rd rs1 rs2 s
  | .shr rd rs1 rs2 => Sys2Proof.Machine.execShr rd rs1 rs2 s
  | .shli rd rs1 imm => Sys2Proof.Machine.execShli rd rs1 imm s
  | .shri rd rs1 imm => Sys2Proof.Machine.execShri rd rs1 imm s
  | .bitlen rd rs1 => Sys2Proof.Machine.execBitlen rd rs1 s
  | .ctz rd rs1 => Sys2Proof.Machine.execCtz rd rs1 s
  | .mul rd rs1 rs2 => Sys2Proof.Machine.execMul rd rs1 rs2 s
  | .modmul rd rs1 rs2 rs3 => Sys2Proof.Machine.execModmul rd rs1 rs2 rs3 s
  | .mod rd rs1 rs2 => Sys2Proof.Machine.execMod rd rs1 rs2 s
  | .modpow rd rs1 rs2 rs3 => Sys2Proof.Machine.execModpow rd rs1 rs2 rs3 s
  | .egcd rd rs1 rs2 => Sys2Proof.Machine.execEgcd rd rs1 rs2 s
  | .gcd rd rs1 rs2 => Sys2Proof.Machine.execGcd rd rs1 rs2 s
  | .modinv rd rs1 rs2 => Sys2Proof.Machine.execModinv rd rs1 rs2 s
  | .isprime rd rs1 imm => Sys2Proof.Machine.execIsprime rd rs1 imm s
  | .b2i rd rs1 rs2 => Sys2Proof.Machine.execB2i rd rs1 rs2 s
  | .i2b rd rs1 rs2 => Sys2Proof.Machine.execI2b rd rs1 rs2 s
  | .encrypt rs1 rs2 => Sys2Proof.Machine.execEncrypt rs1 rs2 s
  | .decrypt rs1 rs2 => Sys2Proof.Machine.execDecrypt rs1 rs2 s

end Sys2Proof.Machine
end

