-- ==== Sys2Proof/Machine/Agents.lean ====
section
/-! DEFINITION. The moves of the agents (spec/10_state.md R30): the core's turn, the witness source's
answer, the reset pin, and which of them an event of the agenda is. -/

namespace Sys2Proof.Machine

/-- The core's turn: the running command is executed (spec/30_encoding.md R144, spec/10_state.md R61); with
none running nothing happens. A latched word that decodes to nothing (no reachable state has one) ends
as an illegal word does (log 19). -/
def coreTurn (s : State) : Result :=
  match s.running with
  | none => .next s
  | some c =>
    match decodeWord c.word with
    | .ok i => exec i s
    | .error _ => s.raise .illegal

/-- The witness source presents a value (spec/10_state.md R85): captured into the running
command's hidden state (R60) while wit_req = 1, which then is 0; ignored otherwise. -/
def witnessArrives (w : Nat) (s : State) : State :=
  match s.running with
  | none => s
  | some c =>
    if c.witReq then { s with running := some { c with witReq := false, captured := some w } } else s

/-- The pin rst_n takes a level (spec/10_state.md R82, spec/70_reset_and_hazards.md R460): at 0, and at the
return to 1, every piece of state has its reset value. -/
def resetPin (level : Bool) (s : State) : State :=
  if level && s.rstN then s else { s.hardReset with rstN := level }

/-- What a move does. -/
def handle (e : Event) (s : State) : Result :=
  match e with
  | .busRead addr be => busRead addr be s
  | .busWrite addr data be => busWrite addr data be s
  | .witValid w => .next (witnessArrives w s)
  | .rst level => .next (resetPin level s)
  | .core => coreTurn s

/-- The next move of the agenda, the core's turn when none is left (log 3). -/
def nextMove (s : State) : Result :=
  match s.agenda with
  | [] => coreTurn s
  | e :: rest => handle e { s with agenda := rest }

/-- Word w issued as the command that runs next, and the core's turn put before every other move (log 5). -/
def State.withCommand (s : State) (w : Word) : State :=
  let s' := s.issue w
  { s' with agenda := .core :: s'.agenda }

end Sys2Proof.Machine
end

