-- ==== Sys2Proof/Machine/Step.lean ====
section
/-! DEFINITION. One step of the machine: one move of one agent, read from the state's agenda
(spec/10_state.md R30, spec/20_memory.md R110, spec/93_implementation_defined.md I21). -/

namespace Sys2Proof.Machine

/-- One step. -/
def step : State → Host.Outcome State Fault Refusal := nextMove

/-- The state in which the very next step runs the command word w: RSACORE fetches nothing
(spec/10_state.md R37), a command enters by its issue (spec/30_encoding.md R141), so this is the state
just after the issue of w with the core to move (log 5). -/
def State.withFetchWord (s : State) (nbits w : Nat) : State :=
  s.withCommand (BitVec.ofNat 32 (w % 2 ^ nbits))

end Sys2Proof.Machine
end

