-- ==== Sys2Proof/Machine/Assembler.lean ====
section
/-! DEFINITION. The assembler's text of a command (spec/30_encoding.md R140) and the pseudo-instructions
(spec/30_encoding.md R147). No step uses them: a program is bus writes of command words. -/

namespace Sys2Proof.Machine

/-- A register in assembler syntax: B0 to B15 (spec/30_encoding.md R140). -/
def regText (r : RegNum) : String := "B" ++ toString r.val

/-- An immediate in assembler syntax: # and a decimal number (spec/30_encoding.md R140). -/
def immText (m : Imm8) : String := "#" ++ toString m.toNat

/-- A line: the mnemonic, a space, the operands separated by commas (spec/30_encoding.md R140). -/
def lineText (mnemonic : String) : List String → String
  | [] => mnemonic
  | ops => mnemonic ++ " " ++ ", ".intercalate ops

/-- The assembler's line of a command, operands in the order rd, rs1, rs2, rs3, imm8
(spec/30_encoding.md R140). -/
def asmText : Instr → String
  | .nop => lineText "NOP" []
  | .mov d a => lineText "MOV" [regText d, regText a]
  | .ldi d m => lineText "LDI" [regText d, immText m]
  | .add d a b => lineText "ADD" [regText d, regText a, regText b]
  | .sub d a b => lineText "SUB" [regText d, regText a, regText b]
  | .cmp a b => lineText "CMP" [regText a, regText b]
  | .shl d a b => lineText "SHL" [regText d, regText a, regText b]
  | .shr d a b => lineText "SHR" [regText d, regText a, regText b]
  | .shli d a m => lineText "SHLI" [regText d, regText a, immText m]
  | .shri d a m => lineText "SHRI" [regText d, regText a, immText m]
  | .bitlen d a => lineText "BITLEN" [regText d, regText a]
  | .ctz d a => lineText "CTZ" [regText d, regText a]
  | .mul d a b => lineText "MUL" [regText d, regText a, regText b]
  | .modmul d a b c => lineText "MODMUL" [regText d, regText a, regText b, regText c]
  | .mod d a b => lineText "MOD" [regText d, regText a, regText b]
  | .modpow d a b c => lineText "MODPOW" [regText d, regText a, regText b, regText c]
  | .egcd d a b => lineText "EGCD" [regText d, regText a, regText b]
  | .gcd d a b => lineText "GCD" [regText d, regText a, regText b]
  | .modinv d a b => lineText "MODINV" [regText d, regText a, regText b]
  | .isprime d a m => lineText "ISPRIME" [regText d, regText a, immText m]
  | .b2i d a b => lineText "B2I" [regText d, regText a, regText b]
  | .i2b d a b => lineText "I2B" [regText d, regText a, regText b]
  | .encrypt a b => lineText "ENCRYPT" [regText a, regText b]
  | .decrypt a b => lineText "DECRYPT" [regText a, regText b]

/-- A pseudo-instruction (spec/30_encoding.md R147). -/
inductive Pseudo where
  | clr (rd : RegNum)
  | sqr (rd rs : RegNum)
  | modsqr (rd rs rm : RegNum)
  | isprimeDefault (rd rn : RegNum)
  deriving DecidableEq, Repr

/-- The command a pseudo-instruction stands for (spec/30_encoding.md R147). -/
def expand : Pseudo → Instr
  | .clr d => .ldi d 0
  | .sqr d a => .mul d a a
  | .modsqr d a m => .modmul d a a m
  | .isprimeDefault d n => .isprime d n 0

end Sys2Proof.Machine
end

