-- ==== Sys2Proof/Safety.lean ====
section
/-! DEFINITION. The terms claims are stated in: how a command ends, what a transition leaves unchanged,
the bus map as a predicate, and the invariant of the machine. -/

namespace Sys2Proof.Machine

/-! ### How a command ends -/

/-- The command is over with this code (spec/30_encoding.md R145): BUSY = 0, DONE = 1, ERR holds it. -/
structure Ended (e : ErrCode) (t : State) : Prop where
  running : t.running = none
  done : t.done = true
  err : t.err = e

/-- What no command writes: the parameters, CTRL.IE, OVR, CMD, the pins and the outside agents' moves. -/
structure SameShell (s t : State) : Prop where
  cfg : t.cfg = s.cfg
  ie : t.ie = s.ie
  ovr : t.ovr = s.ovr
  cmd : t.cmd = s.cmd
  rstN : t.rstN = s.rstN
  busReply : t.busReply = s.busReply
  agenda : t.agenda = s.agenda

/-- Every raw register pair but those listed is unchanged. -/
def SameRegsBut (ds : List RegNum) (s t : State) : Prop := ∀ r, r ∉ ds → t.reg r = s.reg r

/-- Every byte of memory outside the stored offsets reads as before. -/
def SameMemBut (stored : Nat → Prop) (s t : State) : Prop :=
  ∀ a, ¬ stored a → memRead t.mem a = memRead s.mem a

/-- Every byte of memory reads as before. -/
def SameMem (s t : State) : Prop := ∀ a, memRead t.mem a = memRead s.mem a

/-- FLAGS is unchanged, all of it. -/
def SameFlags (s t : State) : Prop := t.flags = s.flags

/-- MSG_LEN and CT_COUNT are unchanged. -/
def SameLengths (s t : State) : Prop := t.msgLen = s.msgLen ∧ t.ctCount = s.ctCount

/-- No witness answer was used and no free value drawn. -/
def SameSources (s t : State) : Prop := t.witAnswers = s.witAnswers ∧ t.draws = s.draws

/-- The command ends with this code and writes nothing else (spec/60_exceptions.md R410, R414). -/
def EndsWritingNothing (e : ErrCode) (s : State) (o : Result) : Prop :=
  ∃ t, o = .next t ∧ Ended e t ∧ SameShell s t ∧ SameRegsBut [] s t ∧ SameMem s t ∧ SameFlags s t ∧
    SameLengths s t ∧ SameSources s t

/-- The command ends without error, having written to B[d] the value v as its canonical pair (S = 1 exactly
when v < 0, spec/10_state.md R31), and nothing else. -/
def EndsWritingReg (d : RegNum) (v : Int) (s : State) (o : Result) : Prop :=
  ∃ t, o = .next t ∧ Ended .none t ∧ (t.reg d).sign = decide (v < 0) ∧ (t.reg d).mag = v.natAbs ∧
    SameShell s t ∧ SameRegsBut [d] s t ∧ SameMem s t ∧ SameFlags s t ∧ SameLengths s t ∧
    SameSources s t

/-- ISPRIME ends with a verdict (spec/43_primality.md R281): B[d] and FLAGS.PRIME hold it, the answers not
asked for are left, nothing else is written. -/
def EndsWithVerdict (d : RegNum) (p : Bool) (rest : List Nat) (s : State) (o : Result) : Prop :=
  ∃ t, o = .next t ∧ Ended .none t ∧ (t.reg d).sign = false ∧ (t.reg d).mag = (if p then 1 else 0) ∧
    t.flags.prime = p ∧ t.flags.lt = s.flags.lt ∧ t.flags.eq = s.flags.eq ∧ t.flags.gt = s.flags.gt ∧
    SameShell s t ∧ SameRegsBut [d] s t ∧ SameMem s t ∧ SameLengths s t ∧ t.witAnswers = rest ∧
    t.draws = s.draws

/-- The word of a command, as a number, and its assembler line (spec/30_encoding.md R136, R140). -/
def FormIs (i : Instr) (word : Nat) (mnemonic : String) (operands : List String) : Prop :=
  (encode i).toNat = word ∧ asmText i = lineText mnemonic operands

/-! ### Offsets -/

/-- The byte offset of a control register (spec/10_state.md R40). -/
def ctrlOffset : CtrlReg → Nat
  | .id => 0x000
  | .param => 0x004
  | .msgcap => 0x008
  | .ctcap => 0x00C
  | .ctrl => 0x010
  | .status => 0x014
  | .flags => 0x018
  | .cmd => 0x01C
  | .sign => 0x020
  | .msgLen => 0x024
  | .ctCount => 0x028

/-- The access is a full aligned word at an offset from RSACORE_BASE (spec/20_memory.md R92, R95). -/
abbrev WordAt (s : State) (addr : Word) (be : BitVec 4) (off : Nat) : Prop :=
  be = 0xF ∧ addr.toNat % 4 = 0 ∧ addr.toNat = s.cfg.base.toNat + off

/-- The access is a full aligned word at a control register (spec/10_state.md R40). -/
abbrev AccessOf (s : State) (addr : Word) (be : BitVec 4) (r : CtrlReg) : Prop :=
  WordAt s addr be (ctrlOffset r)

/-- The offsets of MSGMEM bytes [off, off + n). -/
def MsgRange (off n a : Nat) : Prop := msgAddr off ≤ a ∧ a < msgAddr off + n

/-- The offsets of the bytes of CTMEM entries [0, n). -/
def CtRange (c : Config) (n a : Nat) : Prop :=
  ∃ k, k < n ∧ ctAddr k ≤ a ∧ a < ctAddr k + entryBytes c

/-! ### Strong probable primes, as spec/43_primality.md R286 (a) words the test -/

/-- a^d = 1 or a^(d*2^j) = n - 1 modulo n for some j < r, where n - 1 = 2^r * d with d odd. -/
def StrongProbablePrime (n a : Nat) : Prop :=
  ∃ r d, n - 1 = 2 ^ r * d ∧ d % 2 = 1 ∧
    (a ^ d % n = 1 ∨ ∃ j, j < r ∧ a ^ (d * 2 ^ j) % n = n - 1)

/-! ### The invariant -/

/-- What holds of the running command: it is the word in CMD, it decodes, its snapshot is what the registers
and lengths still hold (spec/20_memory.md R94, spec/30_encoding.md R143), and it waits for a witness or
holds a captured one, never both, only as ISPRIME of an odd n of at least 5 with trials to come
(spec/43_primality.md R284, spec/10_state.md R85). -/
structure RunningOk (s : State) (c : Running) : Prop where
  word : c.word = s.cmd
  snap : ∃ i, decodeWord c.word = .ok i ∧ c.snap = s.snapshotFor i
  trials : ∀ d a imm, decodeWord c.word = .ok (.isprime d a imm) → c.trials < roundsOf imm
  oneRequest : c.witReq = true → c.captured = none
  waits : c.witReq = true ∨ c.captured ≠ none → ∃ d a imm, decodeWord c.word = .ok (.isprime d a imm) ∧ 0 ≤ s.B a ∧
    5 ≤ s.B a ∧ s.B a % 2 = 1

/-- The invariant of the machine. -/
structure Inv (s : State) : Prop where
  /-- The parameters are in range (spec/00_scope.md R6, R9). -/
  cfg : s.cfg.valid
  /-- Every magnitude fits its register (spec/10_state.md R31). -/
  mags : ∀ r, (s.reg r).mag < 2 ^ s.cfg.W
  /-- Memory is in canonical form. -/
  memWf : memWf s.mem = true
  /-- Memory holds only bytes of MSGMEM and of CTMEM entries (spec/20_memory.md R95). -/
  memIn : ∀ c ∈ s.mem, inBuffers s.cfg c.1 = true
  /-- BUSY = 1 and DONE = 1 never hold together (spec/10_state.md R45). -/
  busyDone : s.running ≠ none → s.done = false
  /-- ERR is 0 while a command runs (spec/10_state.md R46). -/
  busyErr : s.running ≠ none → s.err = .none
  /-- At most one of LT, EQ, GT is set (spec/10_state.md R38, R39). -/
  flags : ¬ (s.flags.lt = true ∧ s.flags.eq = true) ∧ ¬ (s.flags.lt = true ∧ s.flags.gt = true) ∧
    ¬ (s.flags.eq = true ∧ s.flags.gt = true)
  /-- The running command. -/
  running : ∀ c, s.running = some c → RunningOk s c
  /-- While rst_n = 0 nothing runs, DONE is 0 (so irq = 0) and IE is 0 (spec/10_state.md R82). -/
  inReset : s.rstN = false → s.running = none ∧ s.done = false ∧ s.ie = false

end Sys2Proof.Machine
end

