-- ==== Sys2Proof/Certificates/Slice0/Obligations.lean ====
section
/-! DEFINITION. The statements for the provers. Each docstring names the rules of spec/ it formalises. In
all of them s.src r is the snapshot value of source register r (spec/30_encoding.md R143), the register's
value at issue (SnapshotIsWhatRegistersHold says so). -/

open Sys2Proof Sys2Proof.Machine

/-! ### Encoding -/

/-- Words written out from the spec's encodings (spec/30_encoding.md R136 and the examples of
spec/40_multiplier.md to spec/46_support.md) decode to their commands, and the illegal words of
spec/95_test_vectors.md section 2 to nothing. -/
def Obligations.SpecWordsDecode : Prop :=
  decodeWord 0x00000001 = .ok .nop ∧
  decodeWord 0x1100_0103 = .ok (.ldi 1 17) ∧
  decodeWord 0x0002_1010 = .ok (.cmp 1 2) ∧
  decodeWord 0x0032_1421 = .ok (.modmul 4 1 2 3) ∧
  decodeWord 0x0021_0330 = .ok (.modpow 3 0 1 2) ∧
  decodeWord 0x0002_1D40 = .ok (.egcd 13 1 2) ∧
  decodeWord 0x0200_1250 = .ok (.isprime 2 1 2) ∧
  decodeWord 0x0002_1063 = .ok (.decrypt 1 2) ∧
  decodeWord 0x00000E40 = .error .egcdDestination ∧
  decodeWord 0x00010002 = .error .reservedBitSet ∧
  decodeWord 0x00000000 = .error .unlistedOpcode

/-- No bit of an encoding is dropped: every well-formed command is what its word decodes to, with every
operand at every value (spec/30_encoding.md R136, R139). -/
def Obligations.DecodeInvertsEncode : Prop :=
  ∀ i : Instr, i.wellFormed = true → decodeWord (encode i) = .ok i

/-- Every legal word is the word of the one command it decodes to, every unused field 0
(spec/30_encoding.md R133, R134, R136). -/
def Obligations.LegalWordIsEncodingOfItsCommand : Prop :=
  ∀ (w : Word) (i : Instr), decodeWord w = .ok i → encode i = w ∧ i.wellFormed = true

/-- The four bytes of a word, least significant first, are the bytes decode reads; what follows them is
left (spec/30_encoding.md R130, spec/20_memory.md R91). -/
def Obligations.BytesDecodeLittleEndian : Prop :=
  ∀ (i : Instr) (rest : List Byte), i.wellFormed = true →
    decode (encodeBytes i ++ rest) = .ok (i, rest) ∧
    ∃ b0 b1 b2 b3 : Byte, encodeBytes i = [b0, b1, b2, b3] ∧
      (encode i).toNat = b0.toNat + b1.toNat * 2 ^ 8 + b2.toNat * 2 ^ 16 + b3.toNat * 2 ^ 24

/-- The illegal words of spec/30_encoding.md R137 (a), opcode range by opcode range, and (b), (c): a word
whose row has a reserved bit set, EGCD with rd 14 or 15. -/
def Obligations.IllegalWordsAreRejectedByName : Prop :=
  (∀ w : Word,
    (let op := w.toNat % 256
     op = 0 ∨ (0x06 ≤ op ∧ op ≤ 0x0F) ∨ (0x17 ≤ op ∧ op ≤ 0x1F) ∨ (0x23 ≤ op ∧ op ≤ 0x2F) ∨
       (0x31 ≤ op ∧ op ≤ 0x3F) ∨ (0x43 ≤ op ∧ op ≤ 0x4F) ∨ (0x51 ≤ op ∧ op ≤ 0x5F) ∨
       (0x64 ≤ op ∧ op ≤ 0xFF)) → decodeWord w = .error .unlistedOpcode) ∧
  (∀ (w : Word) (row : OpcodeRow), row ∈ opcodeRows → row.opcode = opcodeOf w →
    w &&& row.mask ≠ row.pattern → decodeWord w = .error .reservedBitSet) ∧
  (∀ w : Word, w.toNat % 256 = 0x40 → w &&& 0xFFF000FF = 0x00000040 →
    13 < w.toNat / 2 ^ 8 % 16 → decodeWord w = .error .egcdDestination)

/-! ### Lifecycle -/

/-- A step is one move, the first of the agenda, or the core's turn with none left (the agenda is the model's
choice, log 3). The core's turn runs the decoded command: with a command running whose latched word decodes to
i it is exec i (spec/30_encoding.md R144, spec/10_state.md R61); with none running nothing changes. A host access
is the bus read or bus write it asks for (spec/10_state.md R30, spec/20_memory.md R110). The moves of the witness
source and of rst_n are WitnessCapturedOnlyWhenRequested and HardwareResetGivesResetState. -/
def Obligations.StepRunsTheRunningCommand : Prop :=
  ∀ s : State,
    (∀ (c : Running) (i : Instr), s.running = some c → decodeWord c.word = .ok i →
      (s.agenda = [] → step s = exec i s) ∧
      (∀ rest, s.agenda = .core :: rest → step s = exec i { s with agenda := rest })) ∧
    (s.running = none →
      (s.agenda = [] → step s = .next s) ∧
      (∀ rest, s.agenda = .core :: rest → step s = .next { s with agenda := rest })) ∧
    (∀ (addr : Word) (be : BitVec 4) (rest : List Event), s.agenda = .busRead addr be :: rest →
      step s = busRead addr be { s with agenda := rest }) ∧
    (∀ (addr data : Word) (be : BitVec 4) (rest : List Event), s.agenda = .busWrite addr data be :: rest →
      step s = busWrite addr data be { s with agenda := rest })

/-- The step after withFetchWord runs exactly the command whose word was placed, on the state its issue
leaves (the model's own way in, log 5). -/
def Obligations.FetchedWordRunsAtNextStep : Prop :=
  ∀ (s : State) (i : Instr), i.wellFormed = true →
    step (s.withFetchWord 32 (encode i).toNat) = exec i (s.issue (encode i)) ∧
    (s.issue (encode i)).busy = true ∧ decodeTableWord 32 (encode i).toNat = some i

/-- Issue (spec/30_encoding.md R141, R143): a write of a legal word to CMD while BUSY = 0 sets CMD, clears
ERR and DONE, sets BUSY, latches the word and takes the snapshot of the sources; nothing else changes. That a
register outside the sources reads as its value now is the model's choice (log 6). -/
def Obligations.CmdWriteIssuesAndTakesSnapshot : Prop :=
  ∀ (s : State) (addr : Word) (be : BitVec 4) (i : Instr), s.rstN = true → s.busy = false →
    AccessOf s addr be .cmd → i.wellFormed = true →
    ∃ t c, busWrite addr (encode i) be s = .next t ∧
      t = { s with
        cmd := encode i
        err := .none
        done := false
        running := some c
        busReply := some .written } ∧
      c.word = encode i ∧ c.trials = 0 ∧ c.witReq = false ∧ c.captured = none ∧
      (∀ r, t.src r = s.B r) ∧ t.srcMsgLen = s.msgLen.toNat ∧ t.srcCtCount = s.ctCount.toNat ∧
      t.busy = true ∧ t.witReq = false ∧ t.trialsPassed = 0 ∧ t.answers = s.witAnswers

/-- An illegal word written to CMD is still issued and completes at once with ERR_ILLEGAL
(spec/30_encoding.md R137, R141); nothing else changes. That the command is over inside the same step as the
write, so that BUSY is never seen as 1, is the model's reading of "completes at once" (log 15). -/
def Obligations.IllegalWordCompletesAtOnce : Prop :=
  ∀ (s : State) (addr w : Word) (be : BitVec 4), s.rstN = true → s.busy = false →
    AccessOf s addr be .cmd → (∀ i : Instr, i.wellFormed = true → encode i ≠ w) →
    ∃ t, busWrite addr w be s = .next t ∧
      t = { s with
        cmd := w
        err := .illegal
        done := true
        running := none
        busReply := some .written } ∧
      Ended .illegal t ∧ t.irq = s.ie

/-- A write to CMD while BUSY = 1 is accepted on the bus, dropped, and sets OVR; it changes nothing else
(spec/30_encoding.md R142). -/
def Obligations.CmdWriteWhileBusyIsDropped : Prop :=
  ∀ (s : State) (addr w : Word) (be : BitVec 4), s.rstN = true → s.busy = true →
    AccessOf s addr be .cmd →
    busWrite addr w be s = .next { s with ovr := true, busReply := some .written }

/-- The snapshot a running command computes from is what the registers and lengths still hold: nothing can
change them while it runs (spec/20_memory.md R94, spec/30_encoding.md R143). -/
def Obligations.SnapshotIsWhatRegistersHold : Prop :=
  ∀ s : State, Inv s →
    (∀ r, s.src r = s.B r) ∧ s.srcMsgLen = s.msgLen.toNat ∧ s.srcCtCount = s.ctCount.toNat

/-! ### Support commands (spec/46_support.md) -/

/-- NOP (R390): nothing but the lifecycle; it sets DONE, clears ERR and raises the interrupt when IE = 1. -/
def Obligations.NopOnlyCompletes : Prop :=
  FormIs .nop 1 "NOP" [] ∧
  ∀ s : State, EndsWritingNothing .none s (exec .nop s) ∧
    ∀ t, exec .nop s = .next t → t.irq = s.ie

/-- MOV (R391): a signed copy, written in canonical form, whatever the value. LDI (R392): the immediate,
zero-extended. -/
def Obligations.MovAndLdiWriteRegister : Prop :=
  ∀ (s : State) (d a : RegNum) (imm : Imm8),
    FormIs (.mov d a) (0x02 + d.val * 2 ^ 8 + a.val * 2 ^ 12)
      "MOV" [regText d, regText a] ∧
    EndsWritingReg d (s.src a) s (exec (.mov d a) s) ∧
    FormIs (.ldi d imm) (0x03 + d.val * 2 ^ 8 + imm.toNat * 2 ^ 24)
      "LDI" [regText d, immText imm] ∧
    EndsWritingReg d imm.toNat s (exec (.ldi d imm) s)

/-- ADD (R393) and SUB (R394): the exact signed result, or ERR_OVERFLOW when its magnitude is 2^W or more. -/
def Obligations.AddSubExactOrOverflow : Prop :=
  ∀ (s : State) (d a b : RegNum),
    (FormIs (.add d a b) (0x04 + d.val * 2 ^ 8 + a.val * 2 ^ 12 + b.val * 2 ^ 16)
       "ADD" [regText d, regText a, regText b] ∧
      (2 ^ s.cfg.W ≤ (s.src a + s.src b).natAbs →
        EndsWritingNothing .overflow s (exec (.add d a b) s)) ∧
      ((s.src a + s.src b).natAbs < 2 ^ s.cfg.W →
        EndsWritingReg d (s.src a + s.src b) s (exec (.add d a b) s))) ∧
    (FormIs (.sub d a b) (0x05 + d.val * 2 ^ 8 + a.val * 2 ^ 12 + b.val * 2 ^ 16)
       "SUB" [regText d, regText a, regText b] ∧
      (2 ^ s.cfg.W ≤ (s.src a - s.src b).natAbs →
        EndsWritingNothing .overflow s (exec (.sub d a b) s)) ∧
      ((s.src a - s.src b).natAbs < 2 ^ s.cfg.W →
        EndsWritingReg d (s.src a - s.src b) s (exec (.sub d a b) s)))

/-! ### Comparison and shifts (spec/45_compare_shift.md) -/

/-- CMP (R350): LT, EQ, GT from the signed values, PRIME and everything else unchanged, no error. -/
def Obligations.CmpSetsFlagsFromSignedValues : Prop :=
  ∀ (s : State) (a b : RegNum),
    FormIs (.cmp a b) (0x10 + a.val * 2 ^ 12 + b.val * 2 ^ 16)
      "CMP" [regText a, regText b] ∧
    ∃ t, exec (.cmp a b) s = .next t ∧ Ended .none t ∧
      (t.flags.lt = true ↔ s.src a < s.src b) ∧ (t.flags.eq = true ↔ s.src a = s.src b) ∧
      (t.flags.gt = true ↔ s.src a > s.src b) ∧ t.flags.prime = s.flags.prime ∧
      SameShell s t ∧ SameRegsBut [] s t ∧ SameMem s t ∧ SameLengths s t ∧ SameSources s t

/-- SHL (R351) and SHLI (R353): the exact product with the power of 2, or ERR_OVERFLOW; 0 by any amount is
0; a negative value or register amount is ERR_NEG. -/
def Obligations.ShiftLeftExactOrOverflow : Prop :=
  ∀ (s : State) (d a b : RegNum) (imm : Imm8),
    (FormIs (.shl d a b) (0x11 + d.val * 2 ^ 8 + a.val * 2 ^ 12 + b.val * 2 ^ 16)
       "SHL" [regText d, regText a, regText b] ∧
      (s.src a < 0 ∨ s.src b < 0 → EndsWritingNothing .neg s (exec (.shl d a b) s)) ∧
      (0 ≤ s.src a → 0 ≤ s.src b → 2 ^ s.cfg.W ≤ (s.src a).toNat * 2 ^ (s.src b).toNat →
        EndsWritingNothing .overflow s (exec (.shl d a b) s)) ∧
      (0 ≤ s.src a → 0 ≤ s.src b → (s.src a).toNat * 2 ^ (s.src b).toNat < 2 ^ s.cfg.W →
        EndsWritingReg d (s.src a * 2 ^ (s.src b).toNat) s (exec (.shl d a b) s))) ∧
    (FormIs (.shli d a imm) (0x13 + d.val * 2 ^ 8 + a.val * 2 ^ 12 + imm.toNat * 2 ^ 24)
       "SHLI" [regText d, regText a, immText imm] ∧
      (s.src a < 0 → EndsWritingNothing .neg s (exec (.shli d a imm) s)) ∧
      (0 ≤ s.src a → 2 ^ s.cfg.W ≤ (s.src a).toNat * 2 ^ imm.toNat →
        EndsWritingNothing .overflow s (exec (.shli d a imm) s)) ∧
      (0 ≤ s.src a → (s.src a).toNat * 2 ^ imm.toNat < 2 ^ s.cfg.W →
        EndsWritingReg d (s.src a * 2 ^ imm.toNat) s (exec (.shli d a imm) s)))

/-- SHR (R352) and SHRI (R354): floor division by the power of 2, for every amount however large. -/
def Obligations.ShiftRightIsFloorDivision : Prop :=
  ∀ (s : State) (d a b : RegNum) (imm : Imm8),
    (FormIs (.shr d a b) (0x12 + d.val * 2 ^ 8 + a.val * 2 ^ 12 + b.val * 2 ^ 16)
       "SHR" [regText d, regText a, regText b] ∧
      (s.src a < 0 ∨ s.src b < 0 → EndsWritingNothing .neg s (exec (.shr d a b) s)) ∧
      (0 ≤ s.src a → 0 ≤ s.src b →
        EndsWritingReg d (s.src a / 2 ^ (s.src b).toNat) s (exec (.shr d a b) s))) ∧
    (FormIs (.shri d a imm) (0x14 + d.val * 2 ^ 8 + a.val * 2 ^ 12 + imm.toNat * 2 ^ 24)
       "SHRI" [regText d, regText a, immText imm] ∧
      (s.src a < 0 → EndsWritingNothing .neg s (exec (.shri d a imm) s)) ∧
      (0 ≤ s.src a → EndsWritingReg d (s.src a / 2 ^ imm.toNat) s (exec (.shri d a imm) s)))

/-- BITLEN (R355): the least k with a < 2^k (spec/00_scope.md R12). -/
def Obligations.BitlenIsLeastExponentAbove : Prop :=
  ∀ (s : State) (d a : RegNum),
    FormIs (.bitlen d a) (0x15 + d.val * 2 ^ 8 + a.val * 2 ^ 12)
      "BITLEN" [regText d, regText a] ∧
    (s.src a < 0 → EndsWritingNothing .neg s (exec (.bitlen d a) s)) ∧
    (0 ≤ s.src a → ∃ k : Nat, s.src a < 2 ^ k ∧ (∀ j : Nat, s.src a < 2 ^ j → k ≤ j) ∧
      EndsWritingReg d k s (exec (.bitlen d a) s))

/-- CTZ (R356): ERR_RANGE for 0, else the largest r with 2^r dividing a. -/
def Obligations.CtzIsLargestPowerDividing : Prop :=
  ∀ (s : State) (d a : RegNum),
    FormIs (.ctz d a) (0x16 + d.val * 2 ^ 8 + a.val * 2 ^ 12)
      "CTZ" [regText d, regText a] ∧
    (s.src a < 0 → EndsWritingNothing .neg s (exec (.ctz d a) s)) ∧
    (s.src a = 0 → EndsWritingNothing .range s (exec (.ctz d a) s)) ∧
    (0 < s.src a → ∃ r : Nat, s.src a % 2 ^ r = 0 ∧ (∀ j : Nat, s.src a % 2 ^ j = 0 → j ≤ r) ∧
      EndsWritingReg d r s (exec (.ctz d a) s))

/-! ### Multiplier and modexp (spec/40_multiplier.md, spec/41_modexp.md) -/

/-- MUL (R204): the exact product or ERR_OVERFLOW, ERR_NEG first. -/
def Obligations.MulExactOrOverflow : Prop :=
  ∀ (s : State) (d a b : RegNum),
    FormIs (.mul d a b) (0x20 + d.val * 2 ^ 8 + a.val * 2 ^ 12 + b.val * 2 ^ 16)
      "MUL" [regText d, regText a, regText b] ∧
    (s.src a < 0 ∨ s.src b < 0 → EndsWritingNothing .neg s (exec (.mul d a b) s)) ∧
    (0 ≤ s.src a → 0 ≤ s.src b → 2 ^ s.cfg.W ≤ s.src a * s.src b →
      EndsWritingNothing .overflow s (exec (.mul d a b) s)) ∧
    (0 ≤ s.src a → 0 ≤ s.src b → s.src a * s.src b < 2 ^ s.cfg.W →
      EndsWritingReg d (s.src a * s.src b) s (exec (.mul d a b) s))

/-- MODMUL (R205): the full product reduced; MOD (R206): the remainder. ERR_NEG, then ERR_DIV0. -/
def Obligations.ModmulAndModReduce : Prop :=
  ∀ (s : State) (d a b c : RegNum),
    (FormIs (.modmul d a b c)
        (0x21 + d.val * 2 ^ 8 + a.val * 2 ^ 12 + b.val * 2 ^ 16 + c.val * 2 ^ 20)
       "MODMUL" [regText d, regText a, regText b, regText c] ∧
      (s.src a < 0 ∨ s.src b < 0 ∨ s.src c < 0 → EndsWritingNothing .neg s (exec (.modmul d a b c) s)) ∧
      (0 ≤ s.src a → 0 ≤ s.src b → s.src c = 0 →
        EndsWritingNothing .div0 s (exec (.modmul d a b c) s)) ∧
      (0 ≤ s.src a → 0 ≤ s.src b → 0 < s.src c →
        EndsWritingReg d (s.src a * s.src b % s.src c) s (exec (.modmul d a b c) s))) ∧
    (FormIs (.mod d a b) (0x22 + d.val * 2 ^ 8 + a.val * 2 ^ 12 + b.val * 2 ^ 16)
       "MOD" [regText d, regText a, regText b] ∧
      (s.src a < 0 ∨ s.src b < 0 → EndsWritingNothing .neg s (exec (.mod d a b) s)) ∧
      (0 ≤ s.src a → s.src b = 0 → EndsWritingNothing .div0 s (exec (.mod d a b) s)) ∧
      (0 ≤ s.src a → 0 < s.src b → EndsWritingReg d (s.src a % s.src b) s (exec (.mod d a b) s)))

/-- MODPOW (R232) with the closed form of R231: a^b mod c, 0^0 = 1. -/
def Obligations.ModpowIsPowerModulo : Prop :=
  ∀ (s : State) (d a b c : RegNum),
    FormIs (.modpow d a b c)
        (0x30 + d.val * 2 ^ 8 + a.val * 2 ^ 12 + b.val * 2 ^ 16 + c.val * 2 ^ 20)
      "MODPOW" [regText d, regText a, regText b, regText c] ∧
    (s.src a < 0 ∨ s.src b < 0 ∨ s.src c < 0 → EndsWritingNothing .neg s (exec (.modpow d a b c) s)) ∧
    (0 ≤ s.src a → 0 ≤ s.src b → s.src c = 0 →
      EndsWritingNothing .div0 s (exec (.modpow d a b c) s)) ∧
    (0 ≤ s.src a → 0 ≤ s.src b → 0 < s.src c →
      EndsWritingReg d (s.src a ^ (s.src b).toNat % s.src c) s (exec (.modpow d a b c) s))

/-- The reference multiplication K of R201 is the product (R203), for all x, y: so is the MM unit's. -/
def Obligations.KaratsubaIsProduct : Prop :=
  ∀ x y : Nat, karatsuba x y = x * y ∧ mmProduct x y = karatsuba x y

/-! ### Extended GCD and inverse (spec/42_gcd_inverse.md) -/

/-- EGCD is exactly the recursion of R250: base case and back-substitution. -/
def Obligations.EgcdFollowsSourceRecursion : Prop :=
  (∀ b : Nat, egcd 0 b = (b, 0, 1)) ∧
  (∀ a b : Nat, 0 < a → ∀ (g : Nat) (x1 y1 : Int), egcd (b % a) a = (g, x1, y1) →
    egcd a b = (g, y1 - ((b / a : Nat) : Int) * x1, x1))

/-- R252: Bezout's identity, g is the gcd, the corner results, and the bound on the coefficients that makes
overflow impossible. -/
def Obligations.EgcdBezoutGcdAndBounds : Prop :=
  (∀ (a b g : Nat) (x y : Int), egcd a b = (g, x, y) →
    (a : Int) * x + (b : Int) * y = g ∧ g = Nat.gcd a b ∧ x.natAbs ≤ max b 1 ∧ y.natAbs ≤ max a 1) ∧
  egcd 0 0 = (0, 0, 1) ∧ (∀ b, egcd 0 b = (b, 0, 1)) ∧ (∀ a, 0 < a → egcd a 0 = (a, 1, 0))

/-- EGCD (R251): g, x and y of R250 into B[d], B[d+1], B[d+2], canonically, all three at once; ERR_NEG
first; ERR_OVERFLOW is never taken; rd = 14 or 15 is no legal word (spec/30_encoding.md R134). -/
def Obligations.EgcdWritesThreeRegisters : Prop :=
  (∀ d a b : RegNum, 13 < d.val → decodeWord (encode (.egcd d a b)) = .error .egcdDestination) ∧
  ∀ (s : State) (d a b : RegNum), Inv s → d.val ≤ 13 →
    FormIs (.egcd d a b) (0x40 + d.val * 2 ^ 8 + a.val * 2 ^ 12 + b.val * 2 ^ 16)
      "EGCD" [regText d, regText a, regText b] ∧
    (s.src a < 0 ∨ s.src b < 0 → EndsWritingNothing .neg s (exec (.egcd d a b) s)) ∧
    (0 ≤ s.src a → 0 ≤ s.src b → ∀ (g : Nat) (x y : Int),
      egcd (s.src a).toNat (s.src b).toNat = (g, x, y) →
      ∃ t, exec (.egcd d a b) s = .next t ∧ Ended .none t ∧
        t.reg d = ⟨false, g⟩ ∧ t.reg (d + 1) = ⟨decide (x < 0), x.natAbs⟩ ∧
        t.reg (d + 2) = ⟨decide (y < 0), y.natAbs⟩ ∧
        SameShell s t ∧ SameRegsBut [d, d + 1, d + 2] s t ∧ SameMem s t ∧ SameFlags s t ∧
        SameLengths s t ∧ SameSources s t)

/-- GCD (R254): the greatest common divisor, gcd(0, 0) = 0. -/
def Obligations.GcdWritesGreatestCommonDivisor : Prop :=
  ∀ (s : State) (d a b : RegNum),
    FormIs (.gcd d a b) (0x41 + d.val * 2 ^ 8 + a.val * 2 ^ 12 + b.val * 2 ^ 16)
      "GCD" [regText d, regText a, regText b] ∧
    (s.src a < 0 ∨ s.src b < 0 → EndsWritingNothing .neg s (exec (.gcd d a b) s)) ∧
    (0 ≤ s.src a → 0 ≤ s.src b →
      EndsWritingReg d (Int.gcd (s.src a) (s.src b)) s (exec (.gcd d a b) s))

/-- MODINV (R253): ERR_NEG, ERR_DIV0, ERR_NOINV in this order, else the inverse in [0, b). -/
def Obligations.ModinvWritesInverse : Prop :=
  ∀ (s : State) (d a b : RegNum),
    FormIs (.modinv d a b) (0x42 + d.val * 2 ^ 8 + a.val * 2 ^ 12 + b.val * 2 ^ 16)
      "MODINV" [regText d, regText a, regText b] ∧
    (s.src a < 0 ∨ s.src b < 0 → EndsWritingNothing .neg s (exec (.modinv d a b) s)) ∧
    (0 ≤ s.src a → s.src b = 0 → EndsWritingNothing .div0 s (exec (.modinv d a b) s)) ∧
    (0 ≤ s.src a → 0 < s.src b → Int.gcd (s.src a) (s.src b) ≠ 1 →
      EndsWritingNothing .noinv s (exec (.modinv d a b) s)) ∧
    (0 ≤ s.src a → 0 < s.src b → Int.gcd (s.src a) (s.src b) = 1 →
      ∃ v : Int, 0 ≤ v ∧ v < s.src b ∧ s.src a * v % s.src b = 1 % s.src b ∧
        EndsWritingReg d v s (exec (.modinv d a b) s))

/-! ### Miller-Rabin (spec/43_primality.md) -/

/-- ISPRIME without a witness (R280 first three lines, R281, R284): a negative n, the n decided at once, and
no request made for them. -/
def Obligations.IsprimeDecidesSmallAndEven : Prop :=
  ∀ (s : State) (d a : RegNum) (imm : Imm8),
    FormIs (.isprime d a imm) (0x50 + d.val * 2 ^ 8 + a.val * 2 ^ 12 + imm.toNat * 2 ^ 24)
      "ISPRIME" [regText d, regText a, immText imm] ∧
    (s.src a < 0 → EndsWritingNothing .neg s (exec (.isprime d a imm) s)) ∧
    (s.src a = 0 ∨ s.src a = 1 ∨ s.src a = 4 ∨ (2 < s.src a ∧ s.src a % 2 = 0) →
      EndsWithVerdict d false s.witAnswers s (exec (.isprime d a imm) s)) ∧
    (s.src a = 2 ∨ s.src a = 3 → EndsWithVerdict d true s.witAnswers s (exec (.isprime d a imm) s))

/-- ISPRIME's trial loop (R280, R281, R283, R284): for odd n of at least 5, good is the run of answers in
[2, n-2] that pass. As many as the rounds left: prime, and no further request. Fewer, then one out of range:
ERR_WITNESS, nothing else written. Fewer, then one that fails: composite. Fewer, and no answer left: the
command waits with wit_req = 1, the passed trials counted. s.answers is the captured witness, then the
queue of answers the source has ready, which is the model's choice (log 7); an answer is read modulo 2^W, the
width of wit_data, by the model's inference (log 8). -/
def Obligations.IsprimeRunsTrialsInOrder : Prop :=
  ∀ (s : State) (d a : RegNum) (imm : Imm8) (n : Nat) (good rest : List Nat),
    s.src a = n → 5 ≤ n → n % 2 = 1 → s.answers = good ++ rest →
    (∀ w ∈ good, 2 ≤ w % 2 ^ s.cfg.W ∧ w % 2 ^ s.cfg.W ≤ n - 2 ∧
      trialPasses n (w % 2 ^ s.cfg.W) = true) →
    (let k := (if imm = 0 then 20 else imm.toNat) - s.trialsPassed
     (good.length = k → EndsWithVerdict d true rest s (exec (.isprime d a imm) s)) ∧
     (good.length < k → ∀ w tail, rest = w :: tail →
       (w % 2 ^ s.cfg.W < 2 ∨ n - 2 < w % 2 ^ s.cfg.W →
         ∃ t, exec (.isprime d a imm) s = .next t ∧ Ended .witness t ∧ t.witAnswers = tail ∧
           t.draws = s.draws ∧ SameShell s t ∧ SameRegsBut [] s t ∧ SameMem s t ∧ SameFlags s t ∧
           SameLengths s t) ∧
       (2 ≤ w % 2 ^ s.cfg.W → w % 2 ^ s.cfg.W ≤ n - 2 → trialPasses n (w % 2 ^ s.cfg.W) = false →
         EndsWithVerdict d false tail s (exec (.isprime d a imm) s))) ∧
     (good.length < k → rest = [] → ∀ c, s.running = some c →
       exec (.isprime d a imm) s = .next { s with
         running := some { c with trials := c.trials + good.length, witReq := true, captured := none }
         witAnswers := [] }))

/-- What a trial decides (R280, R285, R286 (a)): n passes witness a exactly when a^d = 1 or a^(d*2^j) = n-1
modulo n for some j < r. Both readings of the squaring loop's end give this. -/
def Obligations.TrialIsStrongProbablePrimeTest : Prop :=
  ∀ n a : Nat, 5 ≤ n → n % 2 = 1 → 2 ≤ a → a ≤ n - 2 →
    (trialPasses n a = true ↔ StrongProbablePrime n a) ∧ a ^ (n - 1) % n ≠ n - 1

/-- No false negatives (R286 (a)): for prime n, whatever in-range answers the source gives, ISPRIME ends with
1, having used one answer for each trial left. s.answers is the captured witness, then the queue of ready
answers (the model's choice, log 7), each read modulo 2^W (the model's inference, log 8). -/
def Obligations.IsprimeAcceptsEveryPrime : Prop :=
  ∀ (s : State) (d a : RegNum) (imm : Imm8) (n : Nat), s.src a = n → n.Prime → 5 ≤ n →
    (∀ w ∈ s.answers, 2 ≤ w % 2 ^ s.cfg.W ∧ w % 2 ^ s.cfg.W ≤ n - 2) →
    (let k := (if imm = 0 then 20 else imm.toNat) - s.trialsPassed
     k ≤ s.answers.length →
       EndsWithVerdict d true (s.answers.drop k) s (exec (.isprime d a imm) s))

/-- The witness wait (spec/70_reset_and_hazards.md R483): while wit_req = 1 an ISPRIME runs, wit_n is its n under
test, odd and at least 5 (spec/10_state.md R80, R85), BUSY is 1 and there is no interrupt; with no answer and no
move from outside a step changes nothing. The queue of ready answers and the agenda are
the model's (logs 7 and 3). -/
def Obligations.WitnessWaitChangesNothing : Prop :=
  ∀ s : State, Inv s → s.witReq = true →
    (∃ c d a imm, s.running = some c ∧ decodeWord c.word = .ok (.isprime d a imm) ∧
      s.witN = (s.B a).toNat) ∧
    s.witN % 2 = 1 ∧ 5 ≤ s.witN ∧ s.busy = true ∧ s.irq = false ∧
    (s.witAnswers = [] → s.agenda = [] → step s = .next s)

/-- The handshake (spec/10_state.md R85, R86): a presented value is captured exactly while wit_req = 1, which
then falls; it is held with the running command and is its next answer; nothing else changes. Otherwise it is
ignored. The agenda that presents it and the queue of ready answers behind it are the model's choice (logs 3
and 7). -/
def Obligations.WitnessCapturedOnlyWhenRequested : Prop :=
  ∀ (s : State) (w : Nat) (rest : List Event), s.agenda = .witValid w :: rest →
    ∃ t, step s = .next t ∧ t.agenda = rest ∧ t.witReq = false ∧
      (s.witReq = false → t = { s with agenda := rest }) ∧
      (s.witReq = true → ∃ c, s.running = some c ∧
        t = { s with
          agenda := rest
          running := some { c with witReq := false, captured := some w } } ∧
        t.answers = w :: s.witAnswers ∧ t.trialsPassed = s.trialsPassed ∧
        (∀ r, t.src r = s.src r) ∧ t.srcMsgLen = s.srcMsgLen ∧ t.srcCtCount = s.srcCtCount ∧
        t.statusWord = s.statusWord)

/-! ### Codec and cipher (spec/44_codec_cipher.md) -/

/-- BytesToInt (R311), IntToBytes (R312) and their inverse laws with the lossy case (R313). -/
def Obligations.CodecIsBase256WithLossyCase : Prop :=
  (∀ bs : List Byte, bytesToInt bs = ∑ i : Fin bs.length, (bs[i]).toNat * 256 ^ i.val) ∧
  intToBytes 0 = [0] ∧
  (∀ v : Nat, 0 < v →
    (∃ k, v < 2 ^ k ∧ (∀ j, v < 2 ^ j → k ≤ j) ∧ (intToBytes v).length = (k + 7) / 8) ∧
    (∀ i (h : i < (intToBytes v).length), ((intToBytes v)[i]).toNat = v / 256 ^ i % 256) ∧
    (intToBytes v).getLast? ≠ some 0) ∧
  (∀ v : Nat, bytesToInt (intToBytes v) = v) ∧
  (∀ bs : List Byte, intToBytes (bytesToInt bs) = bs ↔ (bs ≠ [] ∧ bs.getLast? ≠ some 0) ∨ bs = [0]) ∧
  (∀ bs : List Byte, bs ≠ [] → bs.getLast? ≠ some 0 → ∀ n : Nat,
    intToBytes (bytesToInt (bs ++ List.replicate n 0)) = bs)

/-- B2I (R314): ERR_NEG, ERR_BOUNDS, ERR_OVERFLOW in this order, else the value of the bytes; a byte nothing
has written stops the model with UNINIT (spec/20_memory.md R100). -/
def Obligations.B2iReadsMessageBytes : Prop :=
  ∀ (s : State) (d a b : RegNum),
    FormIs (.b2i d a b) (0x60 + d.val * 2 ^ 8 + a.val * 2 ^ 12 + b.val * 2 ^ 16)
      "B2I" [regText d, regText a, regText b] ∧
    (s.src a < 0 ∨ s.src b < 0 → EndsWritingNothing .neg s (exec (.b2i d a b) s)) ∧
    (0 ≤ s.src a → 0 ≤ s.src b →
      (s.cfg.msgBytes < s.src a + s.src b → EndsWritingNothing .bounds s (exec (.b2i d a b) s)) ∧
      (s.src a + s.src b ≤ s.cfg.msgBytes →
        (∀ bs : List Byte, bs.length = (s.src b).toNat →
          (∀ i (h : i < bs.length), memRead s.mem (0x00100000 + (s.src a).toNat + i) = some bs[i]) →
          (2 ^ s.cfg.W ≤ bytesToInt bs → EndsWritingNothing .overflow s (exec (.b2i d a b) s)) ∧
          (bytesToInt bs < 2 ^ s.cfg.W → EndsWritingReg d (bytesToInt bs) s (exec (.b2i d a b) s))) ∧
        ((∃ i, i < (s.src b).toNat ∧ memRead s.mem (0x00100000 + (s.src a).toNat + i) = none) →
          exec (.b2i d a b) s = .fault .uninit)))

/-- I2B (R315): ERR_NEG, ERR_BOUNDS before any write, else the shortest byte sequence at the offset and its
length in B[d]; every other byte of memory unchanged. -/
def Obligations.I2bWritesShortestBytes : Prop :=
  ∀ (s : State) (d a b : RegNum),
    FormIs (.i2b d a b) (0x61 + d.val * 2 ^ 8 + a.val * 2 ^ 12 + b.val * 2 ^ 16)
      "I2B" [regText d, regText a, regText b] ∧
    (s.src a < 0 ∨ s.src b < 0 → EndsWritingNothing .neg s (exec (.i2b d a b) s)) ∧
    (0 ≤ s.src a → 0 ≤ s.src b →
      (let bs := intToBytes (s.src a).toNat
       (s.cfg.msgBytes < s.src b + bs.length → EndsWritingNothing .bounds s (exec (.i2b d a b) s)) ∧
       (s.src b + bs.length ≤ s.cfg.msgBytes →
         ∃ t, exec (.i2b d a b) s = .next t ∧ Ended .none t ∧ t.reg d = ⟨false, bs.length⟩ ∧
           t.msgRead (s.src b).toNat bs.length = some bs ∧
           SameMemBut (MsgRange (s.src b).toNat bs.length) s t ∧ SameShell s t ∧ SameRegsBut [d] s t ∧
           SameFlags s t ∧ SameLengths s t ∧ SameSources s t)))

/-- Block size and split (R321, R323): for n of at least 256 a block of k(n) bytes is below n; the blocks are
the message in order, every one but the last of k bytes, the last of 1 to k. -/
def Obligations.BlocksFitModulusAndRebuildMessage : Prop :=
  (∀ n : Nat, ∃ k : Nat, n < 2 ^ k ∧ (∀ j, n < 2 ^ j → k ≤ j) ∧ blockSize n = ((k + 7) / 8 : Nat) - 1) ∧
  blockSize 0 = -1 ∧ (∀ n, 1 ≤ n → n ≤ 255 → blockSize n = 0) ∧
  (∀ n, 256 ≤ n → 1 ≤ blockSize n ∧
    ∀ bs : List Byte, (bs.length : Int) ≤ blockSize n → bytesToInt bs < n) ∧
  (∀ (k : Nat) (m : List Byte), 1 ≤ k →
    (splitBlocks k m).flatten = m ∧ (splitBlocks k m).length = (m.length + k - 1) / k ∧
    (∀ j blk, (splitBlocks k m)[j]? = some blk → blk = (m.drop (j * k)).take k ∧ 1 ≤ blk.length ∧
      (j + 1 < (splitBlocks k m).length → blk.length = k)))

/-- ENCRYPT (R322): its checks in order, then entry j holds block j to the power e modulo n, CT_COUNT the
number of blocks, and nothing else is written; a message byte nothing has written is UNINIT
(spec/20_memory.md R100). -/
def Obligations.EncryptWritesPowersOfBlocks : Prop :=
  ∀ (s : State) (re rn : RegNum), Inv s →
    FormIs (.encrypt re rn) (0x62 + re.val * 2 ^ 12 + rn.val * 2 ^ 16)
      "ENCRYPT" [regText re, regText rn] ∧
    (s.src re < 0 ∨ s.src rn < 0 → EndsWritingNothing .neg s (exec (.encrypt re rn) s)) ∧
    (0 ≤ s.src re → 0 ≤ s.src rn → s.src rn ≤ 255 →
      EndsWritingNothing .keysmall s (exec (.encrypt re rn) s)) ∧
    (0 ≤ s.src re → 256 ≤ s.src rn →
      (let k := (blockSize (s.src rn).toNat).toNat
       let len := s.srcMsgLen
       let nb := (len + k - 1) / k
       (s.cfg.msgBytes < len ∨ s.cfg.ctWords < nb →
         EndsWritingNothing .bounds s (exec (.encrypt re rn) s)) ∧
       (len ≤ s.cfg.msgBytes → nb ≤ s.cfg.ctWords →
         (s.msgRead 0 len = none → exec (.encrypt re rn) s = .fault .uninit) ∧
         (∀ m, s.msgRead 0 len = some m →
           ∃ t, exec (.encrypt re rn) s = .next t ∧ Ended .none t ∧ t.ctCount.toNat = nb ∧
             t.msgLen = s.msgLen ∧
             (∀ j, j < nb → t.ctRead j = some
               (bytesToInt ((m.drop (j * k)).take k) ^ (s.src re).toNat % (s.src rn).toNat)) ∧
             SameMemBut (CtRange s.cfg nb) s t ∧ SameShell s t ∧ SameRegsBut [] s t ∧ SameFlags s t ∧
             SameSources s t))))

/-- DECRYPT (R331): its checks in order, then the bytes of the powers in order and their count in MSG_LEN;
after the output-length ERR_BOUNDS every MSGMEM byte holds some value, which nothing names
(spec/30_encoding.md R146, spec/90_conflicts.md C6); a ciphertext entry with a byte nothing has written is UNINIT
(spec/20_memory.md R100), an entry written in part too by the model's inference (log 11). -/
def Obligations.DecryptWritesPowersBytes : Prop :=
  ∀ (s : State) (rd rn : RegNum), Inv s →
    FormIs (.decrypt rd rn) (0x63 + rd.val * 2 ^ 12 + rn.val * 2 ^ 16)
      "DECRYPT" [regText rd, regText rn] ∧
    (s.src rd < 0 ∨ s.src rn < 0 → EndsWritingNothing .neg s (exec (.decrypt rd rn) s)) ∧
    (0 ≤ s.src rd → s.src rn = 0 → EndsWritingNothing .div0 s (exec (.decrypt rd rn) s)) ∧
    (0 ≤ s.src rd → 0 < s.src rn →
      (s.cfg.ctWords < s.srcCtCount → EndsWritingNothing .bounds s (exec (.decrypt rd rn) s)) ∧
      (s.srcCtCount ≤ s.cfg.ctWords →
        ((∃ k, k < s.srcCtCount ∧ s.ctRead k = none) → exec (.decrypt rd rn) s = .fault .uninit) ∧
        (∀ cs : List Nat, cs.length = s.srcCtCount →
          (∀ k (h : k < cs.length), s.ctRead k = some cs[k]) →
          (let out := cs.flatMap fun c => intToBytes (c ^ (s.src rd).toNat % (s.src rn).toNat)
           (out.length ≤ s.cfg.msgBytes →
             ∃ t, exec (.decrypt rd rn) s = .next t ∧ Ended .none t ∧ t.msgLen.toNat = out.length ∧
               t.ctCount = s.ctCount ∧ t.msgRead 0 out.length = some out ∧
               SameMemBut (MsgRange 0 out.length) s t ∧ SameShell s t ∧ SameRegsBut [] s t ∧
               SameFlags s t ∧ SameSources s t) ∧
           (s.cfg.msgBytes < out.length →
             ∃ t, exec (.decrypt rd rn) s = .next t ∧ Ended .bounds t ∧ SameLengths s t ∧
               (∀ off, off < s.cfg.msgBytes → ∃ b, memRead t.mem (msgAddr off) = some b) ∧
               SameMemBut (MsgRange 0 s.cfg.msgBytes) s t ∧ SameShell s t ∧ SameRegsBut [] s t ∧
               SameFlags s t ∧ t.witAnswers = s.witAnswers)))))

/-- The round trip on blocks (R332, with the lossy case as R313 (b) has it, log 18): for a key pair, deciphering
the enciphered message gives it back exactly when no block loses a byte in the codec. -/
def Obligations.RsaRoundTripExactlyWithoutLossyBlock : Prop :=
  ∀ (p q e d : Nat) (m : List Byte), p.Prime → q.Prime → p ≠ q → 256 ≤ p * q →
    e * d % ((p - 1) * (q - 1)) = 1 →
    (decryptEntries d (p * q) (encryptBytes e (p * q) m) = m ↔
      ∀ blk ∈ splitBlocks (blockSize (p * q)).toNat m, blk.getLast? ≠ some 0 ∨ blk = [0])

/-- The round trip on the machine (R332, R320): after ENCRYPT, DECRYPT with the other exponent returns a message
none of whose blocks ends in a zero byte, from the ciphertext alone: in every idle state with the same parameters,
registers, CT_COUNT and CTMEM entries below it, whatever MSGMEM and MSG_LEN hold there
(spec/95_test_vectors.md P3 overwrites them between the two commands). -/
def Obligations.EncryptThenDecryptReturnsMessage : Prop :=
  ∀ (s : State) (re rd rn : RegNum) (p q e d : Nat) (m : List Byte), Inv s →
    p.Prime → q.Prime → p ≠ q → 256 ≤ p * q → e * d % ((p - 1) * (q - 1)) = 1 →
    s.B rn = ((p * q : Nat) : Int) → s.B re = (e : Int) → s.B rd = (d : Int) →
    s.msgLen.toNat ≤ s.cfg.msgBytes →
    blockCount s.msgLen.toNat (blockSize (p * q)).toNat ≤ s.cfg.ctWords →
    s.msgRead 0 s.msgLen.toNat = some m →
    (∀ blk ∈ splitBlocks (blockSize (p * q)).toNat m, blk.getLast? ≠ some 0) →
    ∃ t, exec (.encrypt re rn) s = .next t ∧ Ended .none t ∧
      ∀ t' : State, t'.cfg = t.cfg → (∀ r, t'.reg r = t.reg r) → t'.ctCount = t.ctCount →
        t'.running = none → (∀ k, k < t.ctCount.toNat → t'.ctRead k = t.ctRead k) →
        ∃ u, exec (.decrypt rd rn) t' = .next u ∧ Ended .none u ∧ u.msgLen = s.msgLen ∧
          u.msgRead 0 s.msgLen.toNat = some m

/-! ### Rules over all commands -/

/-- R35, R413: every command but MOV, ADD, SUB and CMP refuses a negative source with ERR_NEG, before any other
check, and writes nothing. -/
def Obligations.NegativeSourceIsRefused : Prop :=
  ∀ (i : Instr) (s : State), i.wellFormed = true →
    (∀ d a, i ≠ .mov d a) → (∀ d a b, i ≠ .add d a b) → (∀ d a b, i ≠ .sub d a b) →
    (∀ a b, i ≠ .cmp a b) → (∃ r ∈ sourcesOf i, s.src r < 0) →
    EndsWritingNothing .neg s (exec i s)

/-- Errors are precise (spec/60_exceptions.md R410, R414): after a command that ends with a nonzero code every
register, flag and length is as at issue, and so is every memory byte, but MSGMEM after DECRYPT's
output-length ERR_BOUNDS, the one with CT_COUNT at most CT_WORDS (spec/30_encoding.md R146). -/
def Obligations.ErrorsArePrecise : Prop :=
  ∀ (i : Instr) (s t : State), exec i s = .next t → t.running = none → t.err ≠ .none →
    SameShell s t ∧ SameRegsBut [] s t ∧ SameFlags s t ∧ SameLengths s t ∧
    (SameMem s t ∨ ((∃ a b, i = .decrypt a b) ∧ t.err = .bounds ∧
      s.srcCtCount ≤ s.cfg.ctWords ∧ SameMemBut (MsgRange 0 s.cfg.msgBytes) s t))

/-- The state each command writes, and nothing else (spec/10_state.md R33, R39): registers by the table, LT EQ
GT only by CMP, PRIME only by ISPRIME, MSG_LEN only by DECRYPT, CT_COUNT only by ENCRYPT, memory only by I2B
in [off, off + len), by ENCRYPT in entries [0, nb) and by DECRYPT in MSGMEM: in [0, len) where it ends without
error. -/
def Obligations.CommandsWriteOnlyTheirTable : Prop :=
  ∀ (i : Instr) (s t : State), exec i s = .next t →
    SameShell s t ∧ SameRegsBut (destsOf i) s t ∧
    ((∀ a b, i ≠ .cmp a b) → t.flags.lt = s.flags.lt ∧ t.flags.eq = s.flags.eq ∧ t.flags.gt = s.flags.gt) ∧
    ((∀ d a m, i ≠ .isprime d a m) → t.flags.prime = s.flags.prime ∧ t.witAnswers = s.witAnswers) ∧
    ((∀ a b, i ≠ .decrypt a b) → t.msgLen = s.msgLen ∧ t.draws = s.draws) ∧
    ((∀ a b, i ≠ .encrypt a b) → t.ctCount = s.ctCount) ∧
    ((∀ d a b, i ≠ .i2b d a b) → (∀ a b, i ≠ .encrypt a b) → (∀ a b, i ≠ .decrypt a b) → SameMem s t) ∧
    (∀ d a b, i = .i2b d a b →
      SameMemBut (MsgRange (s.src b).toNat (intToBytes (s.src a).toNat).length) s t) ∧
    (∀ a b, i = .encrypt a b →
      SameMemBut (CtRange s.cfg (blockCount s.srcMsgLen (blockSize (s.src b).toNat).toNat)) s t) ∧
    (∀ a b, i = .decrypt a b → SameMemBut (MsgRange 0 s.cfg.msgBytes) s t ∧
      (t.err = .none → ∃ cs, s.ctReadFrom 0 s.srcCtCount = some cs ∧
        SameMemBut (MsgRange 0 (decryptEntries (s.src a).toNat (s.src b).toNat cs).length) s t))

/-- Every command other than ISPRIME completes, and ISPRIME completes or waits (spec/70_reset_and_hazards.md
R484); nothing is refused, and only the three commands that read the buffers can stop with UNINIT
(spec/20_memory.md R100). -/
def Obligations.EveryCommandCompletesOrWaits : Prop :=
  ∀ (i : Instr) (s : State),
    (∃ t, exec i s = .next t ∧
      ((∃ e, Ended e t) ∨ ((∃ d a m, i = .isprime d a m) ∧ s.trialsPassed ≤ t.trialsPassed ∧
        t.answers = [] ∧ (s.busy = true → t.busy = true ∧ t.witReq = true)))) ∨
    (exec i s = .fault .uninit ∧
      ((∃ d a b, i = .b2i d a b) ∨ (∃ a b, i = .encrypt a b) ∨ (∃ a b, i = .decrypt a b)))

/-- A command that writes a register writes a canonical pair: S = 1 exactly when the value is negative
(spec/10_state.md R31, spec/00_scope.md R15). -/
def Obligations.WrittenRegistersAreCanonical : Prop :=
  ∀ (i : Instr) (s t : State) (r : RegNum), exec i s = .next t → s.running ≠ none →
    t.running = none → t.err = .none → r ∈ destsOf i →
    ((t.reg r).sign = true ↔ t.B r < 0) ∧ (t.reg r).mag = (t.B r).natAbs

/-! ### The host bus (spec/20_memory.md, spec/10_state.md) -/

/-- The address map (spec/20_memory.md R95, spec/10_state.md R40, R55): what each offset reaches, and nothing
else is mapped. -/
def Obligations.AddressMapIsTheTable : Prop :=
  ∀ (c : Config) (off : Nat), c.valid →
    (∀ r, locate c off = some (.reg r) ↔ off = ctrlOffset r) ∧
    (∀ i j, locate c off = some (.limb i j) ↔ j < c.limbs ∧ off = 0x00010000 + i.val * 0x1000 + 4 * j) ∧
    (∀ o, locate c off = some (.msg o) ↔ o < c.msgBytes ∧ o % 4 = 0 ∧ off = 0x00100000 + o) ∧
    (∀ k j, locate c off = some (.ct k j) ↔
      k < c.ctWords ∧ j < c.limbs ∧ off = 0x01000000 + k * 0x1000 + 4 * j)

/-- Bus errors (spec/20_memory.md R92, R93, R94): a partial, misaligned, unmapped or busy-locked access, read
or write, gets the error answer and changes nothing else. -/
def Obligations.BadAccessIsBusErrorWithoutEffect : Prop :=
  ∀ (s : State) (addr data : Word) (be : BitVec 4), s.rstN = true →
    (be ≠ 0xF ∨ addr.toNat % 4 ≠ 0 ∨ addr.toNat < s.cfg.base.toNat ∨
      locate s.cfg (addr.toNat - s.cfg.base.toNat) = none ∨
      (s.busy = true ∧ ∃ l, locate s.cfg (addr.toNat - s.cfg.base.toNat) = some l ∧
        l ≠ .reg .id ∧ l ≠ .reg .param ∧ l ≠ .reg .msgcap ∧ l ≠ .reg .ctcap ∧ l ≠ .reg .ctrl ∧
        l ≠ .reg .status ∧ l ≠ .reg .flags ∧ l ≠ .reg .cmd)) →
    busRead addr be s = .next { s with busReply := some .error } ∧
    busWrite addr data be s = .next { s with busReply := some .error }

/-- No read has a side effect (spec/20_memory.md R98): only the answer differs; and a read of a mapped location
answers its word, or is UNINIT for a buffer word with an unwritten byte (R100). -/
def Obligations.ReadsHaveNoSideEffect : Prop :=
  ∀ (s : State) (addr : Word) (be : BitVec 4),
    (∀ t, busRead addr be s = .next t → t = { s with busReply := t.busReply }) ∧
    (∀ l, s.rstN = true → s.target addr be = some l →
      (∀ w, s.readLoc l = some w → busRead addr be s = .next { s with busReply := some (.data w) }) ∧
      (s.readLoc l = none → busRead addr be s = .fault .uninit ∧
        ((∃ off, l = .msg off) ∨ ∃ k j, l = .ct k j)))

/-- The busy lock (spec/20_memory.md R94, spec/30_encoding.md R141 to R143): while a command runs and no soft
reset is written, no host write changes a register, a buffer, a length, a flag, CMD or the running command. -/
def Obligations.HostCannotDisturbRunningCommand : Prop :=
  ∀ (s t : State) (addr data : Word) (be : BitVec 4), s.busy = true →
    busWrite addr data be s = .next t →
    ¬ (s.target addr be = some (.reg .ctrl) ∧ data.getLsbD 1 = true) →
    t.running = s.running ∧ t.regs = s.regs ∧ t.mem = s.mem ∧ SameLengths s t ∧ SameFlags s t ∧
      t.cmd = s.cmd ∧ t.err = s.err ∧ SameSources s t

/-- Limb windows (spec/10_state.md R55, R31): while no command runs a full word read of limb j answers bits
32j+31 to 32j of the magnitude, limb 0 the least significant (spec/20_memory.md R91), and a full word write
replaces those 32 bits and is read back; the bits below and above, every other limb, every sign, every other
register and all other state stay, and the magnitude still fits. That the sign stays 1 when the magnitude becomes 0 follows R55 against the
wording of R31, the model's reading (log 20). -/
def Obligations.LimbWriteReplaces32Bits : Prop :=
  ∀ (s : State) (addr w : Word) (be : BitVec 4) (i : RegNum) (j : Nat), Inv s → s.rstN = true →
    s.busy = false → j < s.cfg.limbs → WordAt s addr be (0x00010000 + i.val * 0x1000 + 4 * j) →
    (∃ d : Word, busRead addr be s = .next { s with busReply := some (.data d) } ∧
      d.toNat = (s.reg i).mag / 2 ^ (32 * j) % 2 ^ 32) ∧
    ∃ t, busWrite addr w be s = .next t ∧ t = { s with regs := t.regs, busReply := some .written } ∧
      busRead addr be t = .next { t with busReply := some (.data w) } ∧
      (t.reg i).mag / 2 ^ (32 * j) % 2 ^ 32 = w.toNat ∧
      (t.reg i).mag % 2 ^ (32 * j) = (s.reg i).mag % 2 ^ (32 * j) ∧
      (t.reg i).mag / 2 ^ (32 * (j + 1)) = (s.reg i).mag / 2 ^ (32 * (j + 1)) ∧
      (t.reg i).mag < 2 ^ s.cfg.W ∧ (t.reg i).sign = (s.reg i).sign ∧
      (∀ j', j' ≠ j → limbOf (t.reg i).mag j' = limbOf (s.reg i).mag j') ∧ SameRegsBut [i] s t

/-- SIGN (spec/10_state.md R51): a full word write while no command runs sets every S[i] to bit i, leaves every
magnitude and all other state, and a read then gives the sixteen signs, the upper bits 0. -/
def Obligations.SignWriteSetsRawSigns : Prop :=
  ∀ (s : State) (addr w : Word) (be : BitVec 4), s.rstN = true → s.busy = false →
    AccessOf s addr be .sign →
    ∃ t, busWrite addr w be s = .next t ∧ t = { s with regs := t.regs, busReply := some .written } ∧
      (∀ r : RegNum, (t.reg r).sign = w.getLsbD r.val ∧ (t.reg r).mag = (s.reg r).mag) ∧
      busRead addr be t = .next { t with busReply := some (.data (w &&& 0xFFFF)) }

/-- Buffer windows (spec/20_memory.md R91, R96, R97): while no command runs a full word read in MSGMEM or CTMEM
answers the four bytes there little-endian, or is UNINIT where nothing has written one of them (R100), and a full
word write stores its four bytes little-endian and is read back; every other byte of memory and all other state
stay. -/
def Obligations.BufferWordReadsBackLittleEndian : Prop :=
  ∀ (s : State) (addr w : Word) (be : BitVec 4) (a : Nat), s.cfg.valid → s.rstN = true →
    s.busy = false → WordAt s addr be a →
    (∃ off, off < s.cfg.msgBytes ∧ off % 4 = 0 ∧ a = 0x00100000 + off) ∨
      (∃ k j, k < s.cfg.ctWords ∧ j < s.cfg.limbs ∧ a = 0x01000000 + k * 0x1000 + 4 * j) →
    (∀ b0 b1 b2 b3 : Byte, memRead s.mem a = some b0 → memRead s.mem (a + 1) = some b1 →
      memRead s.mem (a + 2) = some b2 → memRead s.mem (a + 3) = some b3 →
      ∃ d : Word, busRead addr be s = .next { s with busReply := some (.data d) } ∧
        d.toNat = b0.toNat + b1.toNat * 2 ^ 8 + b2.toNat * 2 ^ 16 + b3.toNat * 2 ^ 24) ∧
    ((∃ i, i < 4 ∧ memRead s.mem (a + i) = none) → busRead addr be s = .fault .uninit) ∧
    ∃ t, busWrite addr w be s = .next t ∧ t = { s with mem := t.mem, busReply := some .written } ∧
      busRead addr be t = .next { t with busReply := some (.data w) } ∧
      (∀ i, i < 4 → memRead t.mem (a + i) = some (BitVec.ofNat 8 (w.toNat / 2 ^ (8 * i)))) ∧
      SameMemBut (fun x => a ≤ x ∧ x < a + 4) s t

/-- The read values of all eleven control registers, field by field: ID, PARAM, MSGCAP, CTCAP (spec/10_state.md
R41 to R43), CTRL (R44), STATUS (R45, R49), FLAGS (R38), CMD (R50), SIGN (R51), MSG_LEN (R52) and CT_COUNT
(R53); and a full word read out of reset answers that value, SIGN, MSG_LEN and CT_COUNT while no command runs. -/
def Obligations.ControlReadsHaveTheirFields : Prop :=
  ∀ s : State, s.cfg.valid →
    s.readReg .id = 0x31415352 ∧
    (s.readReg .param).toNat = s.cfg.W / 32 + 16 * 2 ^ 16 + 1 * 2 ^ 24 ∧
    (s.readReg .msgcap).toNat = s.cfg.msgBytes ∧ (s.readReg .ctcap).toNat = s.cfg.ctWords ∧
    (s.readReg .status).toNat =
      s.busy.toNat + 2 * s.done.toNat + 4 * s.ovr.toNat + 16 * s.err.code ∧ s.err.code ≤ 9 ∧
    (s.readReg .flags).toNat =
      s.flags.lt.toNat + 2 * s.flags.eq.toNat + 4 * s.flags.gt.toNat + 8 * s.flags.prime.toNat ∧
    (s.readReg .ctrl).toNat = s.ie.toNat ∧ s.readReg .cmd = s.cmd ∧
    (s.readReg .sign).toNat = ∑ r : Fin 16, (s.reg r).sign.toNat * 2 ^ r.val ∧
    s.readReg .msgLen = s.msgLen ∧ s.readReg .ctCount = s.ctCount ∧
    (∀ (addr : Word) (be : BitVec 4) (r : CtrlReg), s.rstN = true → AccessOf s addr be r →
      (s.busy = true → r ≠ .sign ∧ r ≠ .msgLen ∧ r ≠ .ctCount) →
      busRead addr be s = .next { s with busReply := some (.data (s.readReg r)) })

/-- Control register writes over the bus (spec/10_state.md R40, R44 to R48, R52, R53), out of reset: read-only
registers ignore them, busy or not; STATUS clears DONE by bit 1 and OVR by bit 2, a 0 leaves them; CTRL sets
IE by bit 0, and after any write with bit 1 set IE = 0; MSG_LEN and CT_COUNT take any word while no command
runs. Each is answered as written and changes nothing else. CMD writes are CmdWriteIssuesAndTakesSnapshot,
IllegalWordCompletesAtOnce and CmdWriteWhileBusyIsDropped; a CTRL write with bit 1 is
SoftResetClearsAllButMemory; a SIGN write is SignWriteSetsRawSigns. -/
def Obligations.ControlWritesFollowTheirFields : Prop :=
  ∀ (s : State) (addr w : Word) (be : BitVec 4), s.rstN = true →
    (∀ r, r = .id ∨ r = .param ∨ r = .msgcap ∨ r = .ctcap ∨ r = .flags → AccessOf s addr be r →
      busWrite addr w be s = .next { s with busReply := some .written }) ∧
    (AccessOf s addr be .status →
      busWrite addr w be s = .next { s with
        done := if w.getLsbD 1 then false else s.done
        ovr := if w.getLsbD 2 then false else s.ovr
        busReply := some .written }) ∧
    (AccessOf s addr be .ctrl →
      (w.getLsbD 1 = false →
        busWrite addr w be s = .next { s with ie := w.getLsbD 0, busReply := some .written }) ∧
      (w.getLsbD 1 = true →
        ∃ t, busWrite addr w be s = .next t ∧ t.ie = false ∧ t.busReply = some .written)) ∧
    (AccessOf s addr be .msgLen → s.busy = false →
      busWrite addr w be s = .next { s with msgLen := w, busReply := some .written }) ∧
    (AccessOf s addr be .ctCount → s.busy = false →
      busWrite addr w be s = .next { s with ctCount := w, busReply := some .written })

/-! ### Reset (spec/70_reset_and_hazards.md) -/

/-- A soft reset (R461, R462, R463): the write completes, busy or not; every register, flag and control field is
0 and no command runs; memory stays, but for the output region of an abandoned command
(spec/30_encoding.md R146; for ENCRYPT and DECRYPT whatever their checks would have said, the model's reading,
log 12). The witness source is outside the core: its ready answers (the model's queue, log 7) stay, and a
captured witness, hidden state of the command (spec/10_state.md R60), does not come back as one. -/
def Obligations.SoftResetClearsAllButMemory : Prop :=
  ∀ (s : State) (addr w : Word) (be : BitVec 4), s.rstN = true →
    AccessOf s addr be .ctrl → w.getLsbD 1 = true →
    ∃ t, busWrite addr w be s = .next t ∧ t.busReply = some .written ∧
      (∀ r, t.reg r = ⟨false, 0⟩) ∧ t.flags = ⟨false, false, false, false⟩ ∧ t.ie = false ∧
      t.statusWord = 0 ∧ t.cmd = 0 ∧ t.msgLen = 0 ∧ t.ctCount = 0 ∧ t.running = none ∧
      t.irq = false ∧ t.witReq = false ∧ t.cfg = s.cfg ∧ t.rstN = true ∧ t.agenda = s.agenda ∧
      t.witAnswers = s.witAnswers ∧ t.answers = s.witAnswers ∧
      (s.running = none → t.mem = s.mem) ∧
      (∀ c i, s.running = some c → decodeWord c.word = .ok i →
        match i with
        | .encrypt _ _ => SameMemBut (CtRange s.cfg s.cfg.ctWords) s t
        | .decrypt _ _ => SameMemBut (MsgRange 0 s.cfg.msgBytes) s t
        | .i2b _ a b =>
          SameMemBut (fun x => 0 ≤ s.src a ∧ 0 ≤ s.src b ∧
            s.src b + (intToBytes (s.src a).toNat).length ≤ s.cfg.msgBytes ∧
            MsgRange (s.src b).toNat (intToBytes (s.src a).toNat).length x) s t
        | _ => t.mem = s.mem)

/-- A hardware reset (R460, R463, R464, spec/10_state.md R82): while rst_n = 0 irq and wit_req are 0 and a bus
access is neither answered nor effective; after release the state is the reset state, whatever it was: a
captured witness is gone with the command. What is outside the core stays: the agenda, the ready answers and the
draw counter, all the model's (logs 3, 7, 9, 13). -/
def Obligations.HardwareResetGivesResetState : Prop :=
  ∀ (s : State) (rest : List Event), s.agenda = .rst false :: .rst true :: rest →
    ∃ u, step s = .next u ∧ u.irq = false ∧ u.witReq = false ∧
      (∀ addr data be, busRead addr be u = .next u ∧ busWrite addr data be u = .next u) ∧
      step u = .next { State.resetWith s.cfg with
        agenda := rest, witAnswers := s.witAnswers, draws := s.draws } ∧
      s.softReset.softReset = s.softReset ∧ s.hardReset.hardReset = s.hardReset

/-! ### The invariant -/

/-- The invariant holds just after a hardware reset, for all parameters in range, and at State.reset. -/
def Obligations.ResetStateSatisfiesInv : Prop :=
  (∀ c : Config, c.valid → Inv (State.resetWith c)) ∧ Inv State.reset

/-- Every step keeps the invariant and the parameters. -/
def Obligations.EveryStepKeepsInv : Prop :=
  ∀ s t : State, Inv s → step s = .next t → Inv t ∧ t.cfg = s.cfg
end

