-- ==== Sys2Proof/Laws/Arith.lean ====
section
/-! SUPPORT. What the arithmetic functions of the units compute: one lemma per function. -/

namespace Sys2Proof.Machine

/-! ### Bit length (spec/00_scope.md R12) -/

theorem lt_two_pow_bitlen (v : Nat) : v < 2 ^ bitlen v := by
  unfold bitlen
  split_ifs with h
  · simp [h]
  · exact Nat.lt_log2_self

theorem bitlen_le {v k : Nat} (h : v < 2 ^ k) : bitlen v ≤ k := by
  unfold bitlen
  split_ifs with h0
  · exact Nat.zero_le _
  · exact (Nat.log2_lt h0).2 h

theorem bitlen_le_iff {v k : Nat} : bitlen v ≤ k ↔ v < 2 ^ k :=
  ⟨fun h => (lt_two_pow_bitlen v).trans_le (Nat.pow_le_pow_right (by omega) h), bitlen_le⟩

theorem bitlen_pos {v : Nat} (h : 0 < v) : 0 < bitlen v := by
  unfold bitlen
  rw [if_neg (by omega)]
  omega

/-- Halving takes one bit off. -/
theorem bitlen_half {v : Nat} (h : 0 < v) : bitlen (v / 2) + 1 = bitlen v := by
  apply le_antisymm
  · have h1 := bitlen_pos h
    have h2 := lt_two_pow_bitlen v
    obtain ⟨k, hk⟩ : ∃ k, bitlen v = k + 1 := ⟨bitlen v - 1, by omega⟩
    rw [hk] at h2 ⊢
    have : v / 2 < 2 ^ k := by rw [pow_succ] at h2; omega
    have := bitlen_le this
    omega
  · apply bitlen_le
    have := lt_two_pow_bitlen (v / 2)
    rw [pow_succ]
    omega

/-! ### Shifts and trailing zeros -/

theorem shiftRight_eq (a n : Nat) : shiftRight a n = a / 2 ^ n := by
  unfold shiftRight
  split_ifs with h
  · exact (Nat.div_eq_of_lt (bitlen_le_iff.1 h)).symm
  · rfl

theorem ctzFuel_spec : ∀ (fuel v : Nat), 0 < v → bitlen v ≤ fuel →
    v % 2 ^ ctzFuel fuel v = 0 ∧ v / 2 ^ ctzFuel fuel v % 2 = 1
  | 0, v, hv, hf => by have := bitlen_pos hv; omega
  | fuel + 1, v, hv, hf => by
    rw [ctzFuel]
    split_ifs with h
    · have hh := bitlen_half hv
      have ih := ctzFuel_spec fuel (v / 2) (by omega) (by omega)
      refine ⟨?_, ?_⟩
      · obtain ⟨c, hc⟩ := Nat.dvd_of_mod_eq_zero ih.1
        refine Nat.mod_eq_zero_of_dvd ⟨c, ?_⟩
        rw [pow_succ, mul_right_comm, ← hc]
        omega
      · rw [pow_succ', ← Nat.div_div_eq_div_mul]
        exact ih.2
    · simp only [pow_zero, Nat.mod_one, Nat.div_one, true_and]
      omega

/-- v is 2^r times an odd number, for r the number of its trailing zeros. -/
theorem trailingZeros_spec {v : Nat} (h : 0 < v) :
    v % 2 ^ trailingZeros v = 0 ∧ v / 2 ^ trailingZeros v % 2 = 1 :=
  ctzFuel_spec _ v h le_rfl

/-! ### Modular exponentiation (spec/41_modexp.md R231) -/

theorem modPowLoop_eq (m : Nat) : ∀ (fuel result base e : Nat), bitlen e ≤ fuel → result % m = result →
    modPowLoop fuel result base e m = result * base ^ e % m
  | 0, result, base, e, hf, hr => by
    have : e = 0 := by
      have := lt_two_pow_bitlen e
      rw [Nat.le_zero.1 hf] at this
      omega
    simp [modPowLoop, this, hr]
  | fuel + 1, result, base, e, hf, hr => by
    rw [modPowLoop]
    split_ifs with h0 h1
    · simp [h0, hr]
    · have hh := bitlen_half (Nat.pos_of_ne_zero h0)
      have he : base ^ e = base * (base * base) ^ (e / 2) := by
        rw [← pow_two, ← pow_mul, ← pow_succ']
        congr 1
        omega
      rw [modPowLoop_eq m fuel _ _ _ (by omega) (Nat.mod_mod _ _)]
      simp only [mmProduct]
      rw [he, ← mul_assoc, Nat.mul_mod, ← Nat.pow_mod, ← Nat.mul_mod, Nat.mul_mod, Nat.mod_mod,
        ← Nat.mul_mod]
    · have hh := bitlen_half (Nat.pos_of_ne_zero h0)
      have he : base ^ e = (base * base) ^ (e / 2) := by
        rw [← pow_two, ← pow_mul]
        congr 1
        omega
      rw [modPowLoop_eq m fuel _ _ _ (by omega) hr]
      simp only [mmProduct]
      rw [he, Nat.mul_mod, ← Nat.pow_mod, ← Nat.mul_mod]

/-- The loop computes the closed form, 0^0 being 1. -/
theorem modPow_eq (base e m : Nat) : modPow base e m = base ^ e % m := by
  rw [modPow, modPowLoop_eq m _ _ _ _ le_rfl (Nat.mod_mod _ _), Nat.mul_mod, Nat.mod_mod,
    ← Nat.pow_mod, ← Nat.mul_mod, one_mul]

/-! ### Extended GCD: the fuel is never exhausted -/

theorem egcdFuel_fuel : ∀ (fuel fuel' a b : Nat), a ≤ fuel → a ≤ fuel' →
    egcdFuel fuel a b = egcdFuel fuel' a b
  | 0, fuel', a, b, h, _ => by
    have : a = 0 := by omega
    subst this
    cases fuel' <;> simp [egcdFuel]
  | fuel + 1, 0, a, b, _, h => by
    have : a = 0 := by omega
    subst this
    simp [egcdFuel]
  | fuel + 1, fuel' + 1, a, b, h, h' => by
    simp only [egcdFuel]
    split_ifs with h0
    · rfl
    · have := Nat.mod_lt b (Nat.pos_of_ne_zero h0)
      rw [egcdFuel_fuel fuel fuel' (b % a) a (by omega) (by omega)]

/-! ### The codec -/

theorem bytesToInt_lt : ∀ bs : List Byte, bytesToInt bs < 256 ^ bs.length
  | [] => by simp [bytesToInt]
  | b :: bs => by
    have := bytesToInt_lt bs
    have := b.isLt
    rw [bytesToInt, List.length_cons, pow_succ]
    omega

/-- The k lowest digits of v are worth v modulo 256^k. -/
theorem bytesToInt_digits256 : ∀ k v : Nat, bytesToInt (digits256 k v) = v % 256 ^ k
  | 0, v => by simp [digits256, bytesToInt, Nat.mod_one]
  | k + 1, v => by
    have h : v % (256 * 256 ^ k) = v % 256 + 256 * (v / 256 % 256 ^ k) := Nat.mod_mul
    rw [digits256, bytesToInt, bytesToInt_digits256 k, pow_succ' 256, h, BitVec.toNat_ofNat,
      show 2 ^ 8 = 256 from rfl, Nat.mod_mod]

/-- Bytes are their own digits. -/
theorem digits256_bytesToInt : ∀ bs : List Byte, digits256 bs.length (bytesToInt bs) = bs
  | [] => rfl
  | b :: bs => by
    have hb := b.isLt
    rw [List.length_cons, digits256, bytesToInt, show (b.toNat + 256 * bytesToInt bs) / 256 =
      bytesToInt bs by omega, digits256_bytesToInt bs]
    congr 1
    rw [show (b.toNat + 256 * bytesToInt bs) % 256 = b.toNat by omega, BitVec.ofNat_toNat]
    simp

/-- The shortest length holds the value. -/
theorem lt_pow_byteLen (v : Nat) : v < 256 ^ byteLen v := by
  have h := lt_two_pow_bitlen v
  refine h.trans_le ?_
  rw [show (256 : Nat) = 2 ^ 8 from rfl, ← pow_mul]
  exact Nat.pow_le_pow_right (by omega) (by unfold byteLen; omega)

end Sys2Proof.Machine
end

