-- ==== Sys2Proof/Laws/Decode.lean ====
section
/-! SUPPORT. What a word of format C holds: its bits, its fields, and its conjunction with a mask. -/

namespace Sys2Proof

/-- Every bit of a format C word by its field (spec/30_encoding.md R131). -/
theorem getLsbD_formatC (op : BitVec 8) (rd rs1 rs2 rs3 : RegNum) (imm : Imm8) (k : Nat) :
    (formatC op rd rs1 rs2 rs3 imm).getLsbD k =
      if k < 8 then op.getLsbD k
      else if k < 12 then (BitVec.ofFin (w := 4) rd).getLsbD (k - 8)
      else if k < 16 then (BitVec.ofFin (w := 4) rs1).getLsbD (k - 12)
      else if k < 20 then (BitVec.ofFin (w := 4) rs2).getLsbD (k - 16)
      else if k < 24 then (BitVec.ofFin (w := 4) rs3).getLsbD (k - 20)
      else imm.getLsbD (k - 24) := by
  unfold formatC
  simp only [BitVec.getLsbD_append]
  split_ifs <;> first | omega | rfl

theorem opcodeOf_formatC (op : BitVec 8) (rd rs1 rs2 rs3 : RegNum) (imm : Imm8) :
    opcodeOf (formatC op rd rs1 rs2 rs3 imm) = op := by
  apply BitVec.eq_of_getLsbD_eq
  intro k hk
  simp [opcodeOf, getLsbD_formatC, hk]

/-- A register field is what its four bits say. -/
theorem regField_eq {w : Word} {lo : Nat} {r : RegNum}
    (h : ∀ k < 4, w.getLsbD (lo + k) = (BitVec.ofFin (w := 4) r).getLsbD k) : regField w lo = r := by
  have : w.extractLsb' lo 4 = BitVec.ofFin (w := 4) r := by
    apply BitVec.eq_of_getLsbD_eq
    intro k hk
    rw [BitVec.getLsbD_extractLsb', h k hk]
    simp [hk]
  rw [regField, this]

theorem immOf_formatC (op : BitVec 8) (rd rs1 rs2 rs3 : RegNum) (imm : Imm8) :
    (formatC op rd rs1 rs2 rs3 imm).extractLsb' 24 8 = imm := by
  apply BitVec.eq_of_getLsbD_eq
  intro k hk
  rw [BitVec.getLsbD_extractLsb', getLsbD_formatC]
  split_ifs <;> first | omega | simp [hk]

theorem fieldsOf_formatC (op : BitVec 8) (rd rs1 rs2 rs3 : RegNum) (imm : Imm8) :
    fieldsOf (formatC op rd rs1 rs2 rs3 imm) = ⟨rd, rs1, rs2, rs3, imm⟩ := by
  unfold fieldsOf
  rw [immOf_formatC, regField_eq (r := rd) (lo := 8), regField_eq (r := rs1) (lo := 12),
    regField_eq (r := rs2) (lo := 16), regField_eq (r := rs3) (lo := 20)] <;>
  · intro k hk
    rw [getLsbD_formatC]
    split_ifs <;> first | omega | (congr 1; omega)

/-- A mask of format C keeps a word's fields apart. -/
theorem formatC_and (op op' : BitVec 8) (rd rs1 rs2 rs3 rd' rs1' rs2' rs3' : RegNum)
    (imm imm' : Imm8) :
    formatC op rd rs1 rs2 rs3 imm &&& formatC op' rd' rs1' rs2' rs3' imm' =
      formatC (op &&& op') (rd &&& rd') (rs1 &&& rs1') (rs2 &&& rs2') (rs3 &&& rs3')
        (imm &&& imm') := by
  have reg (a b : RegNum) : BitVec.ofFin (w := 4) (a &&& b) =
      BitVec.ofFin (w := 4) a &&& BitVec.ofFin (w := 4) b := by
    revert a b; decide
  apply BitVec.eq_of_getLsbD_eq
  intro k _
  simp only [BitVec.getLsbD_and, getLsbD_formatC, reg]
  split_ifs <;> rfl

/-! The masks of the opcode map as words of format C, 0 where a field is an operand. -/

theorem mask_none : (0xFFFFFFFF : Word) = formatC 0xFF 15 15 15 15 0xFF := by decide

theorem mask_rd_rs1 : (0xFFFF00FF : Word) = formatC 0xFF 0 0 15 15 0xFF := by decide

theorem mask_rd_imm : (0x00FFF0FF : Word) = formatC 0xFF 0 15 15 15 0 := by decide

theorem mask_rd_rs1_rs2 : (0xFFF000FF : Word) = formatC 0xFF 0 0 0 15 0xFF := by decide

theorem mask_rs1_rs2 : (0xFFF00FFF : Word) = formatC 0xFF 15 0 0 15 0xFF := by decide

theorem mask_rd_rs1_imm : (0x00FF00FF : Word) = formatC 0xFF 0 0 15 15 0 := by decide

theorem mask_rd_rs1_rs2_rs3 : (0xFF0000FF : Word) = formatC 0xFF 0 0 0 0 0xFF := by decide

theorem reg_and_zero (r : RegNum) : r &&& 0 = 0 := by revert r; decide

theorem imm_and_zero (m : Imm8) : m &&& 0 = 0 := BitVec.and_zero

/-- No two rows of the opcode map share an opcode (spec/30_encoding.md R136). -/
theorem opcodeRows_distinct : opcodeRows.Pairwise fun a b => a.opcode ≠ b.opcode := by decide

/-- Every row's pattern is its opcode and lies under its mask (spec/30_encoding.md R133, R136). -/
theorem opcodeRows_patterns :
    ∀ row ∈ opcodeRows, opcodeOf row.pattern = row.opcode ∧ row.pattern &&& row.mask = row.pattern := by
  decide

end Sys2Proof
end

