-- ==== Sys2Proof/Laws/Memory.lean ====
section
/-! SUPPORT. Memory: what a read gives after a write, and that every operation keeps the canonical form. -/

namespace Sys2Proof.Machine

/-- A read after a write: the written byte at its offset, every other offset as before. -/
theorem memRead_memWrite (m : List Host.Cell) (a x : Nat) (b : Byte) :
    memRead (memWrite m a b) x = if x = a then some b else memRead m x := by
  induction m with
  | nil => simp [memWrite, memRead, eq_comm]
  | cons c rest ih =>
    obtain ⟨k, v⟩ := c
    simp only [memWrite]
    split_ifs <;> simp only [memRead, ih] <;> grind

theorem memRead_memWriteBytes (bs : List Byte) :
    ∀ (m : List Host.Cell) (a x : Nat), memRead (memWriteBytes m a bs) x =
      if a ≤ x ∧ x < a + bs.length then bs[x - a]? else memRead m x := by
  induction bs with
  | nil => intro m a x; rw [if_neg (by simp)]; rfl
  | cons b bs ih =>
    intro m a x
    rw [memWriteBytes, ih, memRead_memWrite, List.length_cons]
    rcases Nat.lt_trichotomy x a with h | rfl | h
    · rw [if_neg (by omega), if_neg (by omega), if_neg (by omega)]
    · rw [if_neg (by omega), if_pos rfl, if_pos (by omega)]; simp
    · obtain ⟨d, rfl⟩ : ∃ d, x = a + d + 1 := ⟨x - a - 1, by omega⟩
      by_cases hd : d < bs.length
      · rw [if_pos (by omega), if_pos (by omega), show a + d + 1 - (a + 1) = d by omega,
          show a + d + 1 - a = d + 1 by omega, List.getElem?_cons_succ]
      · rw [if_neg (by omega), if_neg (by omega), if_neg (by omega)]

/-- Reading back what was written. -/
theorem memReadBytes_eq_some {m : List Host.Cell} (bs : List Byte) :
    ∀ a, (∀ i (h : i < bs.length), memRead m (a + i) = some bs[i]) →
      memReadBytes m a bs.length = some bs := by
  induction bs with
  | nil => intro a _; rfl
  | cons b bs ih =>
    intro a h
    have h0 := h 0 (by simp)
    have ht := ih (a + 1) fun i hi => by
      have := h (i + 1) (by simpa using hi)
      simpa [Nat.add_assoc, Nat.add_comm 1 i] using this
    simp only [List.getElem_cons_zero, Nat.add_zero] at h0
    simp only [List.length_cons, memReadBytes, h0, ht]

theorem memReadBytes_memWriteBytes (m : List Host.Cell) (a : Nat) (bs : List Byte) :
    memReadBytes (memWriteBytes m a bs) a bs.length = some bs := by
  refine memReadBytes_eq_some bs a fun i hi => ?_
  rw [memRead_memWriteBytes, if_pos (by omega), Nat.add_sub_cancel_left, List.getElem?_eq_getElem hi]

theorem length_of_memReadBytes {m : List Host.Cell} :
    ∀ {n a bs}, memReadBytes m a n = some bs → bs.length = n
  | 0, a, bs, h => by cases h; rfl
  | n + 1, a, bs, h => by
    rw [memReadBytes] at h
    split at h
    · cases h
      rename_i hr
      simp [length_of_memReadBytes hr]
    · cases h

/-- A read of bytes depends on those bytes alone. -/
theorem memReadBytes_congr {m m' : List Host.Cell} :
    ∀ {n a}, (∀ x, a ≤ x → x < a + n → memRead m x = memRead m' x) →
      memReadBytes m a n = memReadBytes m' a n
  | 0, _, _ => rfl
  | n + 1, a, h => by
    rw [memReadBytes, memReadBytes, h a (by omega) (by omega),
      memReadBytes_congr (n := n) (a := a + 1) fun x h1 h2 => h x (by omega) (by omega)]

/-! ### The canonical form -/

theorem memWf_cons (c : Host.Cell) (m : List Host.Cell) :
    memWf (c :: m) = true ↔ (∀ d, m.head? = some d → c.1 < d.1) ∧ memWf m = true := by
  cases m <;> simp [memWf]

theorem head_memWrite (m : List Host.Cell) (a : Nat) (b : Byte) (d : Host.Cell)
    (h : (memWrite m a b).head? = some d) : d.1 = a ∨ m.head? = some d := by
  cases m with
  | nil => simp [memWrite] at h; left; rw [← h]
  | cons c rest =>
    obtain ⟨k, v⟩ := c
    simp only [memWrite] at h
    split_ifs at h <;> simp_all <;> (left; rw [← h])

/-- A write keeps the canonical form. -/
theorem memWf_memWrite (m : List Host.Cell) (a : Nat) (b : Byte) (h : memWf m = true) :
    memWf (memWrite m a b) = true := by
  induction m with
  | nil => rfl
  | cons c rest ih =>
    obtain ⟨k, v⟩ := c
    rw [memWf_cons] at h
    simp only [memWrite]
    split_ifs with h1 h2
    · rw [memWf_cons, memWf_cons]
      exact ⟨fun d hd => by simp at hd; rw [← hd]; exact h1, h⟩
    · rw [memWf_cons]
      exact ⟨fun d hd => by have := h.1 d hd; simp only at this ⊢; omega, h.2⟩
    · rw [memWf_cons]
      refine ⟨fun d hd => ?_, ih h.2⟩
      rcases head_memWrite rest a b d hd with e | e
      · simp only; omega
      · exact h.1 d e

theorem memWf_memWriteBytes (bs : List Byte) :
    ∀ (m : List Host.Cell) (a : Nat), memWf m = true → memWf (memWriteBytes m a bs) = true := by
  induction bs with
  | nil => intro m a h; exact h
  | cons b bs ih => intro m a h; exact ih _ _ (memWf_memWrite m a b h)

theorem memWf_ctWriteFrom (w : Nat) (vs : List Nat) :
    ∀ (m : List Host.Cell) (k : Nat), memWf m = true → memWf (ctWriteFrom w m k vs) = true := by
  induction vs with
  | nil => intro m k h; exact h
  | cons v vs ih => intro m k h; exact ih _ _ (memWf_memWriteBytes _ _ _ h)

theorem memWf_scrambleCt : ∀ (n k : Nat) (s : State), memWf s.mem = true →
    memWf (s.scrambleCt k n).mem = true
  | 0, _, _, h => h
  | n + 1, _, _, h => memWf_scrambleCt n _ _ (memWf_memWriteBytes _ _ _ h)

/-- Two memories in canonical form that read alike are equal: equal memories are equal data. -/
theorem memRead_of_lt {m : List Host.Cell} {a : Nat} (h : memWf m = true)
    (ha : ∀ d, m.head? = some d → a < d.1) : memRead m a = none := by
  induction m with
  | nil => rfl
  | cons c rest ih =>
    obtain ⟨k, v⟩ := c
    rw [memWf_cons] at h
    have hk : a < k := ha _ rfl
    rw [memRead, if_neg (by omega)]
    exact ih h.2 fun d hd => Nat.lt_trans hk (h.1 d hd)

theorem mem_ext {m m' : List Host.Cell} (h : memWf m = true) (h' : memWf m' = true)
    (e : ∀ a, memRead m a = memRead m' a) : m = m' := by
  induction m generalizing m' with
  | nil =>
    cases m' with
    | nil => rfl
    | cons c rest => have := e c.1; simp [memRead, unwritten] at this
  | cons c rest ih =>
    obtain ⟨k, v⟩ := c
    cases m' with
    | nil => have := e k; simp [memRead, unwritten] at this
    | cons c' rest' =>
      obtain ⟨k', v'⟩ := c'
      rw [memWf_cons] at h h'
      have hkk : k = k' := by
        rcases Nat.lt_trichotomy k k' with hl | rfl | hl
        · have := e k
          rw [memRead, if_pos rfl, memRead_of_lt ((memWf_cons _ _).2 h')] at this
          · cases this
          · intro d hd; simp at hd; rw [← hd]; exact hl
        · rfl
        · have := e k'
          rw [memRead_of_lt ((memWf_cons _ _).2 h), memRead, if_pos rfl] at this
          · cases this
          · intro d hd; simp at hd; rw [← hd]; exact hl
      subst hkk
      have hv := e k
      rw [memRead, if_pos rfl, memRead, if_pos rfl] at hv
      cases hv
      congr 1
      refine ih h.2 h'.2 fun a => ?_
      have ha := e a
      rw [memRead, memRead] at ha
      split_ifs at ha with hka
      · subst hka
        rw [memRead_of_lt h.2 h.1, memRead_of_lt h'.2 h'.1]
      · exact ha

/-! ### Which offsets a write lists -/

theorem mem_memWrite {m : List Host.Cell} {a : Nat} {b : Byte} {c : Host.Cell}
    (h : c ∈ memWrite m a b) : c = (a, b) ∨ c ∈ m := by
  induction m with
  | nil => left; simpa [memWrite] using h
  | cons d rest ih =>
    obtain ⟨k, v⟩ := d
    simp only [memWrite] at h
    split_ifs at h <;> simp at h ⊢ <;> grind

theorem mem_memWriteBytes {c : Host.Cell} (bs : List Byte) :
    ∀ {m : List Host.Cell} {a : Nat}, c ∈ memWriteBytes m a bs →
      (a ≤ c.1 ∧ c.1 < a + bs.length) ∨ c ∈ m := by
  induction bs with
  | nil => intro m a h; right; exact h
  | cons b bs ih =>
    intro m a h
    rcases ih h with h | h
    · left; rw [List.length_cons]; omega
    · rcases mem_memWrite h with rfl | h
      · left; simp
      · right; exact h

@[simp] theorem length_digits256 : ∀ (k v : Nat), (digits256 k v).length = k
  | 0, _ => rfl
  | k + 1, v => by rw [digits256, List.length_cons, length_digits256]

@[simp] theorem length_freeBytes : ∀ (n i : Nat), (freeBytes i n).length = n
  | 0, _ => rfl
  | n + 1, i => by rw [freeBytes, List.length_cons, length_freeBytes]

/-- Outside the written entries memory reads as before. -/
theorem memRead_ctWriteFrom {w x : Nat} : ∀ (vs : List Nat) (m : List Host.Cell) (k : Nat),
    (∀ j, j < vs.length → ¬ (ctAddr (k + j) ≤ x ∧ x < ctAddr (k + j) + w)) →
    memRead (ctWriteFrom w m k vs) x = memRead m x
  | [], _, _, _ => rfl
  | v :: vs, m, k, h => by
    rw [ctWriteFrom, memRead_ctWriteFrom vs _ (k + 1) fun j hj => by
        rw [show k + 1 + j = k + (j + 1) by omega]
        exact h (j + 1) (by simpa using hj),
      memRead_memWriteBytes, length_digits256, if_neg (by simpa using h 0 (by simp))]

theorem mem_ctWriteFrom {w : Nat} {c : Host.Cell} (vs : List Nat) :
    ∀ {m : List Host.Cell} {k : Nat}, c ∈ ctWriteFrom w m k vs →
      (∃ j, j < vs.length ∧ ctAddr (k + j) ≤ c.1 ∧ c.1 < ctAddr (k + j) + w) ∨ c ∈ m := by
  induction vs with
  | nil => intro m k h; right; exact h
  | cons v vs ih =>
    intro m k h
    rcases ih h with ⟨j, hj, h1, h2⟩ | h
    · refine .inl ⟨j + 1, by simpa using hj, ?_, ?_⟩ <;>
        (rw [show k + (j + 1) = k + 1 + j by omega]; assumption)
    · rcases mem_memWriteBytes _ h with h | h
      · rw [length_digits256] at h
        exact .inl ⟨0, by simp, h.1, h.2⟩
      · exact .inr h

end Sys2Proof.Machine
end

