-- ==== Sys2Proof/Laws/State.lean ====
section
/-! SUPPORT. Every field of the state after every named update, and the register file after a write. -/

namespace Sys2Proof.Machine

/-! ### setReg -/

@[simp] theorem State.setReg_cfg (s : State) (r : RegNum) (v : BigReg) : (s.setReg r v).cfg = s.cfg := rfl
@[simp] theorem State.setReg_regs (s : State) (r : RegNum) (v : BigReg) : (s.setReg r v).regs = s.regs.set r.val v r.isLt := rfl
@[simp] theorem State.setReg_flags (s : State) (r : RegNum) (v : BigReg) : (s.setReg r v).flags = s.flags := rfl
@[simp] theorem State.setReg_ie (s : State) (r : RegNum) (v : BigReg) : (s.setReg r v).ie = s.ie := rfl
@[simp] theorem State.setReg_done (s : State) (r : RegNum) (v : BigReg) : (s.setReg r v).done = s.done := rfl
@[simp] theorem State.setReg_ovr (s : State) (r : RegNum) (v : BigReg) : (s.setReg r v).ovr = s.ovr := rfl
@[simp] theorem State.setReg_err (s : State) (r : RegNum) (v : BigReg) : (s.setReg r v).err = s.err := rfl
@[simp] theorem State.setReg_cmd (s : State) (r : RegNum) (v : BigReg) : (s.setReg r v).cmd = s.cmd := rfl
@[simp] theorem State.setReg_msgLen (s : State) (r : RegNum) (v : BigReg) : (s.setReg r v).msgLen = s.msgLen := rfl
@[simp] theorem State.setReg_ctCount (s : State) (r : RegNum) (v : BigReg) : (s.setReg r v).ctCount = s.ctCount := rfl
@[simp] theorem State.setReg_mem (s : State) (r : RegNum) (v : BigReg) : (s.setReg r v).mem = s.mem := rfl
@[simp] theorem State.setReg_running (s : State) (r : RegNum) (v : BigReg) : (s.setReg r v).running = s.running := rfl
@[simp] theorem State.setReg_rstN (s : State) (r : RegNum) (v : BigReg) : (s.setReg r v).rstN = s.rstN := rfl
@[simp] theorem State.setReg_busReply (s : State) (r : RegNum) (v : BigReg) : (s.setReg r v).busReply = s.busReply := rfl
@[simp] theorem State.setReg_agenda (s : State) (r : RegNum) (v : BigReg) : (s.setReg r v).agenda = s.agenda := rfl
@[simp] theorem State.setReg_witAnswers (s : State) (r : RegNum) (v : BigReg) : (s.setReg r v).witAnswers = s.witAnswers := rfl
@[simp] theorem State.setReg_draws (s : State) (r : RegNum) (v : BigReg) : (s.setReg r v).draws = s.draws := rfl

/-! ### setB -/

@[simp] theorem State.setB_cfg (s : State) (r : RegNum) (v : Int) : (s.setB r v).cfg = s.cfg := rfl
@[simp] theorem State.setB_regs (s : State) (r : RegNum) (v : Int) : (s.setB r v).regs = s.regs.set r.val (BigReg.ofInt v) r.isLt := rfl
@[simp] theorem State.setB_flags (s : State) (r : RegNum) (v : Int) : (s.setB r v).flags = s.flags := rfl
@[simp] theorem State.setB_ie (s : State) (r : RegNum) (v : Int) : (s.setB r v).ie = s.ie := rfl
@[simp] theorem State.setB_done (s : State) (r : RegNum) (v : Int) : (s.setB r v).done = s.done := rfl
@[simp] theorem State.setB_ovr (s : State) (r : RegNum) (v : Int) : (s.setB r v).ovr = s.ovr := rfl
@[simp] theorem State.setB_err (s : State) (r : RegNum) (v : Int) : (s.setB r v).err = s.err := rfl
@[simp] theorem State.setB_cmd (s : State) (r : RegNum) (v : Int) : (s.setB r v).cmd = s.cmd := rfl
@[simp] theorem State.setB_msgLen (s : State) (r : RegNum) (v : Int) : (s.setB r v).msgLen = s.msgLen := rfl
@[simp] theorem State.setB_ctCount (s : State) (r : RegNum) (v : Int) : (s.setB r v).ctCount = s.ctCount := rfl
@[simp] theorem State.setB_mem (s : State) (r : RegNum) (v : Int) : (s.setB r v).mem = s.mem := rfl
@[simp] theorem State.setB_running (s : State) (r : RegNum) (v : Int) : (s.setB r v).running = s.running := rfl
@[simp] theorem State.setB_rstN (s : State) (r : RegNum) (v : Int) : (s.setB r v).rstN = s.rstN := rfl
@[simp] theorem State.setB_busReply (s : State) (r : RegNum) (v : Int) : (s.setB r v).busReply = s.busReply := rfl
@[simp] theorem State.setB_agenda (s : State) (r : RegNum) (v : Int) : (s.setB r v).agenda = s.agenda := rfl
@[simp] theorem State.setB_witAnswers (s : State) (r : RegNum) (v : Int) : (s.setB r v).witAnswers = s.witAnswers := rfl
@[simp] theorem State.setB_draws (s : State) (r : RegNum) (v : Int) : (s.setB r v).draws = s.draws := rfl

/-! ### setCompare -/

@[simp] theorem State.setCompare_cfg (s : State) (a b : Int) : (s.setCompare a b).cfg = s.cfg := rfl
@[simp] theorem State.setCompare_regs (s : State) (a b : Int) : (s.setCompare a b).regs = s.regs := rfl
@[simp] theorem State.setCompare_flags (s : State) (a b : Int) : (s.setCompare a b).flags = compareFlags s.flags a b := rfl
@[simp] theorem State.setCompare_ie (s : State) (a b : Int) : (s.setCompare a b).ie = s.ie := rfl
@[simp] theorem State.setCompare_done (s : State) (a b : Int) : (s.setCompare a b).done = s.done := rfl
@[simp] theorem State.setCompare_ovr (s : State) (a b : Int) : (s.setCompare a b).ovr = s.ovr := rfl
@[simp] theorem State.setCompare_err (s : State) (a b : Int) : (s.setCompare a b).err = s.err := rfl
@[simp] theorem State.setCompare_cmd (s : State) (a b : Int) : (s.setCompare a b).cmd = s.cmd := rfl
@[simp] theorem State.setCompare_msgLen (s : State) (a b : Int) : (s.setCompare a b).msgLen = s.msgLen := rfl
@[simp] theorem State.setCompare_ctCount (s : State) (a b : Int) : (s.setCompare a b).ctCount = s.ctCount := rfl
@[simp] theorem State.setCompare_mem (s : State) (a b : Int) : (s.setCompare a b).mem = s.mem := rfl
@[simp] theorem State.setCompare_running (s : State) (a b : Int) : (s.setCompare a b).running = s.running := rfl
@[simp] theorem State.setCompare_rstN (s : State) (a b : Int) : (s.setCompare a b).rstN = s.rstN := rfl
@[simp] theorem State.setCompare_busReply (s : State) (a b : Int) : (s.setCompare a b).busReply = s.busReply := rfl
@[simp] theorem State.setCompare_agenda (s : State) (a b : Int) : (s.setCompare a b).agenda = s.agenda := rfl
@[simp] theorem State.setCompare_witAnswers (s : State) (a b : Int) : (s.setCompare a b).witAnswers = s.witAnswers := rfl
@[simp] theorem State.setCompare_draws (s : State) (a b : Int) : (s.setCompare a b).draws = s.draws := rfl

/-! ### setPrime -/

@[simp] theorem State.setPrime_cfg (s : State) (p : Bool) : (s.setPrime p).cfg = s.cfg := rfl
@[simp] theorem State.setPrime_regs (s : State) (p : Bool) : (s.setPrime p).regs = s.regs := rfl
@[simp] theorem State.setPrime_flags (s : State) (p : Bool) : (s.setPrime p).flags = ⟨s.flags.lt, s.flags.eq, s.flags.gt, p⟩ := rfl
@[simp] theorem State.setPrime_ie (s : State) (p : Bool) : (s.setPrime p).ie = s.ie := rfl
@[simp] theorem State.setPrime_done (s : State) (p : Bool) : (s.setPrime p).done = s.done := rfl
@[simp] theorem State.setPrime_ovr (s : State) (p : Bool) : (s.setPrime p).ovr = s.ovr := rfl
@[simp] theorem State.setPrime_err (s : State) (p : Bool) : (s.setPrime p).err = s.err := rfl
@[simp] theorem State.setPrime_cmd (s : State) (p : Bool) : (s.setPrime p).cmd = s.cmd := rfl
@[simp] theorem State.setPrime_msgLen (s : State) (p : Bool) : (s.setPrime p).msgLen = s.msgLen := rfl
@[simp] theorem State.setPrime_ctCount (s : State) (p : Bool) : (s.setPrime p).ctCount = s.ctCount := rfl
@[simp] theorem State.setPrime_mem (s : State) (p : Bool) : (s.setPrime p).mem = s.mem := rfl
@[simp] theorem State.setPrime_running (s : State) (p : Bool) : (s.setPrime p).running = s.running := rfl
@[simp] theorem State.setPrime_rstN (s : State) (p : Bool) : (s.setPrime p).rstN = s.rstN := rfl
@[simp] theorem State.setPrime_busReply (s : State) (p : Bool) : (s.setPrime p).busReply = s.busReply := rfl
@[simp] theorem State.setPrime_agenda (s : State) (p : Bool) : (s.setPrime p).agenda = s.agenda := rfl
@[simp] theorem State.setPrime_witAnswers (s : State) (p : Bool) : (s.setPrime p).witAnswers = s.witAnswers := rfl
@[simp] theorem State.setPrime_draws (s : State) (p : Bool) : (s.setPrime p).draws = s.draws := rfl

/-! ### msgWrite -/

@[simp] theorem State.msgWrite_cfg (s : State) (off : Nat) (bs : List Byte) : (s.msgWrite off bs).cfg = s.cfg := rfl
@[simp] theorem State.msgWrite_regs (s : State) (off : Nat) (bs : List Byte) : (s.msgWrite off bs).regs = s.regs := rfl
@[simp] theorem State.msgWrite_flags (s : State) (off : Nat) (bs : List Byte) : (s.msgWrite off bs).flags = s.flags := rfl
@[simp] theorem State.msgWrite_ie (s : State) (off : Nat) (bs : List Byte) : (s.msgWrite off bs).ie = s.ie := rfl
@[simp] theorem State.msgWrite_done (s : State) (off : Nat) (bs : List Byte) : (s.msgWrite off bs).done = s.done := rfl
@[simp] theorem State.msgWrite_ovr (s : State) (off : Nat) (bs : List Byte) : (s.msgWrite off bs).ovr = s.ovr := rfl
@[simp] theorem State.msgWrite_err (s : State) (off : Nat) (bs : List Byte) : (s.msgWrite off bs).err = s.err := rfl
@[simp] theorem State.msgWrite_cmd (s : State) (off : Nat) (bs : List Byte) : (s.msgWrite off bs).cmd = s.cmd := rfl
@[simp] theorem State.msgWrite_msgLen (s : State) (off : Nat) (bs : List Byte) : (s.msgWrite off bs).msgLen = s.msgLen := rfl
@[simp] theorem State.msgWrite_ctCount (s : State) (off : Nat) (bs : List Byte) : (s.msgWrite off bs).ctCount = s.ctCount := rfl
@[simp] theorem State.msgWrite_mem (s : State) (off : Nat) (bs : List Byte) : (s.msgWrite off bs).mem = memWriteBytes s.mem (msgAddr off) bs := rfl
@[simp] theorem State.msgWrite_running (s : State) (off : Nat) (bs : List Byte) : (s.msgWrite off bs).running = s.running := rfl
@[simp] theorem State.msgWrite_rstN (s : State) (off : Nat) (bs : List Byte) : (s.msgWrite off bs).rstN = s.rstN := rfl
@[simp] theorem State.msgWrite_busReply (s : State) (off : Nat) (bs : List Byte) : (s.msgWrite off bs).busReply = s.busReply := rfl
@[simp] theorem State.msgWrite_agenda (s : State) (off : Nat) (bs : List Byte) : (s.msgWrite off bs).agenda = s.agenda := rfl
@[simp] theorem State.msgWrite_witAnswers (s : State) (off : Nat) (bs : List Byte) : (s.msgWrite off bs).witAnswers = s.witAnswers := rfl
@[simp] theorem State.msgWrite_draws (s : State) (off : Nat) (bs : List Byte) : (s.msgWrite off bs).draws = s.draws := rfl

/-! ### ctWrite -/

@[simp] theorem State.ctWrite_cfg (s : State) (k : Nat) (vs : List Nat) : (s.ctWrite k vs).cfg = s.cfg := rfl
@[simp] theorem State.ctWrite_regs (s : State) (k : Nat) (vs : List Nat) : (s.ctWrite k vs).regs = s.regs := rfl
@[simp] theorem State.ctWrite_flags (s : State) (k : Nat) (vs : List Nat) : (s.ctWrite k vs).flags = s.flags := rfl
@[simp] theorem State.ctWrite_ie (s : State) (k : Nat) (vs : List Nat) : (s.ctWrite k vs).ie = s.ie := rfl
@[simp] theorem State.ctWrite_done (s : State) (k : Nat) (vs : List Nat) : (s.ctWrite k vs).done = s.done := rfl
@[simp] theorem State.ctWrite_ovr (s : State) (k : Nat) (vs : List Nat) : (s.ctWrite k vs).ovr = s.ovr := rfl
@[simp] theorem State.ctWrite_err (s : State) (k : Nat) (vs : List Nat) : (s.ctWrite k vs).err = s.err := rfl
@[simp] theorem State.ctWrite_cmd (s : State) (k : Nat) (vs : List Nat) : (s.ctWrite k vs).cmd = s.cmd := rfl
@[simp] theorem State.ctWrite_msgLen (s : State) (k : Nat) (vs : List Nat) : (s.ctWrite k vs).msgLen = s.msgLen := rfl
@[simp] theorem State.ctWrite_ctCount (s : State) (k : Nat) (vs : List Nat) : (s.ctWrite k vs).ctCount = s.ctCount := rfl
@[simp] theorem State.ctWrite_mem (s : State) (k : Nat) (vs : List Nat) : (s.ctWrite k vs).mem = ctWriteFrom (entryBytes s.cfg) s.mem k vs := rfl
@[simp] theorem State.ctWrite_running (s : State) (k : Nat) (vs : List Nat) : (s.ctWrite k vs).running = s.running := rfl
@[simp] theorem State.ctWrite_rstN (s : State) (k : Nat) (vs : List Nat) : (s.ctWrite k vs).rstN = s.rstN := rfl
@[simp] theorem State.ctWrite_busReply (s : State) (k : Nat) (vs : List Nat) : (s.ctWrite k vs).busReply = s.busReply := rfl
@[simp] theorem State.ctWrite_agenda (s : State) (k : Nat) (vs : List Nat) : (s.ctWrite k vs).agenda = s.agenda := rfl
@[simp] theorem State.ctWrite_witAnswers (s : State) (k : Nat) (vs : List Nat) : (s.ctWrite k vs).witAnswers = s.witAnswers := rfl
@[simp] theorem State.ctWrite_draws (s : State) (k : Nat) (vs : List Nat) : (s.ctWrite k vs).draws = s.draws := rfl

/-! ### setMsgLen -/

@[simp] theorem State.setMsgLen_cfg (s : State) (n : Word) : (s.setMsgLen n).cfg = s.cfg := rfl
@[simp] theorem State.setMsgLen_regs (s : State) (n : Word) : (s.setMsgLen n).regs = s.regs := rfl
@[simp] theorem State.setMsgLen_flags (s : State) (n : Word) : (s.setMsgLen n).flags = s.flags := rfl
@[simp] theorem State.setMsgLen_ie (s : State) (n : Word) : (s.setMsgLen n).ie = s.ie := rfl
@[simp] theorem State.setMsgLen_done (s : State) (n : Word) : (s.setMsgLen n).done = s.done := rfl
@[simp] theorem State.setMsgLen_ovr (s : State) (n : Word) : (s.setMsgLen n).ovr = s.ovr := rfl
@[simp] theorem State.setMsgLen_err (s : State) (n : Word) : (s.setMsgLen n).err = s.err := rfl
@[simp] theorem State.setMsgLen_cmd (s : State) (n : Word) : (s.setMsgLen n).cmd = s.cmd := rfl
@[simp] theorem State.setMsgLen_msgLen (s : State) (n : Word) : (s.setMsgLen n).msgLen = n := rfl
@[simp] theorem State.setMsgLen_ctCount (s : State) (n : Word) : (s.setMsgLen n).ctCount = s.ctCount := rfl
@[simp] theorem State.setMsgLen_mem (s : State) (n : Word) : (s.setMsgLen n).mem = s.mem := rfl
@[simp] theorem State.setMsgLen_running (s : State) (n : Word) : (s.setMsgLen n).running = s.running := rfl
@[simp] theorem State.setMsgLen_rstN (s : State) (n : Word) : (s.setMsgLen n).rstN = s.rstN := rfl
@[simp] theorem State.setMsgLen_busReply (s : State) (n : Word) : (s.setMsgLen n).busReply = s.busReply := rfl
@[simp] theorem State.setMsgLen_agenda (s : State) (n : Word) : (s.setMsgLen n).agenda = s.agenda := rfl
@[simp] theorem State.setMsgLen_witAnswers (s : State) (n : Word) : (s.setMsgLen n).witAnswers = s.witAnswers := rfl
@[simp] theorem State.setMsgLen_draws (s : State) (n : Word) : (s.setMsgLen n).draws = s.draws := rfl

/-! ### setCtCount -/

@[simp] theorem State.setCtCount_cfg (s : State) (n : Word) : (s.setCtCount n).cfg = s.cfg := rfl
@[simp] theorem State.setCtCount_regs (s : State) (n : Word) : (s.setCtCount n).regs = s.regs := rfl
@[simp] theorem State.setCtCount_flags (s : State) (n : Word) : (s.setCtCount n).flags = s.flags := rfl
@[simp] theorem State.setCtCount_ie (s : State) (n : Word) : (s.setCtCount n).ie = s.ie := rfl
@[simp] theorem State.setCtCount_done (s : State) (n : Word) : (s.setCtCount n).done = s.done := rfl
@[simp] theorem State.setCtCount_ovr (s : State) (n : Word) : (s.setCtCount n).ovr = s.ovr := rfl
@[simp] theorem State.setCtCount_err (s : State) (n : Word) : (s.setCtCount n).err = s.err := rfl
@[simp] theorem State.setCtCount_cmd (s : State) (n : Word) : (s.setCtCount n).cmd = s.cmd := rfl
@[simp] theorem State.setCtCount_msgLen (s : State) (n : Word) : (s.setCtCount n).msgLen = s.msgLen := rfl
@[simp] theorem State.setCtCount_ctCount (s : State) (n : Word) : (s.setCtCount n).ctCount = n := rfl
@[simp] theorem State.setCtCount_mem (s : State) (n : Word) : (s.setCtCount n).mem = s.mem := rfl
@[simp] theorem State.setCtCount_running (s : State) (n : Word) : (s.setCtCount n).running = s.running := rfl
@[simp] theorem State.setCtCount_rstN (s : State) (n : Word) : (s.setCtCount n).rstN = s.rstN := rfl
@[simp] theorem State.setCtCount_busReply (s : State) (n : Word) : (s.setCtCount n).busReply = s.busReply := rfl
@[simp] theorem State.setCtCount_agenda (s : State) (n : Word) : (s.setCtCount n).agenda = s.agenda := rfl
@[simp] theorem State.setCtCount_witAnswers (s : State) (n : Word) : (s.setCtCount n).witAnswers = s.witAnswers := rfl
@[simp] theorem State.setCtCount_draws (s : State) (n : Word) : (s.setCtCount n).draws = s.draws := rfl

/-! ### scrambleMsg -/

@[simp] theorem State.scrambleMsg_cfg (s : State) (off n : Nat) : (s.scrambleMsg off n).cfg = s.cfg := rfl
@[simp] theorem State.scrambleMsg_regs (s : State) (off n : Nat) : (s.scrambleMsg off n).regs = s.regs := rfl
@[simp] theorem State.scrambleMsg_flags (s : State) (off n : Nat) : (s.scrambleMsg off n).flags = s.flags := rfl
@[simp] theorem State.scrambleMsg_ie (s : State) (off n : Nat) : (s.scrambleMsg off n).ie = s.ie := rfl
@[simp] theorem State.scrambleMsg_done (s : State) (off n : Nat) : (s.scrambleMsg off n).done = s.done := rfl
@[simp] theorem State.scrambleMsg_ovr (s : State) (off n : Nat) : (s.scrambleMsg off n).ovr = s.ovr := rfl
@[simp] theorem State.scrambleMsg_err (s : State) (off n : Nat) : (s.scrambleMsg off n).err = s.err := rfl
@[simp] theorem State.scrambleMsg_cmd (s : State) (off n : Nat) : (s.scrambleMsg off n).cmd = s.cmd := rfl
@[simp] theorem State.scrambleMsg_msgLen (s : State) (off n : Nat) : (s.scrambleMsg off n).msgLen = s.msgLen := rfl
@[simp] theorem State.scrambleMsg_ctCount (s : State) (off n : Nat) : (s.scrambleMsg off n).ctCount = s.ctCount := rfl
@[simp] theorem State.scrambleMsg_mem (s : State) (off n : Nat) : (s.scrambleMsg off n).mem = memWriteBytes s.mem (msgAddr off) (freeBytes s.draws n) := rfl
@[simp] theorem State.scrambleMsg_running (s : State) (off n : Nat) : (s.scrambleMsg off n).running = s.running := rfl
@[simp] theorem State.scrambleMsg_rstN (s : State) (off n : Nat) : (s.scrambleMsg off n).rstN = s.rstN := rfl
@[simp] theorem State.scrambleMsg_busReply (s : State) (off n : Nat) : (s.scrambleMsg off n).busReply = s.busReply := rfl
@[simp] theorem State.scrambleMsg_agenda (s : State) (off n : Nat) : (s.scrambleMsg off n).agenda = s.agenda := rfl
@[simp] theorem State.scrambleMsg_witAnswers (s : State) (off n : Nat) : (s.scrambleMsg off n).witAnswers = s.witAnswers := rfl
@[simp] theorem State.scrambleMsg_draws (s : State) (off n : Nat) : (s.scrambleMsg off n).draws = s.draws + n := rfl

/-! ### setAnswers -/

@[simp] theorem State.setAnswers_cfg (s : State) (ws : List Nat) : (s.setAnswers ws).cfg = s.cfg := rfl
@[simp] theorem State.setAnswers_regs (s : State) (ws : List Nat) : (s.setAnswers ws).regs = s.regs := rfl
@[simp] theorem State.setAnswers_flags (s : State) (ws : List Nat) : (s.setAnswers ws).flags = s.flags := rfl
@[simp] theorem State.setAnswers_ie (s : State) (ws : List Nat) : (s.setAnswers ws).ie = s.ie := rfl
@[simp] theorem State.setAnswers_done (s : State) (ws : List Nat) : (s.setAnswers ws).done = s.done := rfl
@[simp] theorem State.setAnswers_ovr (s : State) (ws : List Nat) : (s.setAnswers ws).ovr = s.ovr := rfl
@[simp] theorem State.setAnswers_err (s : State) (ws : List Nat) : (s.setAnswers ws).err = s.err := rfl
@[simp] theorem State.setAnswers_cmd (s : State) (ws : List Nat) : (s.setAnswers ws).cmd = s.cmd := rfl
@[simp] theorem State.setAnswers_msgLen (s : State) (ws : List Nat) : (s.setAnswers ws).msgLen = s.msgLen := rfl
@[simp] theorem State.setAnswers_ctCount (s : State) (ws : List Nat) : (s.setAnswers ws).ctCount = s.ctCount := rfl
@[simp] theorem State.setAnswers_mem (s : State) (ws : List Nat) : (s.setAnswers ws).mem = s.mem := rfl
@[simp] theorem State.setAnswers_running (s : State) (ws : List Nat) : (s.setAnswers ws).running = s.running := rfl
@[simp] theorem State.setAnswers_rstN (s : State) (ws : List Nat) : (s.setAnswers ws).rstN = s.rstN := rfl
@[simp] theorem State.setAnswers_busReply (s : State) (ws : List Nat) : (s.setAnswers ws).busReply = s.busReply := rfl
@[simp] theorem State.setAnswers_agenda (s : State) (ws : List Nat) : (s.setAnswers ws).agenda = s.agenda := rfl
@[simp] theorem State.setAnswers_witAnswers (s : State) (ws : List Nat) : (s.setAnswers ws).witAnswers = ws := rfl
@[simp] theorem State.setAnswers_draws (s : State) (ws : List Nat) : (s.setAnswers ws).draws = s.draws := rfl

/-! ### await -/

@[simp] theorem State.await_cfg (s : State) (n : Nat) : (s.await n).cfg = s.cfg := rfl
@[simp] theorem State.await_regs (s : State) (n : Nat) : (s.await n).regs = s.regs := rfl
@[simp] theorem State.await_flags (s : State) (n : Nat) : (s.await n).flags = s.flags := rfl
@[simp] theorem State.await_ie (s : State) (n : Nat) : (s.await n).ie = s.ie := rfl
@[simp] theorem State.await_done (s : State) (n : Nat) : (s.await n).done = s.done := rfl
@[simp] theorem State.await_ovr (s : State) (n : Nat) : (s.await n).ovr = s.ovr := rfl
@[simp] theorem State.await_err (s : State) (n : Nat) : (s.await n).err = s.err := rfl
@[simp] theorem State.await_cmd (s : State) (n : Nat) : (s.await n).cmd = s.cmd := rfl
@[simp] theorem State.await_msgLen (s : State) (n : Nat) : (s.await n).msgLen = s.msgLen := rfl
@[simp] theorem State.await_ctCount (s : State) (n : Nat) : (s.await n).ctCount = s.ctCount := rfl
@[simp] theorem State.await_mem (s : State) (n : Nat) : (s.await n).mem = s.mem := rfl
@[simp] theorem State.await_running (s : State) (n : Nat) : (s.await n).running = s.running.map fun c => ⟨c.word, c.snap, c.trials + n, true, none⟩ := rfl
@[simp] theorem State.await_rstN (s : State) (n : Nat) : (s.await n).rstN = s.rstN := rfl
@[simp] theorem State.await_busReply (s : State) (n : Nat) : (s.await n).busReply = s.busReply := rfl
@[simp] theorem State.await_agenda (s : State) (n : Nat) : (s.await n).agenda = s.agenda := rfl
@[simp] theorem State.await_witAnswers (s : State) (n : Nat) : (s.await n).witAnswers = [] := rfl
@[simp] theorem State.await_draws (s : State) (n : Nat) : (s.await n).draws = s.draws := rfl

/-! ### complete -/

@[simp] theorem State.complete_cfg (s : State) (e : ErrCode) : (s.complete e).cfg = s.cfg := rfl
@[simp] theorem State.complete_regs (s : State) (e : ErrCode) : (s.complete e).regs = s.regs := rfl
@[simp] theorem State.complete_flags (s : State) (e : ErrCode) : (s.complete e).flags = s.flags := rfl
@[simp] theorem State.complete_ie (s : State) (e : ErrCode) : (s.complete e).ie = s.ie := rfl
@[simp] theorem State.complete_done (s : State) (e : ErrCode) : (s.complete e).done = true := rfl
@[simp] theorem State.complete_ovr (s : State) (e : ErrCode) : (s.complete e).ovr = s.ovr := rfl
@[simp] theorem State.complete_err (s : State) (e : ErrCode) : (s.complete e).err = e := rfl
@[simp] theorem State.complete_cmd (s : State) (e : ErrCode) : (s.complete e).cmd = s.cmd := rfl
@[simp] theorem State.complete_msgLen (s : State) (e : ErrCode) : (s.complete e).msgLen = s.msgLen := rfl
@[simp] theorem State.complete_ctCount (s : State) (e : ErrCode) : (s.complete e).ctCount = s.ctCount := rfl
@[simp] theorem State.complete_mem (s : State) (e : ErrCode) : (s.complete e).mem = s.mem := rfl
@[simp] theorem State.complete_running (s : State) (e : ErrCode) : (s.complete e).running = none := rfl
@[simp] theorem State.complete_rstN (s : State) (e : ErrCode) : (s.complete e).rstN = s.rstN := rfl
@[simp] theorem State.complete_busReply (s : State) (e : ErrCode) : (s.complete e).busReply = s.busReply := rfl
@[simp] theorem State.complete_agenda (s : State) (e : ErrCode) : (s.complete e).agenda = s.agenda := rfl
@[simp] theorem State.complete_witAnswers (s : State) (e : ErrCode) : (s.complete e).witAnswers = s.witAnswers := rfl
@[simp] theorem State.complete_draws (s : State) (e : ErrCode) : (s.complete e).draws = s.draws := rfl

/-! ### acknowledge -/

@[simp] theorem State.acknowledge_cfg (s : State) (w : Word) : (s.acknowledge w).cfg = s.cfg := rfl
@[simp] theorem State.acknowledge_regs (s : State) (w : Word) : (s.acknowledge w).regs = s.regs := rfl
@[simp] theorem State.acknowledge_flags (s : State) (w : Word) : (s.acknowledge w).flags = s.flags := rfl
@[simp] theorem State.acknowledge_ie (s : State) (w : Word) : (s.acknowledge w).ie = s.ie := rfl
@[simp] theorem State.acknowledge_done (s : State) (w : Word) : (s.acknowledge w).done = (s.done && !w.getLsbD 1) := rfl
@[simp] theorem State.acknowledge_ovr (s : State) (w : Word) : (s.acknowledge w).ovr = (s.ovr && !w.getLsbD 2) := rfl
@[simp] theorem State.acknowledge_err (s : State) (w : Word) : (s.acknowledge w).err = s.err := rfl
@[simp] theorem State.acknowledge_cmd (s : State) (w : Word) : (s.acknowledge w).cmd = s.cmd := rfl
@[simp] theorem State.acknowledge_msgLen (s : State) (w : Word) : (s.acknowledge w).msgLen = s.msgLen := rfl
@[simp] theorem State.acknowledge_ctCount (s : State) (w : Word) : (s.acknowledge w).ctCount = s.ctCount := rfl
@[simp] theorem State.acknowledge_mem (s : State) (w : Word) : (s.acknowledge w).mem = s.mem := rfl
@[simp] theorem State.acknowledge_running (s : State) (w : Word) : (s.acknowledge w).running = s.running := rfl
@[simp] theorem State.acknowledge_rstN (s : State) (w : Word) : (s.acknowledge w).rstN = s.rstN := rfl
@[simp] theorem State.acknowledge_busReply (s : State) (w : Word) : (s.acknowledge w).busReply = s.busReply := rfl
@[simp] theorem State.acknowledge_agenda (s : State) (w : Word) : (s.acknowledge w).agenda = s.agenda := rfl
@[simp] theorem State.acknowledge_witAnswers (s : State) (w : Word) : (s.acknowledge w).witAnswers = s.witAnswers := rfl
@[simp] theorem State.acknowledge_draws (s : State) (w : Word) : (s.acknowledge w).draws = s.draws := rfl

/-! ### The register file -/

theorem State.reg_setReg (s : State) (r r' : RegNum) (v : BigReg) :
    (s.setReg r v).reg r' = if r' = r then v else s.reg r' := by
  simp only [State.reg, State.setReg, Vector.get_eq_getElem, Vector.getElem_set, Fin.ext_iff,
    eq_comm (a := r.val)]

@[simp] theorem State.reg_setB (s : State) (r r' : RegNum) (v : Int) :
    (s.setB r v).reg r' = if r' = r then BigReg.ofInt v else s.reg r' := s.reg_setReg r r' _

@[simp] theorem State.reg_setCompare (s : State) (a b : Int) (r : RegNum) : (s.setCompare a b).reg r = s.reg r := rfl
@[simp] theorem State.reg_setPrime (s : State) (p : Bool) (r : RegNum) : (s.setPrime p).reg r = s.reg r := rfl
@[simp] theorem State.reg_msgWrite (s : State) (off : Nat) (bs : List Byte) (r : RegNum) : (s.msgWrite off bs).reg r = s.reg r := rfl
@[simp] theorem State.reg_ctWrite (s : State) (k : Nat) (vs : List Nat) (r : RegNum) : (s.ctWrite k vs).reg r = s.reg r := rfl
@[simp] theorem State.reg_setMsgLen (s : State) (n : Word) (r : RegNum) : (s.setMsgLen n).reg r = s.reg r := rfl
@[simp] theorem State.reg_setCtCount (s : State) (n : Word) (r : RegNum) : (s.setCtCount n).reg r = s.reg r := rfl
@[simp] theorem State.reg_scrambleMsg (s : State) (off n : Nat) (r : RegNum) : (s.scrambleMsg off n).reg r = s.reg r := rfl
@[simp] theorem State.reg_setAnswers (s : State) (ws : List Nat) (r : RegNum) : (s.setAnswers ws).reg r = s.reg r := rfl
@[simp] theorem State.reg_await (s : State) (n : Nat) (r : RegNum) : (s.await n).reg r = s.reg r := rfl
@[simp] theorem State.reg_complete (s : State) (e : ErrCode) (r : RegNum) : (s.complete e).reg r = s.reg r := rfl
@[simp] theorem State.reg_acknowledge (s : State) (w : Word) (r : RegNum) : (s.acknowledge w).reg r = s.reg r := rfl

@[simp] theorem BigReg.value_ofInt (v : Int) : (BigReg.ofInt v).value = v := by
  simp only [BigReg.value, BigReg.ofInt, decide_eq_true_eq]
  split_ifs <;> omega

@[simp] theorem BigReg.mag_ofInt (v : Int) : (BigReg.ofInt v).mag = v.natAbs := rfl

@[simp] theorem BigReg.sign_ofInt (v : Int) : (BigReg.ofInt v).sign = decide (v < 0) := rfl

@[simp] theorem State.B_setB (s : State) (r r' : RegNum) (v : Int) :
    (s.setB r v).B r' = if r' = r then v else s.B r' := by
  simp only [State.B, State.reg_setB]
  split_ifs <;> simp

theorem BigReg.natAbs_value (r : BigReg) : r.value.natAbs = r.mag := by
  simp only [BigReg.value]
  split_ifs <;> omega

end Sys2Proof.Machine
end

