-- ==== Sys2Proof/Laws/Ops.lean ====
section
/-! SUPPORT. Everything each shared operation can do: the ways a command ends, its operands, issue, the bus,
the core's turn and the step. -/

namespace Sys2Proof.Machine

/-! ### Outcomes -/

theorem next_inj {s t : State} : (Host.Outcome.next s : Result) = .next t ↔ s = t :=
  ⟨fun h => by cases h; rfl, fun h => by rw [h]⟩

/-! ### The frame, as an order: nothing changed since s -/

theorem SameShell.refl (s : State) : SameShell s s := ⟨rfl, rfl, rfl, rfl, rfl, rfl, rfl⟩

theorem SameRegsBut.refl (ds : List RegNum) (s : State) : SameRegsBut ds s s := fun _ _ => rfl

theorem SameMem.refl (s : State) : SameMem s s := fun _ => rfl

theorem SameMem.but {s t : State} (h : SameMem s t) (p : Nat → Prop) : SameMemBut p s t :=
  fun a _ => h a

/-- Equal register files are equal registers. -/
theorem SameRegsBut.of_regs {s t : State} (ds : List RegNum) (h : t.regs = s.regs) :
    SameRegsBut ds s t := fun r _ => by rw [State.reg, State.reg, h]

/-! ### Completion -/

theorem Ended.complete (s : State) (e : ErrCode) : Ended e (s.complete e) := ⟨rfl, rfl, rfl⟩

theorem SameShell.complete (s : State) (e : ErrCode) : SameShell s (s.complete e) :=
  ⟨rfl, rfl, rfl, rfl, rfl, rfl, rfl⟩

/-- A raised error ends the command with its code and nothing else (spec/60_exceptions.md R410). -/
theorem endsWritingNothing_raise (s : State) (e : ErrCode) : EndsWritingNothing e s (s.raise e) :=
  ⟨_, rfl, .complete s e, .complete s e, fun _ _ => rfl, fun _ => rfl, rfl, ⟨rfl, rfl⟩, ⟨rfl, rfl⟩⟩

/-- A completion without a write is the same with code 0. -/
theorem endsWritingNothing_commit (s : State) : EndsWritingNothing .none s s.commit :=
  endsWritingNothing_raise s .none

/-- A register write and a completion (spec/30_encoding.md R145). -/
theorem endsWritingReg_commit (s : State) (d : RegNum) (v : Int) :
    EndsWritingReg d v s (s.setB d v).commit := by
  refine ⟨_, rfl, ⟨rfl, rfl, rfl⟩, ?_, ?_, ⟨rfl, rfl, rfl, rfl, rfl, rfl, rfl⟩, ?_, fun _ => rfl, rfl,
    ⟨rfl, rfl⟩, ⟨rfl, rfl⟩⟩
  · rw [State.reg_complete, State.reg_setB, if_pos rfl]; rfl
  · rw [State.reg_complete, State.reg_setB, if_pos rfl]; rfl
  · intro r hr
    rw [State.reg_complete, State.reg_setB, if_neg (by simpa using hr)]

/-- A verdict of ISPRIME (spec/43_primality.md R281). -/
theorem endsWithVerdict_verdict (s : State) (d : RegNum) (p : Bool) (rest : List Nat) :
    EndsWithVerdict d p rest s ((s.setAnswers rest).verdict d p) := by
  refine ⟨_, rfl, ⟨rfl, rfl, rfl⟩, ?_, ?_, rfl, rfl, rfl, rfl, ⟨rfl, rfl, rfl, rfl, rfl, rfl, rfl⟩, ?_,
    fun _ => rfl, ⟨rfl, rfl⟩, rfl, rfl⟩
  · show (((s.setAnswers rest).setB d (if p then 1 else 0)).reg d).sign = false
    rw [State.reg_setB, if_pos rfl]
    cases p <;> rfl
  · show (((s.setAnswers rest).setB d (if p then 1 else 0)).reg d).mag = _
    rw [State.reg_setB, if_pos rfl]
    cases p <;> rfl
  · intro r hr
    show ((s.setAnswers rest).setB d (if p then 1 else 0)).reg r = _
    rw [State.reg_setB, if_neg (by simpa using hr)]
    rfl

/-! ### Operands -/

theorem natSrc_neg {s : State} {r : RegNum} (h : s.src r < 0) (go : Nat → Result) :
    s.natSrc r go = s.raise .neg := if_pos h

theorem natSrc_nonneg {s : State} {r : RegNum} (h : 0 ≤ s.src r) (go : Nat → Result) :
    s.natSrc r go = go (s.src r).toNat := if_neg (not_lt.2 h)

/-- All a checked source can do: ERR_NEG, or the command goes on with its value. -/
theorem natSrc_cases (s : State) (r : RegNum) (go : Nat → Result) :
    (s.src r < 0 ∧ s.natSrc r go = s.raise .neg) ∨
      ∃ n : Nat, s.src r = n ∧ s.natSrc r go = go n := by
  rcases lt_or_ge (s.src r) 0 with h | h
  · exact .inl ⟨h, natSrc_neg h go⟩
  · exact .inr ⟨(s.src r).toNat, (Int.toNat_of_nonneg h).symm, natSrc_nonneg h go⟩

/-- What a table of a function's values gives: the function's value, listed or not. -/
theorem lookup_table (f : RegNum → Int) (r : RegNum) : ∀ rs : List RegNum,
    ((rs.map fun x => (x, f x)).lookup r).getD (f r) = f r
  | [] => rfl
  | x :: rs => by
    simp only [List.map_cons, List.lookup_cons]
    rcases eq_or_ne r x with rfl | h
    · simp
    · rw [beq_false_of_ne h]
      exact lookup_table f r rs

/-- A running command whose snapshot is the one of this state reads the registers as they are. -/
theorem src_of_snapshot {s : State} {c : Running} (i : Instr) (h : s.running = some c)
    (hs : c.snap = s.snapshotFor i) (r : RegNum) : s.src r = s.B r := by
  simp only [State.src, h, hs, State.snapshotFor]
  exact lookup_table s.B r _

theorem src_idle {s : State} (h : s.running = none) (r : RegNum) : s.src r = s.B r := by
  rw [State.src, h]

/-! ### Checked results -/

theorem writeChecked_overflow {s : State} {v : Int} (h : 2 ^ s.cfg.W ≤ v.natAbs) (d : RegNum) :
    s.writeChecked d v = s.raise .overflow := by
  rw [State.writeChecked, State.overflows, decide_eq_true h, if_pos rfl]

theorem writeChecked_fits {s : State} {v : Int} (h : v.natAbs < 2 ^ s.cfg.W) (d : RegNum) :
    s.writeChecked d v = (s.setB d v).commit := by
  rw [State.writeChecked, State.overflows, decide_eq_false (not_le.2 h), if_neg Bool.false_ne_true]

/-- All a checked result can do (spec/10_state.md R34). -/
theorem writeChecked_cases (s : State) (d : RegNum) (v : Int) :
    (2 ^ s.cfg.W ≤ v.natAbs ∧ s.writeChecked d v = s.raise .overflow) ∨
      (v.natAbs < 2 ^ s.cfg.W ∧ s.writeChecked d v = (s.setB d v).commit) :=
  (le_or_gt _ _).imp (fun h => ⟨h, writeChecked_overflow h d⟩) fun h => ⟨h, writeChecked_fits h d⟩

/-- A left shift is a checked product with the power of 2, however large the amount
(spec/45_compare_shift.md R351). -/
theorem shiftLeftInto_eq (s : State) (d : RegNum) (a n : Nat) :
    s.shiftLeftInto d a n = s.writeChecked d ((a * 2 ^ n : Nat) : Int) := by
  rw [State.shiftLeftInto]
  split_ifs with h0 hn
  · rw [h0, zero_mul, writeChecked_fits (by simp)]
    rfl
  · rw [writeChecked_overflow]
    rw [Int.natAbs_natCast]
    exact (Nat.pow_le_pow_right (by omega) hn).trans (Nat.le_mul_of_pos_left _ (Nat.pos_of_ne_zero h0))
  · rfl

/-! ### Answers -/

/-- With no command running only the source's answers are left. -/
theorem answers_idle {s : State} (h : s.running = none) : s.answers = s.witAnswers := by
  simp only [State.answers, h]

/-- The captured witness is the first answer (spec/10_state.md R85, R86). -/
theorem answers_running {s : State} {c : Running} (h : s.running = some c) :
    s.answers = c.captured.toList ++ s.witAnswers := by
  simp only [State.answers, h]

/-- A command that waits has no answer left. -/
theorem answers_await (s : State) (n : Nat) : (s.await n).answers = [] := by
  unfold State.answers State.await
  cases s.running <;> rfl

/-- All a presented value can do: nothing with no request open, else it is captured into the running command
and wit_req falls (spec/10_state.md R85). -/
theorem witnessArrives_cases (w : Nat) (s : State) :
    (s.witReq = false ∧ witnessArrives w s = s) ∨
      ∃ c, s.running = some c ∧ c.witReq = true ∧ witnessArrives w s =
        { s with running := some { c with witReq := false, captured := some w } } := by
  unfold State.witReq witnessArrives
  cases s.running with
  | none => exact .inl ⟨rfl, rfl⟩
  | some c =>
    cases h : c.witReq with
    | false => exact .inl ⟨h, by simp [h]⟩
    | true => exact .inr ⟨c, rfl, h, by simp [h]⟩

/-! ### Trials -/

/-- All a run of trials can do with the answers ready (spec/43_primality.md R280, R283, R284): good are the
answers that pass, in order. -/
theorem runTrials_cases (W n : Nat) : ∀ (k : Nat) (ws : List Nat), ∃ good rest, ws = good ++ rest ∧
    (∀ w ∈ good, 2 ≤ w % 2 ^ W ∧ w % 2 ^ W ≤ n - 2 ∧ trialPasses n (w % 2 ^ W) = true) ∧
    ((good.length = k ∧ runTrials W n k ws = .verdict true rest) ∨
      (good.length < k ∧ rest = [] ∧ runTrials W n k ws = .waiting good.length) ∨
      (good.length < k ∧ ∃ w tail, rest = w :: tail ∧
        (((w % 2 ^ W < 2 ∨ n - 2 < w % 2 ^ W) ∧ runTrials W n k ws = .badWitness tail) ∨
          (2 ≤ w % 2 ^ W ∧ w % 2 ^ W ≤ n - 2 ∧ trialPasses n (w % 2 ^ W) = false ∧
            runTrials W n k ws = .verdict false tail))))
  | 0, ws => ⟨[], ws, rfl, by simp, .inl ⟨rfl, by rw [runTrials]⟩⟩
  | k + 1, [] => ⟨[], [], rfl, by simp, .inr (.inl ⟨by simp, rfl, by rw [runTrials]; rfl⟩)⟩
  | k + 1, w :: ws => by
    by_cases hr : w % 2 ^ W < 2 ∨ w % 2 ^ W > n - 2
    · exact ⟨[], w :: ws, rfl, by simp, .inr (.inr ⟨by simp, w, ws, rfl, .inl ⟨hr, by
        simp only [runTrials, if_pos hr]⟩⟩)⟩
    · by_cases hp : trialPasses n (w % 2 ^ W) = true
      · obtain ⟨good, rest, rfl, hg, h⟩ := runTrials_cases W n k ws
        have hw : ∀ x ∈ w :: good, 2 ≤ x % 2 ^ W ∧ x % 2 ^ W ≤ n - 2 ∧
            trialPasses n (x % 2 ^ W) = true := by
          intro x hx
          rcases List.mem_cons.1 hx with rfl | hx
          · exact ⟨by omega, by omega, hp⟩
          · exact hg x hx
        refine ⟨w :: good, rest, rfl, hw, ?_⟩
        simp only [runTrials, if_neg hr, if_pos hp, List.length_cons]
        rcases h with ⟨hl, e⟩ | ⟨hl, e', e⟩ | ⟨hl, v, tail, e', h⟩
        · exact .inl ⟨by omega, by rw [e]⟩
        · exact .inr (.inl ⟨by omega, e', by rw [e]⟩)
        · refine .inr (.inr ⟨by omega, v, tail, e', ?_⟩)
          rcases h with ⟨h, e⟩ | ⟨h1, h2, h3, e⟩
          · exact .inl ⟨h, by rw [e]⟩
          · exact .inr ⟨h1, h2, h3, by rw [e]⟩
      · have hf : trialPasses n (w % 2 ^ W) = false := by simpa using hp
        exact ⟨[], w :: ws, rfl, by simp, .inr (.inr ⟨by simp, w, ws, rfl, .inr ⟨by omega, by omega, hf,
          by simp only [runTrials, if_neg hr, hf, Bool.false_eq_true, if_false]⟩⟩)⟩

/-! ### Free bytes -/

/-- Scrambling entries changes the memory and the counter alone. -/
theorem scrambleCt_eq : ∀ (n k : Nat) (s : State),
    s.scrambleCt k n = { s with mem := (s.scrambleCt k n).mem, draws := (s.scrambleCt k n).draws }
  | 0, _, _ => rfl
  | n + 1, k, s => by
    rw [State.scrambleCt]
    exact scrambleCt_eq n (k + 1) _

/-- Outside the scrambled entries memory reads as before. -/
theorem memRead_scrambleCt : ∀ (n k : Nat) (s : State) (x : Nat),
    (∀ j, k ≤ j → j < k + n → ¬ (ctAddr j ≤ x ∧ x < ctAddr j + entryBytes s.cfg)) →
    memRead (s.scrambleCt k n).mem x = memRead s.mem x
  | 0, _, _, _, _ => rfl
  | n + 1, k, s, x, h => by
    rw [State.scrambleCt]
    generalize hs : ({ s with mem := _, draws := _ } : State) = s'
    have hc : s'.cfg = s.cfg := by rw [← hs]
    rw [memRead_scrambleCt n (k + 1) s' x fun j h1 h2 => hc ▸ h j (by omega) (by omega), ← hs]
    dsimp only
    rw [memRead_memWriteBytes, if_neg (by rw [length_freeBytes]; exact h k le_rfl (by omega))]

/-- Scrambling lists no offset outside the scrambled entries. -/
theorem mem_scrambleCt {c : Host.Cell} : ∀ (n k : Nat) (s : State), c ∈ (s.scrambleCt k n).mem →
    (∃ j, k ≤ j ∧ j < k + n ∧ ctAddr j ≤ c.1 ∧ c.1 < ctAddr j + entryBytes s.cfg) ∨ c ∈ s.mem
  | 0, _, _, h => .inr h
  | n + 1, k, s, h => by
    rcases mem_scrambleCt n (k + 1) _ h with ⟨j, h1, h2, h3, h4⟩ | h
    · exact .inl ⟨j, by omega, by omega, h3, h4⟩
    · rcases mem_memWriteBytes _ h with h | h
      · rw [length_freeBytes] at h
        exact .inl ⟨k, le_rfl, by omega, h.1, h.2⟩
      · exact .inr h

/-! ### Issue and abandonment -/

/-- Issue of a legal word (spec/30_encoding.md R141). -/
theorem issue_legal {w : Word} {i : Instr} (s : State) (h : decodeWord w = .ok i) :
    s.issue w = { s with
      cmd := w
      err := .none
      done := false
      running := some { word := w, snap := s.snapshotFor i, trials := 0, witReq := false, captured := none } } := by
  simp only [State.issue, h]

/-- Issue of an illegal word (spec/30_encoding.md R137, R141). -/
theorem issue_illegal {w : Word} {e : DecodeError} (s : State) (h : decodeWord w = .error e) :
    s.issue w = { s with cmd := w, err := .illegal, done := true, running := none } := by
  simp only [State.issue, h]
  rfl

/-- What an abandoned command's decoding says of memory: it changes memory and the draw counter alone. -/
theorem abandon_eq (s : State) :
    s.abandon = { s with mem := s.abandon.mem, draws := s.abandon.draws } := by
  unfold State.abandon
  split
  · rfl
  · split
    · exact scrambleCt_eq _ _ _
    · rfl
    · dsimp only
      split_ifs <;> rfl
    · rfl

theorem abandon_idle {s : State} (h : s.running = none) : s.abandon = s := by
  simp only [State.abandon, h]

/-! ### The bus -/

/-- Where an access that is not refused goes (spec/20_memory.md R92 to R94). -/
theorem target_eq_some {s : State} {addr : Word} {be : BitVec 4} {l : Loc}
    (h : s.target addr be = some l) :
    be = 0xF ∧ addr.toNat % 4 = 0 ∧ s.cfg.base.toNat ≤ addr.toNat ∧
      locate s.cfg (addr.toNat - s.cfg.base.toNat) = some l ∧ (s.busy = true → l.busyLocked = false) := by
  rw [State.target] at h
  split_ifs at h with h0
  push Not at h0
  cases hl : locate s.cfg (addr.toNat - s.cfg.base.toNat) with
  | none => simp [hl] at h
  | some l' =>
    simp only [hl] at h
    split_ifs at h with hb
    cases h
    refine ⟨h0.1, h0.2.1, by omega, rfl, fun hbusy => ?_⟩
    simpa [hbusy] using hb

/-- A full aligned word at a mapped offset reaches its location, if the busy lock lets it (spec/20_memory.md
R92 to R95). -/
theorem target_wordAt {s : State} {addr : Word} {be : BitVec 4} {off : Nat} {l : Loc}
    (h : WordAt s addr be off) (hl : locate s.cfg off = some l)
    (hb : s.busy = true → l.busyLocked = false) : s.target addr be = some l := by
  obtain ⟨hbe, h4, ha⟩ := h
  rw [State.target, if_neg (by rw [hbe]; simp only [ne_eq, not_true_eq_false, false_or]; omega), ha,
    Nat.add_sub_cancel_left]
  simp only [hl]
  rw [if_neg]
  cases hbusy : s.busy with
  | false => simp
  | true => simp [hb hbusy]

/-- A busy-locked location is reached only while nothing runs (spec/20_memory.md R94). -/
theorem idle_of_target {s : State} {addr : Word} {be : BitVec 4} {l : Loc}
    (h : s.target addr be = some l) (hl : l.busyLocked = true) : s.running = none := by
  have hb := (target_eq_some h).2.2.2.2
  cases hr : s.running with
  | none => rfl
  | some c =>
    have := hb (by simp [State.busy, hr])
    rw [hl] at this
    cases this

theorem busRead_inReset {s : State} (h : s.rstN = false) (addr : Word) (be : BitVec 4) :
    busRead addr be s = .next (s.reply none) := by
  simp [busRead, h]

theorem busRead_refused {s : State} {addr : Word} {be : BitVec 4} (h : s.rstN = true)
    (ht : s.target addr be = none) : busRead addr be s = .next (s.reply (some .error)) := by
  simp only [busRead, if_pos h, ht]

theorem busRead_data {s : State} {addr : Word} {be : BitVec 4} {l : Loc} {w : Word} (h : s.rstN = true)
    (ht : s.target addr be = some l) (hw : s.readLoc l = some w) :
    busRead addr be s = .next (s.reply (some (.data w))) := by
  simp only [busRead, if_pos h, ht, hw]

theorem busRead_uninit {s : State} {addr : Word} {be : BitVec 4} {l : Loc} (h : s.rstN = true)
    (ht : s.target addr be = some l) (hw : s.readLoc l = none) :
    busRead addr be s = .fault .uninit := by
  simp only [busRead, if_pos h, ht, hw]

theorem busWrite_inReset {s : State} (h : s.rstN = false) (addr data : Word) (be : BitVec 4) :
    busWrite addr data be s = .next (s.reply none) := by
  simp [busWrite, h]

theorem busWrite_refused {s : State} {addr : Word} {be : BitVec 4} (h : s.rstN = true)
    (ht : s.target addr be = none) (data : Word) :
    busWrite addr data be s = .next (s.reply (some .error)) := by
  simp only [busWrite, if_pos h, ht]

theorem busWrite_written {s : State} {addr : Word} {be : BitVec 4} {l : Loc} (h : s.rstN = true)
    (ht : s.target addr be = some l) (data : Word) :
    busWrite addr data be s = .next ((s.writeLoc data l).reply (some .written)) := by
  simp only [busWrite, if_pos h, ht]

/-- All a bus read can do when it goes on: the answer alone changes (spec/20_memory.md R98). -/
theorem busRead_next {s t : State} {addr : Word} {be : BitVec 4} (h : busRead addr be s = .next t) :
    ∃ r, t = s.reply r := by
  unfold busRead at h
  split at h
  · split at h
    · cases h; exact ⟨_, rfl⟩
    · split at h <;> cases h
      exact ⟨_, rfl⟩
  · cases h; exact ⟨_, rfl⟩

/-- All a bus write can do when it goes on. -/
theorem busWrite_next {s t : State} {addr data : Word} {be : BitVec 4}
    (h : busWrite addr data be s = .next t) :
    (∃ r, t = s.reply r) ∨
      (s.rstN = true ∧ ∃ l, s.target addr be = some l ∧ t = (s.writeLoc data l).reply (some .written)) := by
  unfold busWrite at h
  split at h
  · rename_i hr
    split at h
    · cases h; exact .inl ⟨_, rfl⟩
    · rename_i l hl
      cases h; exact .inr ⟨hr, l, hl, rfl⟩
  · cases h; exact .inl ⟨_, rfl⟩

/-! ### Turns and steps -/

theorem coreTurn_idle {s : State} (h : s.running = none) : coreTurn s = .next s := by
  simp only [coreTurn, h]

theorem coreTurn_running {s : State} {c : Running} {i : Instr} (h : s.running = some c)
    (hd : decodeWord c.word = .ok i) : coreTurn s = exec i s := by
  simp only [coreTurn, h, hd]

theorem coreTurn_undecodable {s : State} {c : Running} {e : DecodeError} (h : s.running = some c)
    (hd : decodeWord c.word = .error e) : coreTurn s = s.raise .illegal := by
  simp only [coreTurn, h, hd]

theorem step_empty {s : State} (h : s.agenda = []) : step s = coreTurn s := by
  simp only [step, nextMove, h]

theorem step_cons {s : State} {e : Event} {rest : List Event} (h : s.agenda = e :: rest) :
    step s = handle e { s with agenda := rest } := by
  simp only [step, nextMove, h]

/-- All a step can be: the core's turn with no move left, or one move of the agenda. -/
theorem step_cases (s : State) :
    (s.agenda = [] ∧ step s = coreTurn s) ∨
      ∃ e rest, s.agenda = e :: rest ∧ step s = handle e { s with agenda := rest } := by
  cases h : s.agenda with
  | nil => exact .inl ⟨rfl, step_empty h⟩
  | cons e rest => exact .inr ⟨e, rest, rfl, step_cons h⟩

/-! ### The word of a command as a number (spec/30_encoding.md R136) -/

theorem formatC_toNat (op : BitVec 8) (rd rs1 rs2 rs3 : RegNum) (imm : Imm8) :
    (formatC op rd rs1 rs2 rs3 imm).toNat = op.toNat + rd.val * 2 ^ 8 + rs1.val * 2 ^ 12 +
      rs2.val * 2 ^ 16 + rs3.val * 2 ^ 20 + imm.toNat * 2 ^ 24 := by
  have happ {n m : Nat} (x : BitVec n) (y : BitVec m) :
      (x ++ y).toNat = x.toNat * 2 ^ m + y.toNat := by
    rw [BitVec.toNat_append, ← Nat.shiftLeft_add_eq_or_of_lt y.isLt, Nat.shiftLeft_eq]
  simp only [formatC, happ, BitVec.toNat_ofFin]
  ring

/-! ### The invariant -/

/-- An idle state out of reset satisfies the invariant on its data alone. -/
theorem Inv.of_idle {s : State} (hc : s.cfg.valid) (hm : ∀ r, (s.reg r).mag < 2 ^ s.cfg.W)
    (hw : Machine.memWf s.mem = true) (hi : ∀ c ∈ s.mem, inBuffers s.cfg c.1 = true)
    (hf : ¬ (s.flags.lt = true ∧ s.flags.eq = true) ∧ ¬ (s.flags.lt = true ∧ s.flags.gt = true) ∧
      ¬ (s.flags.eq = true ∧ s.flags.gt = true))
    (hr : s.running = none) (hn : s.rstN = true) : Inv s where
  cfg := hc
  mags := hm
  memWf := hw
  memIn := hi
  busyDone h := absurd hr h
  busyErr h := absurd hr h
  flags := hf
  running c h := by rw [hr] at h; cases h
  inReset h := by rw [hn] at h; cases h

end Sys2Proof.Machine
end

