-- ==== Sys2Proof/Laws/PerInstr.lean ====
section
/-! SUPPORT. The family Encoding, one lemma per command: its encoded word lies in a row of the opcode map
that builds it back, reserved bits 0 (spec/30_encoding.md R133, R136). -/

namespace Sys2Proof.Laws.Encoding

/-- The word of a command is in a row of the opcode map: the row's opcode, its reserved bits 0, and its
fields build the command. -/
def Statement (i : Instr) : Prop :=
  ∃ row ∈ opcodeRows, row.opcode = opcodeOf (encode i) ∧ encode i &&& row.mask = row.pattern ∧
    row.build (fieldsOf (encode i)) = i

/-- The row at index n of the map proves the statement of a command, given the mask as a format C word. -/
theorem of_row {i : Instr} {row : OpcodeRow} (n : Nat) (hn : opcodeRows[n]? = some row)
    (op mop : BitVec 8) (rd rs1 rs2 rs3 m1 m2 m3 m4 : RegNum) (imm mi : Imm8)
    (he : encode i = formatC op rd rs1 rs2 rs3 imm) (ho : row.opcode = op)
    (hmask : row.mask = formatC mop m1 m2 m3 m4 mi)
    (hm : formatC (op &&& mop) (rd &&& m1) (rs1 &&& m2) (rs2 &&& m3) (rs3 &&& m4) (imm &&& mi) =
      row.pattern)
    (hb : row.build ⟨rd, rs1, rs2, rs3, imm⟩ = i) : Statement i :=
  ⟨row, List.mem_of_getElem? hn, by rw [he, opcodeOf_formatC, ho], by rw [he, hmask, formatC_and, hm],
    by rw [he, fieldsOf_formatC, hb]⟩

theorem nop : Statement .nop :=
  of_row 0 rfl 0x1 0xFF _ _ _ _ _ _ _ _ _ _ rfl rfl mask_none (by decide) rfl

theorem mov (rd rs1 : RegNum) : Statement (.mov rd rs1) :=
  of_row 1 rfl 0x2 0xFF _ _ _ _ _ _ _ _ _ _ rfl rfl mask_rd_rs1
    (by simp only [reg_and_zero]; decide) rfl

theorem ldi (rd : RegNum) (imm : Imm8) : Statement (.ldi rd imm) :=
  of_row 2 rfl 0x3 0xFF _ _ _ _ _ _ _ _ _ _ rfl rfl mask_rd_imm
    (by simp only [reg_and_zero, imm_and_zero]; decide) rfl

theorem add (rd rs1 rs2 : RegNum) : Statement (.add rd rs1 rs2) :=
  of_row 3 rfl 0x4 0xFF _ _ _ _ _ _ _ _ _ _ rfl rfl mask_rd_rs1_rs2
    (by simp only [reg_and_zero]; decide) rfl

theorem sub (rd rs1 rs2 : RegNum) : Statement (.sub rd rs1 rs2) :=
  of_row 4 rfl 0x5 0xFF _ _ _ _ _ _ _ _ _ _ rfl rfl mask_rd_rs1_rs2
    (by simp only [reg_and_zero]; decide) rfl

theorem cmp (rs1 rs2 : RegNum) : Statement (.cmp rs1 rs2) :=
  of_row 5 rfl 0x10 0xFF _ _ _ _ _ _ _ _ _ _ rfl rfl mask_rs1_rs2
    (by simp only [reg_and_zero]; decide) rfl

theorem shl (rd rs1 rs2 : RegNum) : Statement (.shl rd rs1 rs2) :=
  of_row 6 rfl 0x11 0xFF _ _ _ _ _ _ _ _ _ _ rfl rfl mask_rd_rs1_rs2
    (by simp only [reg_and_zero]; decide) rfl

theorem shr (rd rs1 rs2 : RegNum) : Statement (.shr rd rs1 rs2) :=
  of_row 7 rfl 0x12 0xFF _ _ _ _ _ _ _ _ _ _ rfl rfl mask_rd_rs1_rs2
    (by simp only [reg_and_zero]; decide) rfl

theorem shli (rd rs1 : RegNum) (imm : Imm8) : Statement (.shli rd rs1 imm) :=
  of_row 8 rfl 0x13 0xFF _ _ _ _ _ _ _ _ _ _ rfl rfl mask_rd_rs1_imm
    (by simp only [reg_and_zero, imm_and_zero]; decide) rfl

theorem shri (rd rs1 : RegNum) (imm : Imm8) : Statement (.shri rd rs1 imm) :=
  of_row 9 rfl 0x14 0xFF _ _ _ _ _ _ _ _ _ _ rfl rfl mask_rd_rs1_imm
    (by simp only [reg_and_zero, imm_and_zero]; decide) rfl

theorem bitlen (rd rs1 : RegNum) : Statement (.bitlen rd rs1) :=
  of_row 10 rfl 0x15 0xFF _ _ _ _ _ _ _ _ _ _ rfl rfl mask_rd_rs1
    (by simp only [reg_and_zero]; decide) rfl

theorem ctz (rd rs1 : RegNum) : Statement (.ctz rd rs1) :=
  of_row 11 rfl 0x16 0xFF _ _ _ _ _ _ _ _ _ _ rfl rfl mask_rd_rs1
    (by simp only [reg_and_zero]; decide) rfl

theorem mul (rd rs1 rs2 : RegNum) : Statement (.mul rd rs1 rs2) :=
  of_row 12 rfl 0x20 0xFF _ _ _ _ _ _ _ _ _ _ rfl rfl mask_rd_rs1_rs2
    (by simp only [reg_and_zero]; decide) rfl

theorem modmul (rd rs1 rs2 rs3 : RegNum) : Statement (.modmul rd rs1 rs2 rs3) :=
  of_row 13 rfl 0x21 0xFF _ _ _ _ _ _ _ _ _ _ rfl rfl mask_rd_rs1_rs2_rs3
    (by simp only [reg_and_zero]; decide) rfl

theorem mod (rd rs1 rs2 : RegNum) : Statement (.mod rd rs1 rs2) :=
  of_row 14 rfl 0x22 0xFF _ _ _ _ _ _ _ _ _ _ rfl rfl mask_rd_rs1_rs2
    (by simp only [reg_and_zero]; decide) rfl

theorem modpow (rd rs1 rs2 rs3 : RegNum) : Statement (.modpow rd rs1 rs2 rs3) :=
  of_row 15 rfl 0x30 0xFF _ _ _ _ _ _ _ _ _ _ rfl rfl mask_rd_rs1_rs2_rs3
    (by simp only [reg_and_zero]; decide) rfl

theorem egcd (rd rs1 rs2 : RegNum) : Statement (.egcd rd rs1 rs2) :=
  of_row 16 rfl 0x40 0xFF _ _ _ _ _ _ _ _ _ _ rfl rfl mask_rd_rs1_rs2
    (by simp only [reg_and_zero]; decide) rfl

theorem gcd (rd rs1 rs2 : RegNum) : Statement (.gcd rd rs1 rs2) :=
  of_row 17 rfl 0x41 0xFF _ _ _ _ _ _ _ _ _ _ rfl rfl mask_rd_rs1_rs2
    (by simp only [reg_and_zero]; decide) rfl

theorem modinv (rd rs1 rs2 : RegNum) : Statement (.modinv rd rs1 rs2) :=
  of_row 18 rfl 0x42 0xFF _ _ _ _ _ _ _ _ _ _ rfl rfl mask_rd_rs1_rs2
    (by simp only [reg_and_zero]; decide) rfl

theorem isprime (rd rs1 : RegNum) (imm : Imm8) : Statement (.isprime rd rs1 imm) :=
  of_row 19 rfl 0x50 0xFF _ _ _ _ _ _ _ _ _ _ rfl rfl mask_rd_rs1_imm
    (by simp only [reg_and_zero, imm_and_zero]; decide) rfl

theorem b2i (rd rs1 rs2 : RegNum) : Statement (.b2i rd rs1 rs2) :=
  of_row 20 rfl 0x60 0xFF _ _ _ _ _ _ _ _ _ _ rfl rfl mask_rd_rs1_rs2
    (by simp only [reg_and_zero]; decide) rfl

theorem i2b (rd rs1 rs2 : RegNum) : Statement (.i2b rd rs1 rs2) :=
  of_row 21 rfl 0x61 0xFF _ _ _ _ _ _ _ _ _ _ rfl rfl mask_rd_rs1_rs2
    (by simp only [reg_and_zero]; decide) rfl

theorem encrypt (rs1 rs2 : RegNum) : Statement (.encrypt rs1 rs2) :=
  of_row 22 rfl 0x62 0xFF _ _ _ _ _ _ _ _ _ _ rfl rfl mask_rs1_rs2
    (by simp only [reg_and_zero]; decide) rfl

theorem decrypt (rs1 rs2 : RegNum) : Statement (.decrypt rs1 rs2) :=
  of_row 23 rfl 0x63 0xFF _ _ _ _ _ _ _ _ _ _ rfl rfl mask_rs1_rs2
    (by simp only [reg_and_zero]; decide) rfl

end Sys2Proof.Laws.Encoding
end

