-- ==== Sys2Proof/Tests/Slice0.lean ====
section
/-! SUPPORT. Tests, with expected values from spec/95_test_vectors.md and the examples of
spec/40_multiplier.md to spec/46_support.md, and for each statement a witness that meets its hypotheses. -/

namespace Sys2Proof.Tests

open Sys2Proof.Machine

-- The theorems one after another: each kernel evaluation would hold a thread and its stack.
set_option Elab.async false

/-! ### Helpers -/

/-- The step goes on to a state with this property. -/
def nextSatisfies (o : Result) (p : State → Bool) : Bool :=
  match o with
  | .next t => p t
  | _ => false

/-- The reset state with registers set. -/
def withRegs (l : List (RegNum × Int)) : State := l.foldl (fun s p => s.setB p.1 p.2) State.reset

/-- The step that runs a command word on a state. -/
def runOn (s : State) (w : Nat) : Result := step (s.withFetchWord 32 w)

/-- The step that runs a command word on the reset state with registers set. -/
def run (l : List (RegNum × Int)) (w : Nat) : Result := runOn (withRegs l) w

/-- The command ends without error and register r holds v. -/
def gives (r : RegNum) (v : Int) (o : Result) : Bool :=
  nextSatisfies o fun t => t.statusWord == 0x2 && t.B r == v

/-- The command ends with this STATUS and the registers, flags, lengths and memory are those of s. -/
def refuses (status : Word) (s : State) (o : Result) : Bool :=
  nextSatisfies o fun t => t.statusWord == status && t.regs == s.regs && t.flags == s.flags &&
    t.mem == s.mem && t.msgLen == s.msgLen && t.ctCount == s.ctCount

/-- The step stops with UNINIT. -/
def isUninit (o : Result) : Bool :=
  match o with
  | .fault .uninit => true
  | _ => false

/-- A full word access at an offset. -/
def write (a d : Word) : Event := .busWrite a d 0xF

/-- The answer of a read at an offset, on a state. -/
def readAt (s : State) (a : Word) : Option BusReply :=
  match busRead a 0xF s with
  | .next t => t.busReply
  | _ => none

/-! ### Well-formedness: the one check of spec/30_encoding.md R134, at its edge -/

theorem test_wellFormed_refuses_egcd_14 : (Instr.egcd 14 1 2).wellFormed = false := by decide

theorem test_wellFormed_admits_egcd_13 : (Instr.egcd 13 1 2).wellFormed = true := by decide

/-! ### Decoding: words of the spec, DC1 to DC18 and the examples of each rule -/

theorem test_decode_su :
    decodeWord 0x00000001 = .ok (.nop) ∧
    decodeWord 0x00005702 = .ok (.mov 7 5) ∧
    decodeWord 0x11000103 = .ok (.ldi 1 17) ∧
    decodeWord 0x00025604 = .ok (.add 6 5 2) ∧
    decodeWord 0x00001205 = .ok (.sub 2 1 0) := by decide

theorem test_decode_cs :
    decodeWord 0x00021010 = .ok (.cmp 1 2) ∧
    decodeWord 0x00021311 = .ok (.shl 3 1 2) ∧
    decodeWord 0x00021312 = .ok (.shr 3 1 2) ∧
    decodeWord 0x10001213 = .ok (.shli 2 1 16) ∧
    decodeWord 0x01001214 = .ok (.shri 2 1 1) ∧
    decodeWord 0x00001215 = .ok (.bitlen 2 1) ∧
    decodeWord 0x00001216 = .ok (.ctz 2 1) := by decide

theorem test_decode_mm_mx :
    decodeWord 0x00021320 = .ok (.mul 3 1 2) ∧
    decodeWord 0x00321421 = .ok (.modmul 4 1 2 3) ∧
    decodeWord 0x00021322 = .ok (.mod 3 1 2) ∧
    decodeWord 0x00210330 = .ok (.modpow 3 0 1 2) := by decide

theorem test_decode_eg_mr :
    decodeWord 0x00021440 = .ok (.egcd 4 1 2) ∧
    decodeWord 0x00021341 = .ok (.gcd 3 1 2) ∧
    decodeWord 0x00021342 = .ok (.modinv 3 1 2) ∧
    decodeWord 0x02001250 = .ok (.isprime 2 1 2) := by decide

theorem test_decode_co :
    decodeWord 0x00021360 = .ok (.b2i 3 1 2) ∧
    decodeWord 0x00021361 = .ok (.i2b 3 1 2) ∧
    decodeWord 0x00021062 = .ok (.encrypt 1 2) ∧
    decodeWord 0x00021063 = .ok (.decrypt 1 2) := by decide

theorem test_decode_illegal :
    decodeWord 0x00000000 = .error .unlistedOpcode ∧
    decodeWord 0x000000FF = .error .unlistedOpcode ∧
    decodeWord 0x00000101 = .error .reservedBitSet ∧
    decodeWord 0x80000001 = .error .reservedBitSet ∧
    decodeWord 0x00F00004 = .error .reservedBitSet ∧
    decodeWord 0x01000015 = .error .reservedBitSet ∧
    decodeWord 0x00000E40 = .error .egcdDestination := by decide

theorem test_decode_bytes :
    decode [0x30, 0x03, 0x21, 0x00, 0xAA] = .ok (.modpow 3 0 1 2, [0xAA]) ∧
    decode [0x30, 0x03, 0x21] = .error .truncated ∧
    decodeTableWord 32 0x00210330 = some (.modpow 3 0 1 2) ∧ decodeTableWord 32 0x00000E40 = none := by
  decide

/-- R140 and R147: the forms as the spec writes them. -/
theorem test_assembler_text :
    asmText (.modpow 3 0 1 2) = "MODPOW B3, B0, B1, B2" ∧ asmText (.ldi 1 17) = "LDI B1, #17" ∧
    asmText .nop = "NOP" ∧ asmText (.encrypt 1 2) = "ENCRYPT B1, B2" ∧
    expand (.modsqr 4 1 2) = .modmul 4 1 1 2 ∧ encode (expand (.clr 1)) = 0x00000103 := by
  decide +kernel

/-! ### One step of each command, from the vectors of spec/95_test_vectors.md section 4 -/

/-- SU14. -/
theorem test_nop_changes_only_status : refuses 0x2 State.reset (run [] 0x00000001) = true := by
  decide +kernel

/-- SU1. -/
theorem test_mov_negative : gives 7 (-367) (run [(5, -367)] 0x00005702) = true := by decide +kernel

/-- R391: the pair S = 1, M = 0 is copied as +0. -/
theorem test_mov_canonical :
    nextSatisfies (runOn (State.reset.setReg 1 ⟨true, 0⟩) 0x00001102)
      (fun t => t.reg 1 == ⟨false, 0⟩) = true := by decide +kernel

/-- SU3. -/
theorem test_ldi_max : gives 1 255 (run [] 0xFF000103) = true := by decide +kernel

/-- SU9. -/
theorem test_add_negative_overflow :
    refuses 0x32 (withRegs [(1, -18446744073709551615), (2, -1)]) (run [(1, -18446744073709551615), (2, -1)] 0x00021304) = true := by decide +kernel

/-- SU8. -/
theorem test_add_max_fits : gives 3 18446744073709551614 (run [(1, 18446744073709551615), (2, -1)] 0x00021304) = true := by decide +kernel

/-- SU12. -/
theorem test_sub_min_fits : gives 3 (-18446744073709551615) (run [(1, 0), (2, 18446744073709551615)] 0x00021305) = true := by decide +kernel

/-- SU13. -/
theorem test_sub_overflow :
    refuses 0x32 (withRegs [(1, -18446744073709551615), (2, 1)]) (run [(1, -18446744073709551615), (2, 1)] 0x00021305) = true := by decide +kernel

/-- CS3 and R350: signed, PRIME kept. -/
theorem test_cmp_signed :
    nextSatisfies (runOn ((withRegs [(1, -367), (2, 2)]).setPrime true) 0x00021010)
      (fun t => t.flagsWord == 0x9) = true := by decide +kernel

/-- R350: S = 1, M = 0 compares equal to 0. -/
theorem test_cmp_negative_zero :
    nextSatisfies (runOn (State.reset.setReg 1 ⟨true, 0⟩) 0x00021010)
      (fun t => t.flagsWord == 0x2) = true := by decide +kernel

/-- CS9. -/
theorem test_shl_loses_bit :
    refuses 0x32 (withRegs [(1, 3), (2, 63)]) (run [(1, 3), (2, 63)] 0x00021311) = true := by decide +kernel

/-- CS8. -/
theorem test_shl_zero_by_huge : gives 3 0 (run [(1, 0), (2, 18446744073709551615)] 0x00021311) = true := by decide +kernel

/-- CS13. -/
theorem test_shr_by_width : gives 3 0 (run [(1, 18446744073709551615), (2, 64)] 0x00021312) = true := by decide +kernel

/-- CS12. -/
theorem test_shr : gives 3 101 (run [(1, 3232), (2, 5)] 0x00021312) = true := by decide +kernel

/-- CS16. -/
theorem test_shli_overflow :
    refuses 0x32 (withRegs [(1, 1)]) (run [(1, 1)] 0xFF001213) = true := by decide +kernel

/-- CS15. -/
theorem test_shli : gives 2 65536 (run [(1, 1)] 0x10001213) = true := by decide +kernel

/-- CS18. -/
theorem test_shri_halve : gives 2 8 (run [(1, 17)] 0x01001214) = true := by decide +kernel

/-- CS19. -/
theorem test_shri_negative :
    refuses 0x22 (withRegs [(1, -17)]) (run [(1, -17)] 0x01001214) = true := by decide +kernel

/-- CS22. -/
theorem test_bitlen_max : gives 2 64 (run [(1, 18446744073709551615)] 0x00001215) = true := by decide +kernel

/-- CS21. -/
theorem test_bitlen_zero : gives 2 0 (run [(1, 0)] 0x00001215) = true := by decide +kernel

/-- CS25. -/
theorem test_ctz_top_bit : gives 2 63 (run [(1, 9223372036854775808)] 0x00001216) = true := by decide +kernel

/-- CS26. -/
theorem test_ctz_zero :
    refuses 0x92 (withRegs [(1, 0)]) (run [(1, 0)] 0x00001216) = true := by decide +kernel

/-- MM6. -/
theorem test_mul_max_fits : gives 3 18446744073709551615 (run [(1, 4294967295), (2, 4294967297)] 0x00021320) = true := by decide +kernel

/-- MM7. -/
theorem test_mul_overflow :
    refuses 0x32 (withRegs [(1, 4294967296), (2, 4294967296)]) (run [(1, 4294967296), (2, 4294967296)] 0x00021320) = true := by decide +kernel

/-- MM10. -/
theorem test_modmul_wide_product : gives 4 114944269 (run [(1, 18446744073709551615), (2, 18446744073709551615), (3, 1000000007)] 0x00321421) = true := by decide +kernel

/-- MM13. -/
theorem test_modmul_negative_before_div0 :
    refuses 0x22 (withRegs [(1, 5), (2, -7), (3, 0)]) (run [(1, 5), (2, -7), (3, 0)] 0x00321421) = true := by decide +kernel

/-- MM15. -/
theorem test_mod_reduce : gives 3 534 (run [(1, 7000), (2, 3233)] 0x00021322) = true := by decide +kernel

/-- MM17. -/
theorem test_mod_by_zero :
    refuses 0x42 (withRegs [(1, 7000), (2, 0)]) (run [(1, 7000), (2, 0)] 0x00021322) = true := by decide +kernel

/-- MX1. -/
theorem test_modpow_encrypt_65 : gives 3 2790 (run [(0, 65), (1, 17), (2, 3233)] 0x00210330) = true := by decide +kernel

/-- MX9. -/
theorem test_modpow_max_exponent : gives 3 35072593 (run [(0, 3), (1, 18446744073709551615), (2, 1000000007)] 0x00210330) = true := by decide +kernel

/-- EG7: the snapshot is read before the destinations are written. -/
theorem test_egcd_overlap :
    nextSatisfies (run [(0, 17), (1, 3120)] 0x00010040)
      (fun t => t.B 0 == 1 && t.B 1 == -367 && t.B 2 == 2 && t.statusWord == 0x2) = true := by
  decide +kernel

/-- EG6. -/
theorem test_egcd_rd_13 :
    nextSatisfies (run [(1, 65537), (2, 3120)] 0x00021D40)
      (fun t => t.B 13 == 1 && t.reg 14 == ⟨true, 367⟩ && t.B 15 == 7709) = true := by decide +kernel

/-- EG17. -/
theorem test_gcd : gives 3 3 (run [(1, 3), (2, 3120)] 0x00021341) = true := by decide +kernel

/-- EG18. -/
theorem test_gcd_zero_zero : gives 3 0 (run [(1, 0), (2, 0)] 0x00021341) = true := by decide +kernel

/-- EG10. -/
theorem test_modinv : gives 3 2753 (run [(1, 65537), (2, 3120)] 0x00021342) = true := by decide +kernel

/-- EG11. -/
theorem test_modinv_none :
    refuses 0x52 (withRegs [(1, 3), (2, 3120)]) (run [(1, 3), (2, 3120)] 0x00021342) = true := by decide +kernel

/-- MR4: the liar 174 passes, 137 fails, the third answer is not asked for. -/
theorem test_isprime_liar_then_witness :
    nextSatisfies (runOn ((withRegs [(1, 221)]).setAnswers [174, 137, 5]) 0x02001250)
      (fun t => t.statusWord == 0x2 && t.B 2 == 0 && t.flagsWord == 0 && t.witAnswers == [5]) = true := by
  decide +kernel

/-- MR20: twenty rounds by default. -/
theorem test_isprime_default_rounds :
    nextSatisfies (runOn ((withRegs [(1, 97)]).setAnswers (List.replicate 21 2)) 0x00001250)
      (fun t => t.B 2 == 1 && t.flagsWord == 0x8 && t.witAnswers == [2]) = true := by decide +kernel

/-- CO7. -/
theorem test_b2i_overflow :
    (let s := (withRegs [(2, 9)]).msgWrite 0 [0, 0, 0, 0, 0, 0, 0, 0, 1]
     refuses 0x32 s (runOn s 0x00021360)) = true := by decide +kernel

/-- R100: a byte nothing has written is UNINIT. -/
theorem test_b2i_unwritten :
    isUninit (runOn ((withRegs [(2, 3)]).msgWrite 0 [65, 66]) 0x00021360) = true := by decide +kernel

/-- CO13. -/
theorem test_i2b_ends_at_capacity :
    nextSatisfies (run [(1, 16961), (2, 62)] 0x00021361)
      (fun t => t.B 3 == 2 && t.mem == [(msgAddr 62, 65), (msgAddr 63, 66)]) = true := by decide +kernel

/-- CO14. -/
theorem test_i2b_past_capacity :
    refuses 0x72 (withRegs [(1, 16961), (2, 63)]) (run [(1, 16961), (2, 63)] 0x00021361) = true := by decide +kernel

/-- The key of example E1 with the message "Hi" (spec/95_test_vectors.md program P3). -/
def hiState : State :=
  ((withRegs [(1, 17), (2, 3233), (3, 2753)]).msgWrite 0 [0x48, 0x69]).setMsgLen 2

/-- CO15. -/
theorem test_encrypt_hi :
    nextSatisfies (runOn hiState 0x00021062)
      (fun t => t.ctReadFrom 0 2 == some [3000, 3179] && t.ctCount == 2 && t.statusWord == 0x2) = true := by
  decide +kernel

/-- DC16: a modulus of at most 255 is too small. -/
theorem test_encrypt_keysmall : refuses 0x62 (withRegs [(2, 255)]) (run [(2, 255)] 0x00021062) = true := by
  decide +kernel

/-- CO27. -/
theorem test_decrypt_hi :
    nextSatisfies (runOn (((withRegs [(1, 2753), (2, 3233)]).ctWrite 0 [3000, 3179]).setCtCount 2) 0x00021063)
      (fun t => t.msgRead 0 2 == some [0x48, 0x69] && t.msgLen == 2 && t.statusWord == 0x2) = true := by
  decide +kernel

/-- R331: n = 0 is refused before the count is looked at. -/
theorem test_decrypt_div0 :
    (let s := (withRegs [(1, 1)]).setCtCount 17
     refuses 0x42 s (runOn s 0x00021063)) = true := by decide +kernel

/-- Example E2 of spec/95_test_vectors.md. -/
theorem test_karatsuba_example :
    karatsuba 34 78 = 2652 ∧ karatsuba 46 134 = 6164 ∧ karatsuba 1234 5678 = 7006652 := by decide +kernel

/-! ### Bus, lifecycle, reset: spec/95_test_vectors.md section 3 -/

/-- LC1 to LC3, LC23 to LC25. -/
theorem test_bus_reads :
    readAt State.reset 0x000 = some (.data 0x31415352) ∧ readAt State.reset 0x004 = some (.data 0x01100002) ∧
    readAt State.reset 0x008 = some (.data 64) ∧ readAt State.reset 0x00C = some (.data 16) ∧
    readAt State.reset 0x030 = some .error ∧ readAt State.reset 0x00010008 = some .error ∧
    readAt State.reset 0x002 = some .error ∧ isUninit (busRead 0x01000000 0xF State.reset) = true := by
  decide +kernel

/-- LC7 and LC14, LC15: an issue sets BUSY; a CMD write is then dropped, a register read refused. -/
theorem test_busy_lock :
    (let s := State.reset.issue 0x05000103
     s.statusWord = 0x1 ∧ readAt s 0x00013000 = some .error ∧
     nextSatisfies (handle (write 0x01C 0x00000001) s)
       (fun t => t.statusWord == 0x5 && t.cmd == 0x05000103 && t.busReply == some .written) = true) := by
  decide +kernel

/-- LC18. -/
theorem test_illegal_word :
    nextSatisfies (handle (write 0x01C 0) State.reset) (fun t => t.statusWord == 0x12 && !t.busy) = true := by
  decide +kernel

/-- LC20, LC21: a soft reset keeps MSGMEM. -/
theorem test_soft_reset :
    (let s := (withRegs [(1, -17)]).msgWrite 0 [0x48, 0x69, 0, 0]
     nextSatisfies (handle (write 0x010 0x3) s)
       (fun t => !t.ie && t.signWord == 0 && t.B 1 == 0 && readAt t 0x00100000 == some (.data 0x6948))) = true := by
  decide +kernel

/-- LC26, LC27: no answer, so the command waits; a later answer meets no request. -/
theorem test_witness_hang :
    nextSatisfies (run [(1, 7)] 0x01001250)
      (fun t => t.witReq && t.witN == 7 && t.statusWord == 0x1 && !t.irq && !t.softReset.witReq &&
        witnessArrives 3 t.softReset == t.softReset) = true := by decide +kernel

/-- ISPRIME B2, B1, #1 on 7, waiting, with its witness captured (spec/10_state.md R85). -/
def captured : State := witnessArrives 3 (((withRegs [(1, 7)]).issue 0x01001250).await 0)

/-- R85, R86: the captured witness answers the open request, and no other. -/
theorem test_witness_captured_once :
    captured.answers = [3] ∧ captured.witAnswers = [] ∧ captured.witReq = false ∧
    nextSatisfies (coreTurn captured) (fun t => t.B 2 == 1 && t.flagsWord == 0x8 && t.answers == []) = true := by
  decide +kernel

/-- R461, R463: either reset discards a captured witness; the next ISPRIME asks for its own. -/
theorem test_witness_dropped_by_reset :
    captured.softReset.answers = [] ∧ (resetPin true (resetPin false captured)).answers = [] ∧
    nextSatisfies (runOn (captured.softReset.setB 1 7) 0x01001250) (fun t => t.witReq && t.statusWord == 0x1) = true ∧
    nextSatisfies (runOn ((resetPin true (resetPin false captured)).setB 1 7) 0x01001250)
      (fun t => t.witReq && t.statusWord == 0x1) = true := by
  decide +kernel

/-- R51: SIGN is the sixteen raw signs. -/
theorem test_sign :
    (let t := (withRegs [(1, 17)]).writeSign 0x00018002
     t.signWord = 0x8002 ∧ t.reg 1 = ⟨true, 17⟩ ∧ t.reg 15 = ⟨true, 0⟩) := by decide +kernel

/-- R82, R463: rst_n at 0, then at 1. -/
theorem test_hardware_reset :
    (let s := hiState.issue 0x00021062
     (resetPin false s).rstN = false ∧ resetPin true (resetPin false s) = State.reset) := by decide +kernel

/-! ### Witnesses: states and operands that meet the hypotheses of each statement, clause by clause -/

/-- An idle state with the values the clauses turn on. -/
def sample : State :=
  withRegs [(1, 5), (2, -1), (4, 3233), (5, 18446744073709551615), (6, 1), (7, 17), (8, 2753), (9, 97),
    (10, 64), (11, 63), (12, 9223372036854775808), (13, 255), (14, 256), (15, 221)]

/-- MOV B7, B5 issued. -/
def issued : State := sample.issue 0x00005702

/-- ISPRIME B0, B9, #2 waiting for its first witness. -/
def waiting : State := (sample.issue 0x02009050).await 0

theorem inv_sample : Inv sample :=
  .of_idle (by decide +kernel) (by decide +kernel) (by decide +kernel) (by decide +kernel)
    (by decide +kernel) (by decide +kernel) (by decide +kernel)

theorem inv_hiState : Inv hiState :=
  .of_idle (by decide +kernel) (by decide +kernel) (by decide +kernel) (by decide +kernel)
    (by decide +kernel) (by decide +kernel) (by decide +kernel)

theorem waiting_running : waiting.running =
    some ⟨0x02009050, sample.snapshotFor (.isprime 0 9 2), 0, true, none⟩ := by decide +kernel

theorem inv_waiting : Inv waiting where
  cfg := by decide +kernel
  mags := by decide +kernel
  memWf := by decide +kernel
  memIn := by decide +kernel
  busyDone _ := by decide +kernel
  busyErr _ := by decide +kernel
  flags := by decide +kernel
  running c h := by
    rw [waiting_running] at h
    cases h
    have hd : decodeWord 0x02009050 = .ok (.isprime 0 9 2) := by decide
    refine ⟨by decide +kernel, ⟨_, hd, by decide +kernel⟩, ?_, fun _ => rfl, ?_⟩
    · intro d a imm h
      rw [hd] at h
      cases h
      decide
    · exact fun _ => ⟨0, 9, 2, hd, by decide +kernel, by decide +kernel, by decide +kernel⟩
  inReset h := absurd h (by decide +kernel)

theorem witness_DecodeInvertsEncode : (Instr.egcd 13 1 2).wellFormed = true := by decide

theorem witness_LegalWordIsEncodingOfItsCommand : decodeWord 0x00021D40 = .ok (.egcd 13 1 2) := by decide

theorem witness_BytesDecodeLittleEndian : (Instr.modpow 3 0 1 2).wellFormed = true := by decide

theorem witness_IllegalWordsAreRejectedByName_opcode :
    ∀ n ∈ [0x00, 0x06, 0x0F, 0x17, 0x1F, 0x23, 0x2F, 0x31, 0x3F, 0x43, 0x4F, 0x51, 0x5F, 0x64, 0xFF],
      (let op := (BitVec.ofNat 32 n).toNat % 256
       op = 0 ∨ (0x06 ≤ op ∧ op ≤ 0x0F) ∨ (0x17 ≤ op ∧ op ≤ 0x1F) ∨ (0x23 ≤ op ∧ op ≤ 0x2F) ∨
         (0x31 ≤ op ∧ op ≤ 0x3F) ∨ (0x43 ≤ op ∧ op ≤ 0x4F) ∨ (0x51 ≤ op ∧ op ≤ 0x5F) ∨
         (0x64 ≤ op ∧ op ≤ 0xFF)) := by decide +kernel

theorem witness_IllegalWordsAreRejectedByName_reserved :
    ∃ row ∈ opcodeRows, row.opcode = opcodeOf 0x00000101 ∧ 0x00000101 &&& row.mask ≠ row.pattern := by
  refine ⟨_, List.mem_of_getElem? (i := 0) rfl, ?_, ?_⟩ <;> decide

theorem witness_IllegalWordsAreRejectedByName_egcd :
    (0x00000E40 : Word).toNat % 256 = 0x40 ∧ (0x00000E40 : Word) &&& 0xFFF000FF = 0x00000040 ∧
      13 < (0x00000E40 : Word).toNat / 2 ^ 8 % 16 := by decide

theorem witness_StepRunsTheRunningCommand :
    (∃ c, issued.running = some c ∧ decodeWord c.word = .ok (.mov 7 5)) ∧ issued.agenda = [] ∧
    ({ issued with agenda := [.core, .core] } : State).agenda = .core :: [.core] ∧
    (sample.running = none ∧ sample.agenda = [] ∧
      ({ sample with agenda := [.core] } : State).agenda = .core :: []) ∧
    ({ issued with agenda := [.busRead 0x014 0xF, .core] } : State).agenda = .busRead 0x014 0xF :: [.core] ∧
    ({ issued with agenda := [.busWrite 0x010 0x1 0xF] } : State).agenda = .busWrite 0x010 0x1 0xF :: [] :=
  ⟨⟨⟨0x00005702, sample.snapshotFor (.mov 7 5), 0, false, none⟩, by decide +kernel, by decide⟩,
    by decide +kernel, rfl, by decide +kernel, rfl, rfl⟩

/-- R30: a step whose first move is a host access is that access. -/
theorem test_step_makes_host_access :
    nextSatisfies (step { sample with agenda := [.busWrite 0x024 0x5 0xF, .busRead 0x024 0xF] })
      (fun t => t.msgLen == 5 && t.busReply == some .written &&
        nextSatisfies (step t) fun u => u.busReply == some (.data 5) && u.agenda == []) = true := by
  decide +kernel

theorem witness_FetchedWordRunsAtNextStep : (Instr.egcd 13 1 2).wellFormed = true := by decide

theorem witness_CmdWriteIssuesAndTakesSnapshot :
    sample.rstN = true ∧ sample.busy = false ∧ AccessOf sample 0x01C 0xF .cmd ∧
    (Instr.egcd 13 1 2).wellFormed = true := by decide +kernel

/-- No command's word is 0: opcode 0x00 is unassigned (spec/30_encoding.md R137). -/
theorem encode_ne_zero (i : Instr) : encode i ≠ 0 := by
  intro h
  have h := congrArg opcodeOf h
  cases i <;> simp only [encode, opcodeOf_formatC] at h <;> revert h <;> decide

theorem witness_IllegalWordCompletesAtOnce :
    sample.rstN = true ∧ sample.busy = false ∧ AccessOf sample 0x01C 0xF .cmd ∧
    (∀ i : Instr, i.wellFormed = true → encode i ≠ 0) :=
  ⟨by decide +kernel, by decide +kernel, by decide +kernel, fun i _ => encode_ne_zero i⟩

theorem witness_CmdWriteWhileBusyIsDropped :
    issued.rstN = true ∧ issued.busy = true ∧ AccessOf issued 0x01C 0xF .cmd := by
  decide +kernel

theorem witness_SnapshotIsWhatRegistersHold : Inv waiting := inv_waiting

theorem witness_NopOnlyCompletes : ∃ t, exec .nop sample = .next t := ⟨_, rfl⟩

theorem witness_AddSubExactOrOverflow :
    2 ^ sample.cfg.W ≤ (sample.src 5 + sample.src 6).natAbs ∧
    (sample.src 5 + sample.src 2).natAbs < 2 ^ sample.cfg.W ∧
    2 ^ sample.cfg.W ≤ (sample.src 5 - sample.src 2).natAbs ∧
    (sample.src 5 - sample.src 6).natAbs < 2 ^ sample.cfg.W := by decide +kernel

theorem witness_ShiftLeftExactOrOverflow :
    sample.src 2 < 0 ∧ (0 ≤ sample.src 6 ∧ sample.src 2 < 0) ∧
    (0 ≤ sample.src 6 ∧ 0 ≤ sample.src 10 ∧
      2 ^ sample.cfg.W ≤ (sample.src 6).toNat * 2 ^ (sample.src 10).toNat) ∧
    (0 ≤ sample.src 6 ∧ 0 ≤ sample.src 11 ∧
      (sample.src 6).toNat * 2 ^ (sample.src 11).toNat < 2 ^ sample.cfg.W) ∧
    2 ^ sample.cfg.W ≤ (sample.src 6).toNat * 2 ^ (64 : Imm8).toNat ∧
    (sample.src 6).toNat * 2 ^ (63 : Imm8).toNat < 2 ^ sample.cfg.W := by decide +kernel

theorem witness_ShiftRightIsFloorDivision :
    sample.src 2 < 0 ∧ (0 ≤ sample.src 5 ∧ 0 ≤ sample.src 10) ∧ 0 ≤ sample.src 3 := by decide +kernel

theorem witness_BitlenIsLeastExponentAbove :
    sample.src 2 < 0 ∧ 0 ≤ sample.src 3 ∧ 0 ≤ sample.src 5 := by decide +kernel

theorem witness_CtzIsLargestPowerDividing :
    sample.src 2 < 0 ∧ sample.src 3 = 0 ∧ 0 < sample.src 6 ∧ 0 < sample.src 12 := by decide +kernel

theorem witness_MulExactOrOverflow :
    sample.src 2 < 0 ∧
    (0 ≤ sample.src 14 ∧ 0 ≤ sample.src 12 ∧ 2 ^ sample.cfg.W ≤ sample.src 14 * sample.src 12) ∧
    (0 ≤ sample.src 6 ∧ 0 ≤ sample.src 5 ∧ sample.src 6 * sample.src 5 < 2 ^ sample.cfg.W) := by
  decide +kernel

theorem witness_ModmulAndModReduce :
    sample.src 2 < 0 ∧ (0 ≤ sample.src 5 ∧ 0 ≤ sample.src 5 ∧ sample.src 3 = 0) ∧
    (0 ≤ sample.src 5 ∧ 0 ≤ sample.src 5 ∧ 0 < sample.src 6) := by decide +kernel

theorem witness_ModpowIsPowerModulo :
    sample.src 2 < 0 ∧ (0 ≤ sample.src 5 ∧ 0 ≤ sample.src 3 ∧ sample.src 3 = 0) ∧
    (0 ≤ sample.src 3 ∧ 0 ≤ sample.src 3 ∧ 0 < sample.src 6) := by decide +kernel

theorem witness_EgcdFollowsSourceRecursion :
    0 < 17 ∧ egcd (3120 % 17) 17 = (1, 2, -1) := by decide +kernel

theorem witness_EgcdBezoutGcdAndBounds : egcd 17 3120 = (1, -367, 2) ∧ 0 < 1 := by decide +kernel

theorem witness_EgcdWritesThreeRegisters :
    13 < (14 : RegNum).val ∧ Inv sample ∧ (13 : RegNum).val ≤ 13 ∧ sample.src 2 < 0 ∧ 0 ≤ sample.src 7 ∧ 0 ≤ sample.src 3 ∧
    egcd (sample.src 7).toNat (sample.src 3).toNat = (17, 1, 0) :=
  ⟨by decide, inv_sample, by decide, by decide +kernel, by decide +kernel, by decide +kernel,
    by decide +kernel⟩

theorem witness_GcdWritesGreatestCommonDivisor :
    sample.src 2 < 0 ∧ 0 ≤ sample.src 3 ∧ 0 ≤ sample.src 3 := by decide +kernel

theorem witness_ModinvWritesInverse :
    sample.src 2 < 0 ∧ (0 ≤ sample.src 1 ∧ sample.src 3 = 0) ∧
    (0 ≤ sample.src 7 ∧ 0 < sample.src 15 ∧ Int.gcd (sample.src 7) (sample.src 15) ≠ 1) ∧
    (0 ≤ sample.src 3 ∧ 0 < sample.src 6 ∧ Int.gcd (sample.src 3) (sample.src 6) = 1) := by decide +kernel

/-- The numbers ISPRIME decides without a witness, and a negative one. -/
def smallNumbers : State := withRegs [(1, 1), (2, 2), (3, 3), (4, 4), (5, 6), (6, -1)]

theorem witness_IsprimeDecidesSmallAndEven :
    smallNumbers.src 6 < 0 ∧ smallNumbers.src 0 = 0 ∧ smallNumbers.src 1 = 1 ∧ smallNumbers.src 4 = 4 ∧
    (2 < smallNumbers.src 5 ∧ smallNumbers.src 5 % 2 = 0) ∧ smallNumbers.src 2 = 2 ∧
    smallNumbers.src 3 = 3 := by decide +kernel

theorem witness_IsprimeRunsTrialsInOrder :
    (let s := sample.setAnswers [2, 95, 7]
     s.src 9 = (97 : Nat) ∧ 5 ≤ 97 ∧ 97 % 2 = 1 ∧ s.answers = [2, 95] ++ [7] ∧
     (∀ w ∈ [2, 95], 2 ≤ w % 2 ^ s.cfg.W ∧ w % 2 ^ s.cfg.W ≤ 97 - 2 ∧
       trialPasses 97 (w % 2 ^ s.cfg.W) = true) ∧
     [2, 95].length = (if (2 : Imm8) = 0 then 20 else (2 : Imm8).toNat) - s.trialsPassed) ∧
    (let s := sample.setAnswers [174, 220, 9]
     s.src 15 = (221 : Nat) ∧ s.answers = [174] ++ 220 :: [9] ∧ trialPasses 221 (174 % 2 ^ s.cfg.W) = true ∧
     [174].length < (if (2 : Imm8) = 0 then 20 else (2 : Imm8).toNat) - s.trialsPassed ∧
     221 - 2 < 220 % 2 ^ s.cfg.W) ∧
    (let s := sample.setAnswers [1]
     ([] : List Nat).length < (if (0 : Imm8) = 0 then 20 else (0 : Imm8).toNat) - s.trialsPassed ∧
     1 % 2 ^ s.cfg.W < 2) ∧
    (let s := sample.setAnswers [174, 137, 9]
     s.answers = [174] ++ 137 :: [9] ∧ 2 ≤ 137 % 2 ^ s.cfg.W ∧ 137 % 2 ^ s.cfg.W ≤ 221 - 2 ∧
     trialPasses 221 (137 % 2 ^ s.cfg.W) = false) ∧
    (waiting.answers = [] ++ [] ∧
     ([] : List Nat).length < (if (2 : Imm8) = 0 then 20 else (2 : Imm8).toNat) - waiting.trialsPassed ∧
     waiting.running.isSome = true) ∧
    (captured.src 1 = (7 : Nat) ∧ captured.answers = [] ++ 3 :: [] ∧ 2 ≤ 3 % 2 ^ captured.cfg.W ∧
     3 % 2 ^ captured.cfg.W ≤ 7 - 2) := by decide +kernel

theorem witness_TrialIsStrongProbablePrimeTest :
    (5 ≤ 5 ∧ 5 % 2 = 1 ∧ 2 ≤ 3 ∧ 3 ≤ 5 - 2) ∧ trialPasses 221 174 = true ∧ trialPasses 221 137 = false := by
  decide +kernel

theorem witness_IsprimeAcceptsEveryPrime :
    (let s := sample.setAnswers [2, 95]
     s.src 9 = (97 : Nat) ∧ Nat.Prime 97 ∧ 5 ≤ 97 ∧
     (∀ w ∈ s.answers, 2 ≤ w % 2 ^ s.cfg.W ∧ w % 2 ^ s.cfg.W ≤ 97 - 2) ∧
     (if (2 : Imm8) = 0 then 20 else (2 : Imm8).toNat) - s.trialsPassed ≤ s.answers.length) :=
  ⟨by decide +kernel, by norm_num, by decide, by decide +kernel, by decide +kernel⟩

theorem witness_WitnessWaitChangesNothing :
    Inv waiting ∧ waiting.witReq = true ∧ waiting.witAnswers = [] ∧ waiting.agenda = [] :=
  ⟨inv_waiting, by decide +kernel, by decide +kernel, by decide +kernel⟩

theorem witness_WitnessCapturedOnlyWhenRequested :
    ({ waiting with agenda := [.witValid 3, .core] } : State).agenda = .witValid 3 :: [.core] ∧
    waiting.witReq = true ∧ issued.witReq = false := by decide +kernel

theorem witness_CodecIsBase256WithLossyCase :
    0 < 256 ∧ ([0x00, 0x01] : List Byte) ≠ [] ∧ ([0x00, 0x01] : List Byte).getLast? ≠ some 0 := by decide

/-- MSGMEM [60, 64) written, the last bytes of the memory. -/
def tail : State := (withRegs [(1, 60), (2, 4), (3, 5), (4, -1), (5, 59), (6, 0), (7, 9)]).msgWrite 60 [1, 2, 3, 0]

theorem witness_B2iReadsMessageBytes :
    tail.src 4 < 0 ∧ (tail.cfg.msgBytes : Int) < tail.src 1 + tail.src 3 ∧
    (tail.src 1 + tail.src 2 ≤ tail.cfg.msgBytes ∧
      ([1, 2, 3, 0] : List Byte).length = (tail.src 2).toNat ∧
      tail.msgRead (tail.src 1).toNat 4 = some [1, 2, 3, 0] ∧
      bytesToInt [1, 2, 3, 0] < 2 ^ tail.cfg.W) ∧
    (tail.src 5 + tail.src 3 ≤ tail.cfg.msgBytes ∧ 0 < (tail.src 3).toNat ∧
      memRead tail.mem (0x00100000 + (tail.src 5).toNat + 0) = none) ∧
    (let s := tail.msgWrite 0 [0, 0, 0, 0, 0, 0, 0, 0, 1]
     s.src 6 + s.src 7 ≤ s.cfg.msgBytes ∧
     s.msgRead (s.src 6).toNat 9 = some [0, 0, 0, 0, 0, 0, 0, 0, 1] ∧
     2 ^ s.cfg.W ≤ bytesToInt [0, 0, 0, 0, 0, 0, 0, 0, 1]) := by decide +kernel

theorem witness_I2bWritesShortestBytes :
    sample.src 2 < 0 ∧
    (0 ≤ sample.src 4 ∧ 0 ≤ sample.src 11 ∧
      (sample.cfg.msgBytes : Int) < sample.src 11 + (intToBytes (sample.src 4).toNat).length) ∧
    (0 ≤ sample.src 3 ∧ 0 ≤ sample.src 11 ∧
      sample.src 11 + (intToBytes (sample.src 3).toNat).length ≤ sample.cfg.msgBytes) := by decide +kernel

theorem witness_BlocksFitModulusAndRebuildMessage :
    (1 ≤ 1 ∧ 255 ≤ 255 ∧ 256 ≤ 256) ∧ (([255] : List Byte).length : Int) ≤ blockSize 256 ∧
    (splitBlocks 2 [1, 2, 3])[0]? = some [1, 2] ∧ 0 + 1 < (splitBlocks 2 [1, 2, 3]).length ∧
    (splitBlocks 2 [1, 2, 3])[1]? = some [3] := by decide +kernel

theorem witness_EncryptWritesPowersOfBlocks :
    Inv hiState ∧ sample.src 2 < 0 ∧ (0 ≤ sample.src 3 ∧ 0 ≤ sample.src 13 ∧ sample.src 13 ≤ 255) ∧
    (0 ≤ sample.src 3 ∧ 256 ≤ sample.src 14) ∧
    (let s := hiState.setMsgLen 65
     s.cfg.msgBytes < s.srcMsgLen) ∧
    (let s := hiState.setMsgLen 17
     s.srcMsgLen ≤ s.cfg.msgBytes ∧
       s.cfg.ctWords < (s.srcMsgLen + (blockSize (s.src 2).toNat).toNat - 1) / (blockSize (s.src 2).toNat).toNat) ∧
    (let s := hiState.setMsgLen 16
     (s.srcMsgLen + (blockSize (s.src 2).toNat).toNat - 1) / (blockSize (s.src 2).toNat).toNat ≤ s.cfg.ctWords ∧
       s.msgRead 0 s.srcMsgLen = none) ∧
    hiState.msgRead 0 hiState.srcMsgLen = some [0x48, 0x69] :=
  ⟨inv_hiState, by decide +kernel, by decide +kernel, by decide +kernel, by decide +kernel,
    by decide +kernel, by decide +kernel, by decide +kernel⟩

/-- Sixteen ciphertext entries of eight bytes each, under a 64-bit modulus and exponent 1. -/
def longOutput : State :=
  ((withRegs [(1, 1), (2, 18446744073709551615), (4, -1)]).ctWrite 0
    (List.replicate 16 9223372036854775808)).setCtCount 16

theorem inv_longOutput : Inv longOutput :=
  .of_idle (by decide +kernel) (by decide +kernel) (by decide +kernel) (by decide +kernel)
    (by decide +kernel) (by decide +kernel) (by decide +kernel)

/-- The output of longOutput for a count. -/
def outputLength (count : Nat) : Nat :=
  ((List.replicate count 9223372036854775808).flatMap fun c =>
    intToBytes (c ^ (longOutput.src 1).toNat % (longOutput.src 2).toNat)).length

theorem witness_DecryptWritesPowersBytes :
    Inv longOutput ∧ longOutput.src 4 < 0 ∧ (0 ≤ longOutput.src 1 ∧ longOutput.src 3 = 0) ∧
    (0 ≤ longOutput.src 1 ∧ 0 < longOutput.src 2) ∧
    (let s := longOutput.setCtCount 17
     s.cfg.ctWords < s.srcCtCount) ∧
    (let s := sample.setCtCount 1
     s.srcCtCount ≤ s.cfg.ctWords ∧ 0 < s.srcCtCount ∧ s.ctRead 0 = none) ∧
    (longOutput.srcCtCount = 16 ∧
      (∀ k : Fin 16, longOutput.ctRead k.val = some (List.replicate 16 9223372036854775808)[k.val]!) ∧
      longOutput.cfg.msgBytes < outputLength 16) ∧
    ((longOutput.setCtCount 8).srcCtCount = 8 ∧ outputLength 8 ≤ longOutput.cfg.msgBytes) :=
  ⟨inv_longOutput, by decide +kernel, by decide +kernel, by decide +kernel, by decide +kernel,
    by decide +kernel, by decide +kernel, by decide +kernel⟩

theorem witness_RsaRoundTripExactlyWithoutLossyBlock :
    Nat.Prime 61 ∧ Nat.Prime 53 ∧ 61 ≠ 53 ∧ 256 ≤ 61 * 53 ∧ 17 * 2753 % ((61 - 1) * (53 - 1)) = 1 := by
  norm_num

theorem witness_EncryptThenDecryptReturnsMessage :
    Inv hiState ∧ Nat.Prime 61 ∧ Nat.Prime 53 ∧ 61 ≠ 53 ∧ 256 ≤ 61 * 53 ∧
    17 * 2753 % ((61 - 1) * (53 - 1)) = 1 ∧ hiState.B 2 = ((61 * 53 : Nat) : Int) ∧
    hiState.B 1 = ((17 : Nat) : Int) ∧ hiState.B 3 = ((2753 : Nat) : Int) ∧
    hiState.msgLen.toNat ≤ hiState.cfg.msgBytes ∧
    blockCount hiState.msgLen.toNat (blockSize (61 * 53)).toNat ≤ hiState.cfg.ctWords ∧
    hiState.msgRead 0 hiState.msgLen.toNat = some [0x48, 0x69] ∧
    (∀ blk ∈ splitBlocks (blockSize (61 * 53)).toNat [0x48, 0x69], blk.getLast? ≠ some 0) ∧
    nextSatisfies (exec (.encrypt 1 2) hiState) (fun t =>
      let t' := { (t.msgWrite 0 [0, 0, 0, 0]).setMsgLen 0 with flags := hiState.flags, err := .range }
      t'.cfg == t.cfg && t'.regs == t.regs && t'.ctCount == t.ctCount && t'.running == none &&
        t'.ctReadFrom 0 t.ctCount.toNat == t.ctReadFrom 0 t.ctCount.toNat &&
        t'.msgRead 0 2 == some [0, 0] && t'.msgLen == 0) = true :=
  ⟨inv_hiState, by norm_num, by norm_num, by decide, by decide, by decide, by decide +kernel,
    by decide +kernel, by decide +kernel, by decide +kernel, by decide +kernel, by decide +kernel,
    by decide +kernel, by decide +kernel⟩

theorem witness_NegativeSourceIsRefused :
    (Instr.modpow 3 6 6 2).wellFormed = true ∧ (∀ d a, Instr.modpow 3 6 6 2 ≠ .mov d a) ∧
    (∀ d a b, Instr.modpow 3 6 6 2 ≠ .add d a b) ∧ (∀ d a b, Instr.modpow 3 6 6 2 ≠ .sub d a b) ∧
    (∀ a b, Instr.modpow 3 6 6 2 ≠ .cmp a b) ∧
    (∃ r ∈ sourcesOf (.modpow 3 6 6 2), sample.src r < 0) :=
  ⟨by decide, nofun, nofun, nofun, nofun, 2, by decide, by decide +kernel⟩

theorem witness_ErrorsArePrecise :
    nextSatisfies (exec (.ctz 0 3) sample) (fun t => t.running == none && t.err != .none) = true ∧
    nextSatisfies (exec (.decrypt 1 2) longOutput) (fun t => t.running == none && t.err == .bounds) = true ∧
    longOutput.srcCtCount ≤ longOutput.cfg.ctWords ∧
    (let s := longOutput.setCtCount 17
     s.cfg.ctWords < s.srcCtCount ∧
     nextSatisfies (exec (.decrypt 1 2) s) (fun t => t.running == none && t.err == .bounds && t.mem == s.mem) = true) := by
  decide +kernel

theorem witness_CommandsWriteOnlyTheirTable :
    (∃ t, exec (.decrypt 3 2) (hiState.ctWrite 0 [3000]) = .next t) ∧
    nextSatisfies (exec (.decrypt 3 2) ((hiState.ctWrite 0 [3000]).setCtCount 1)) (fun t => t.err == .none) = true ∧
    (∃ t, exec (.i2b 4 1 1) hiState = .next t) ∧ (∃ t, exec (.encrypt 1 2) hiState = .next t) ∧
    (∃ t, exec (.cmp 1 2) hiState = .next t) ∧ (∃ t, exec (.isprime 4 0 2) hiState = .next t) :=
  ⟨⟨_, rfl⟩, by decide +kernel, ⟨_, rfl⟩, ⟨_, rfl⟩, ⟨_, rfl⟩, ⟨_, rfl⟩⟩

theorem witness_WrittenRegistersAreCanonical :
    nextSatisfies (exec (.mov 7 5) issued)
      (fun t => issued.running != none && t.running == none && t.err == .none) = true ∧
    (7 : RegNum) ∈ destsOf (.mov 7 5) := by decide +kernel

theorem witness_AddressMapIsTheTable : Config.vectors.valid ∧ Config.reference.valid ∧
    locate Config.vectors 0x028 = some (.reg .ctCount) ∧ locate Config.vectors 0x0001F004 = some (.limb 15 1) ∧
    locate Config.vectors 0x0010003C = some (.msg 60) ∧ locate Config.vectors 0x0100F004 = some (.ct 15 1) ∧
    locate Config.vectors 0x02C = none ∧ locate Config.vectors 0x00100040 = none := by decide +kernel

theorem witness_BadAccessIsBusErrorWithoutEffect :
    sample.rstN = true ∧ ((0x7 : BitVec 4) ≠ 0xF) ∧ ((0x002 : Word).toNat % 4 ≠ 0) ∧
    locate sample.cfg ((0x02C : Word).toNat - sample.cfg.base.toNat) = none ∧
    (issued.rstN = true ∧ issued.busy = true ∧
      locate issued.cfg ((0x020 : Word).toNat - issued.cfg.base.toNat) = some (.reg .sign)) ∧
    (let s := State.resetWith { Config.vectors with base := 0x1000 }
     s.rstN = true ∧ (0x0FFC : Word).toNat < s.cfg.base.toNat) := by decide +kernel

theorem witness_ReadsHaveNoSideEffect :
    sample.rstN = true ∧ sample.target 0x00011000 0xF = some (.limb 1 0) ∧
    sample.readLoc (.limb 1 0) = some 5 ∧ sample.target 0x00100000 0xF = some (.msg 0) ∧
    sample.readLoc (.msg 0) = none ∧
    nextSatisfies (busRead 0x00011000 0xF sample) (fun t => t.busReply == some (.data 5)) = true := by
  decide +kernel

theorem witness_HostCannotDisturbRunningCommand :
    issued.busy = true ∧ (∃ t, busWrite 0x010 0x1 0xF issued = .next t) ∧
    ¬ (issued.target 0x010 0xF = some (.reg .ctrl) ∧ (0x1 : Word).getLsbD 1 = true) :=
  ⟨by decide +kernel, ⟨_, rfl⟩, by decide +kernel⟩

theorem witness_LimbWriteReplaces32Bits :
    Inv sample ∧ sample.rstN = true ∧ sample.busy = false ∧ 1 < sample.cfg.limbs ∧ 0 ≠ 1 ∧
    WordAt sample 0x0001F004 0xF (0x00010000 + (15 : RegNum).val * 0x1000 + 4 * 1) ∧
    WordAt sample 0x00010000 0xF (0x00010000 + (0 : RegNum).val * 0x1000 + 4 * 0) :=
  ⟨inv_sample, by decide +kernel, by decide +kernel, by decide +kernel, by decide, by decide +kernel,
    by decide +kernel⟩

theorem witness_SignWriteSetsRawSigns :
    sample.rstN = true ∧ sample.busy = false ∧ AccessOf sample 0x020 0xF .sign := by decide +kernel

theorem witness_BufferWordReadsBackLittleEndian :
    sample.cfg.valid ∧ sample.rstN = true ∧ sample.busy = false ∧
    (WordAt sample 0x0010003C 0xF 0x0010003C ∧
      ∃ off, off < sample.cfg.msgBytes ∧ off % 4 = 0 ∧ 0x0010003C = 0x00100000 + off) ∧
    (WordAt sample 0x0100F004 0xF 0x0100F004 ∧
      ∃ k j, k < sample.cfg.ctWords ∧ j < sample.cfg.limbs ∧ 0x0100F004 = 0x01000000 + k * 0x1000 + 4 * j) ∧
    (memRead tail.mem 0x0010003C = some 1 ∧ memRead tail.mem (0x0010003C + 1) = some 2 ∧
      memRead tail.mem (0x0010003C + 2) = some 3 ∧ memRead tail.mem (0x0010003C + 3) = some 0) ∧
    (∃ i, i < 4 ∧ memRead sample.mem (0x0010003C + i) = none) :=
  ⟨by decide +kernel, by decide +kernel, by decide +kernel,
    ⟨by decide +kernel, 60, by decide +kernel, by decide, by decide⟩,
    ⟨by decide +kernel, 15, 1, by decide +kernel, by decide +kernel, by decide⟩,
    by decide +kernel, 3, by decide, by decide +kernel⟩

theorem witness_ControlReadsHaveTheirFields :
    waiting.cfg.valid ∧ (waiting.rstN = true ∧ AccessOf waiting 0x01C 0xF .cmd ∧ waiting.busy = true ∧
      CtrlReg.cmd ≠ .sign ∧ CtrlReg.cmd ≠ .msgLen ∧ CtrlReg.cmd ≠ .ctCount) ∧
    (sample.rstN = true ∧ AccessOf sample 0x028 0xF .ctCount ∧ sample.busy = false) := by decide +kernel

theorem witness_ControlWritesFollowTheirFields :
    waiting.rstN = true ∧ AccessOf waiting 0x000 0xF .id ∧ AccessOf waiting 0x014 0xF .status ∧
    AccessOf waiting 0x010 0xF .ctrl ∧ (0x1 : Word).getLsbD 1 = false ∧ (0x3 : Word).getLsbD 1 = true ∧
    sample.rstN = true ∧ sample.busy = false ∧ AccessOf sample 0x024 0xF .msgLen ∧
    AccessOf sample 0x028 0xF .ctCount := by decide +kernel

theorem witness_SoftResetClearsAllButMemory :
    sample.rstN = true ∧ AccessOf sample 0x010 0xF .ctrl ∧ (0x2 : Word).getLsbD 1 = true ∧
    sample.running = none ∧
    (∃ c, (hiState.issue 0x00021062).running = some c ∧ decodeWord c.word = .ok (.encrypt 1 2)) ∧
    (∃ c, (hiState.issue 0x00023063).running = some c ∧ decodeWord c.word = .ok (.decrypt 3 2)) ∧
    (∃ c, (hiState.issue 0x00021361).running = some c ∧ decodeWord c.word = .ok (.i2b 3 1 2)) ∧
    (∃ c, issued.running = some c ∧ decodeWord c.word = .ok (.mov 7 5)) :=
  ⟨by decide +kernel, by decide +kernel, by decide, by decide +kernel,
    ⟨⟨0x00021062, hiState.snapshotFor (.encrypt 1 2), 0, false, none⟩, by decide +kernel, by decide⟩,
    ⟨⟨0x00023063, hiState.snapshotFor (.decrypt 3 2), 0, false, none⟩, by decide +kernel, by decide⟩,
    ⟨⟨0x00021361, hiState.snapshotFor (.i2b 3 1 2), 0, false, none⟩, by decide +kernel, by decide⟩,
    ⟨⟨0x00005702, sample.snapshotFor (.mov 7 5), 0, false, none⟩, by decide +kernel, by decide⟩⟩

theorem witness_HardwareResetGivesResetState :
    ({ waiting with agenda := [.rst false, .rst true, .core] } : State).agenda =
      .rst false :: .rst true :: [.core] := rfl

theorem witness_ResetStateSatisfiesInv : Config.reference.valid := by decide

theorem witness_EveryStepKeepsInv : Inv waiting ∧ (nextSatisfies (step waiting) fun t => t == waiting) = true :=
  ⟨inv_waiting, by decide +kernel⟩

end Sys2Proof.Tests
end

section
/-! SUPPORT. Everything one command can do to the state: its effect, one constructor per way to end or to wait,
and the frame of every effect (spec/10_state.md R33, R35, R39). -/

namespace Sys2Proof.Machine

/-! ### The effect of a command -/

/-- The parameters are in range and every source value fits a register. -/
structure SourcesFit (s : State) : Prop where
  cfg : s.cfg.valid
  srcs : ∀ r, (s.src r).natAbs < 2 ^ s.cfg.W

/-- All the outcomes a command can have. An error writes nothing but for DECRYPT's output-length ERR_BOUNDS
(spec/30_encoding.md R146) and the answers a bad witness used up; a command with a result alone writes a value
that fits its register where the sources do; the five commands that write more have a constructor each. -/
inductive Effect (s : State) : Instr → Result → Prop
  | error {i : Instr} {e : ErrCode} (he : e ≠ .none) : Effect s i (.next (s.complete e))
  | nop : Effect s .nop (.next (s.complete .none))
  | result {i : Instr} {d : RegNum} {v : Int} (hd : destsOf i = [d])
      (hv : SourcesFit s → v.natAbs < 2 ^ s.cfg.W) : Effect s i (.next ((s.setB d v).complete .none))
  | egcd {d a b : RegNum} {g x y : Int} (hg : SourcesFit s → g.natAbs < 2 ^ s.cfg.W)
      (hx : x.natAbs < 2 ^ s.cfg.W) (hy : y.natAbs < 2 ^ s.cfg.W) :
      Effect s (.egcd d a b) (.next ((((s.setB d g).setB (d + 1) x).setB (d + 2) y).complete .none))
  | compare {a b : RegNum} :
      Effect s (.cmp a b) (.next ((s.setCompare (s.src a) (s.src b)).complete .none))
  | verdict {d a : RegNum} {imm : Imm8} (p : Bool) (rest : List Nat) : Effect s (.isprime d a imm)
      (.next ((((s.setAnswers rest).setB d (if p then 1 else 0)).setPrime p).complete .none))
  | badWitness {d a : RegNum} {imm : Imm8} (rest : List Nat) :
      Effect s (.isprime d a imm) (.next ((s.setAnswers rest).complete .witness))
  | wait {d a : RegNum} {imm : Imm8} {n passed : Nat} (hn : s.src a = n)
      (ho : primeWithoutWitness n = none) (hp : passed < roundsOf imm - s.trialsPassed) :
      Effect s (.isprime d a imm) (.next (s.await passed))
  | i2b {d a b : RegNum} {v off : Nat} (ha : s.src a = v) (hb : s.src b = off)
      (hlen : off + (intToBytes v).length ≤ s.cfg.msgBytes) : Effect s (.i2b d a b)
      (.next (((s.msgWrite off (intToBytes v)).setB d (intToBytes v).length).complete .none))
  | encrypt {a b : RegNum} {e n : Nat} {m : List Byte} (hb : s.src b = n)
      (hnb : blockCount s.srcMsgLen (blockSize n).toNat ≤ s.cfg.ctWords)
      (hm : s.msgRead 0 s.srcMsgLen = some m) : Effect s (.encrypt a b)
      (.next (((s.ctWrite 0 (encryptBytes e n m)).setCtCount
        (BitVec.ofNat 32 (blockCount s.srcMsgLen (blockSize n).toNat))).complete .none))
  | decrypt {a b : RegNum} {d n : Nat} {cs : List Nat} (ha : s.src a = d) (hb : s.src b = n)
      (hcs : s.ctReadFrom 0 s.srcCtCount = some cs)
      (hlen : (decryptEntries d n cs).length ≤ s.cfg.msgBytes) : Effect s (.decrypt a b)
      (.next (((s.msgWrite 0 (decryptEntries d n cs)).setMsgLen
        (BitVec.ofNat 32 (decryptEntries d n cs).length)).complete .none))
  | decryptTooLong {a b : RegNum} (hct : s.srcCtCount ≤ s.cfg.ctWords) :
      Effect s (.decrypt a b) (.next ((s.scrambleMsg 0 s.cfg.msgBytes).complete .bounds))
  | uninit {i : Instr}
      (hi : (∃ d a b, i = .b2i d a b) ∨ (∃ a b, i = .encrypt a b) ∨ ∃ a b, i = .decrypt a b) :
      Effect s i (.fault .uninit)

/-! ### The ranges of the parameters (spec/00_scope.md R6, R9) -/

section
variable {c : Config}

theorem le_width (h : c.valid) : 64 ≤ c.W := h.2.1

theorem width_le (h : c.valid) : c.W ≤ 32768 := h.2.2.1

theorem msgBytes_mod (h : c.valid) : c.msgBytes % 4 = 0 := h.2.2.2.1

theorem msgBytes_le (h : c.valid) : c.msgBytes ≤ 1048576 := h.2.2.2.2.2.1

theorem ctWords_le (h : c.valid) : c.ctWords ≤ 4096 := h.2.2.2.2.2.2.2

end

/-! ### Values that fit -/

/-- The first component of EGCD is the greatest common divisor (spec/42_gcd_inverse.md R252). -/
theorem egcdFuel_fst : ∀ {fuel a : Nat} (b : Nat), a ≤ fuel → (egcdFuel fuel a b).1 = Nat.gcd a b
  | 0, a, b, h => by rw [Nat.le_zero.1 h, Nat.gcd_zero_left]; rfl
  | fuel + 1, a, b, h => by
    rw [egcdFuel]
    split_ifs with h0
    · rw [h0, Nat.gcd_zero_left]
    · have hlt := Nat.mod_lt b (Nat.pos_of_ne_zero h0)
      rw [Nat.gcd_rec]
      exact egcdFuel_fst a (by omega)

theorem egcd_fst (a b : Nat) : (egcd a b).1 = Nat.gcd a b := egcdFuel_fst b le_rfl

/-- A greatest common divisor is at most the larger argument. -/
theorem gcd_lt {a b m : Nat} (ha : a < m) (hb : b < m) : Nat.gcd a b < m := by
  rcases Nat.eq_zero_or_pos a with rfl | h
  · rwa [Nat.gcd_zero_left]
  · exact (Nat.gcd_le_left b h).trans_lt ha

/-- A number has fewer trailing zeros than bits. -/
theorem trailingZeros_lt {a W : Nat} (h0 : 0 < a) (h : a < 2 ^ W) : trailingZeros a < W :=
  (Nat.pow_lt_pow_iff_right one_lt_two).1 <|
    (Nat.le_of_dvd h0 (Nat.dvd_of_mod_eq_zero (trailingZeros_spec h0).1)).trans_lt h

section
variable {s : State}

/-- A source read as a natural number is below 2^W. -/
theorem SourcesFit.lt (h : SourcesFit s) {r : RegNum} {n : Nat} (hn : s.src r = n) : n < 2 ^ s.cfg.W := by
  simpa [hn] using h.srcs r

/-- W is at least 64, so what is below 2^64 fits (spec/00_scope.md R6). -/
theorem fits_of_lt {c : Config} (h : c.valid) {n : Nat} (hn : n < 2 ^ 64) : n < 2 ^ c.W :=
  hn.trans_le (Nat.pow_le_pow_right two_pos (le_width h))

/-! ### Every command has an effect of its kind -/

/-- A checked source: ERR_NEG, or the effect of what follows. -/
theorem Effect.natSrc {i : Instr} {r : RegNum} {go : Nat → Result}
    (h : ∀ n : Nat, s.src r = n → Effect s i (go n)) : Effect s i (s.natSrc r go) := by
  rcases natSrc_cases s r go with ⟨_, e⟩ | ⟨n, hn, e⟩ <;> rw [e]
  · exact .error (by decide)
  · exact h n hn

/-- A checked result: ERR_OVERFLOW, or a result that fits. -/
theorem Effect.checked {i : Instr} {d : RegNum} {v : Int} (hd : destsOf i = [d]) :
    Effect s i (s.writeChecked d v) := by
  rcases writeChecked_cases s d v with ⟨_, e⟩ | ⟨hv, e⟩ <;> rw [e]
  · exact .error (by decide)
  · exact .result hd fun _ => hv

/-- A natural result below a bound the sources give. -/
theorem Effect.natResult {i : Instr} {d : RegNum} {v : Nat} (hd : destsOf i = [d])
    (hv : SourcesFit s → v < 2 ^ s.cfg.W) : Effect s i (s.setB d v).commit :=
  .result hd fun h => by simpa using hv h

/-- SHL and SHLI are checked products (spec/45_compare_shift.md R351). -/
theorem Effect.shiftLeft {i : Instr} {d : RegNum} {a n : Nat} (hd : destsOf i = [d]) :
    Effect s i (s.shiftLeftInto d a n) := by
  rw [shiftLeftInto_eq]
  exact .checked hd

/-- SHR and SHRI give at most the value they shift (spec/45_compare_shift.md R352). -/
theorem Effect.shiftRight {i : Instr} {d r : RegNum} {a : Nat} (n : Nat) (hd : destsOf i = [d])
    (ha : s.src r = a) : Effect s i (s.setB d (shiftRight a n)).commit :=
  .natResult hd fun h => by
    rw [shiftRight_eq]
    exact (Nat.div_le_self a _).trans_lt (h.lt ha)

theorem effect_ctz (d a : RegNum) : Effect s (.ctz d a) (execCtz d a s) :=
  .natSrc fun v hv => by
    split
    · exact .error (by decide)
    · next h0 => exact .natResult rfl fun h =>
        ((trailingZeros_lt (Nat.pos_of_ne_zero h0) (h.lt hv)).trans Nat.lt_two_pow_self)

theorem effect_bitlen (d a : RegNum) : Effect s (.bitlen d a) (execBitlen d a s) :=
  .natSrc fun _ hv => .natResult rfl fun h => (bitlen_le (h.lt hv)).trans_lt Nat.lt_two_pow_self

/-- A remainder by a source: ERR_DIV0, or a result below that source (spec/40_multiplier.md R205, R206). -/
theorem Effect.remainder {i : Instr} {d r : RegNum} {c v : Nat} (hd : destsOf i = [d]) (hc : s.src r = c)
    (hv : 0 < c → v < c) :
    Effect s i (if c = 0 then s.raise .div0 else (s.setB d v).commit) := by
  split
  · exact .error (by decide)
  · next h0 => exact .natResult hd fun h => (hv (Nat.pos_of_ne_zero h0)).trans (h.lt hc)

theorem effect_egcd (d a b : RegNum) : Effect s (.egcd d a b) (execEgcd d a b s) := by
  unfold execEgcd
  split
  · exact .error (by decide)
  · refine .natSrc fun v hv => .natSrc fun w hw => ?_
    dsimp only
    split
    · exact .error (by decide)
    · next hov =>
      simp only [State.overflows, Bool.or_eq_true, decide_eq_true_eq, not_or, not_le] at hov
      refine .egcd (fun h => ?_) hov.1 hov.2
      rw [egcd_fst, Int.natAbs_natCast]
      exact gcd_lt (h.lt hv) (h.lt hw)

theorem effect_gcd (d a b : RegNum) : Effect s (.gcd d a b) (execGcd d a b s) :=
  .natSrc fun v hv => .natSrc fun w hw => .natResult rfl fun h => by
    rw [egcd_fst]
    exact gcd_lt (h.lt hv) (h.lt hw)

theorem effect_modinv (d a b : RegNum) : Effect s (.modinv d a b) (execModinv d a b s) := by
  refine .natSrc fun v hv => .natSrc fun w hw => ?_
  dsimp only
  split_ifs with h0
  · exact .error (by decide)
  · exact .error (by decide)
  · refine .result rfl fun h => ?_
    have hpos := Int.emod_nonneg (egcd v w).2.1 (b := (w : Int)) (by omega)
    have hlt := Int.emod_lt_of_pos (egcd v w).2.1 (b := (w : Int)) (by omega)
    have := h.lt hw
    omega

/-- ISPRIME decides, refuses a witness or waits with trials to come (spec/43_primality.md R280 to R284). -/
theorem effect_isprime (d a : RegNum) (imm : Imm8) :
    Effect s (.isprime d a imm) (execIsprime d a imm s) := by
  refine .natSrc fun n hn => ?_
  cases ho : primeWithoutWitness n with
  | some p => exact .verdict p s.witAnswers
  | none =>
    obtain ⟨good, rest, _, _, h⟩ :=
      runTrials_cases s.cfg.W n (roundsOf imm - s.trialsPassed) s.answers
    rcases h with ⟨_, e⟩ | ⟨hl, _, e⟩ | ⟨_, _, tail, _, ⟨_, e⟩ | ⟨_, _, _, e⟩⟩ <;> simp only [e]
    · exact .verdict true rest
    · exact .wait hn ho hl
    · exact .badWitness tail
    · exact .verdict false tail

theorem effect_b2i (d a b : RegNum) : Effect s (.b2i d a b) (execB2i d a b s) := by
  refine .natSrc fun off _ => .natSrc fun len _ => ?_
  split
  · exact .error (by decide)
  · split
    · exact .uninit (.inl ⟨_, _, _, rfl⟩)
    · exact .checked rfl

theorem effect_i2b (d a b : RegNum) : Effect s (.i2b d a b) (execI2b d a b s) := by
  refine .natSrc fun v hv => .natSrc fun off hoff => ?_
  dsimp only
  split
  · exact .error (by decide)
  · next h => exact .i2b hv hoff (not_lt.1 h)

theorem effect_encrypt (a b : RegNum) : Effect s (.encrypt a b) (execEncrypt a b s) := by
  refine .natSrc fun e _ => .natSrc fun n hn => ?_
  dsimp only
  split_ifs with hk hlen hnb
  · exact .error (by decide)
  · exact .error (by decide)
  · exact .error (by decide)
  · split
    · exact .uninit (.inr (.inl ⟨_, _, rfl⟩))
    · next hm => exact .encrypt hn (not_lt.1 hnb) hm

theorem effect_decrypt (a b : RegNum) : Effect s (.decrypt a b) (execDecrypt a b s) := by
  refine .natSrc fun d hd => .natSrc fun n hn => ?_
  split_ifs with h0 hct
  · exact .error (by decide)
  · exact .error (by decide)
  · split
    · exact .uninit (.inr (.inr ⟨_, _, rfl⟩))
    · next cs hcs =>
      dsimp only
      split
      · exact .decryptTooLong (not_lt.1 hct)
      · next hlen => exact .decrypt hd hn hcs (not_lt.1 hlen)

/-- The effect of every command. -/
theorem exec_effect (i : Instr) : Effect s i (exec i s) := by
  cases i with
  | nop => exact .nop
  | mov d a => exact .result rfl fun h => h.srcs a
  | ldi d imm =>
    exact .natResult rfl fun h => fits_of_lt h.cfg (imm.isLt.trans (by decide))
  | add d a b | sub d a b => exact .checked rfl
  | cmp a b => exact .compare
  | shl d a b => exact .natSrc fun _ _ => .natSrc fun _ _ => .shiftLeft rfl
  | shli d a imm => exact .natSrc fun _ _ => .shiftLeft rfl
  | shr d a b => exact .natSrc fun _ ha => .natSrc fun n _ => .shiftRight n rfl ha
  | shri d a imm => exact .natSrc fun _ ha => .shiftRight imm.toNat rfl ha
  | bitlen d a => exact effect_bitlen d a
  | ctz d a => exact effect_ctz d a
  | mul d a b => exact .natSrc fun _ _ => .natSrc fun _ _ => .checked rfl
  | modmul d a b c =>
    refine .natSrc fun _ _ => .natSrc fun _ _ => .natSrc fun _ hc => ?_
    exact .remainder rfl hc (Nat.mod_lt _)
  | mod d a b => exact .natSrc fun _ _ => .natSrc fun _ hb => .remainder rfl hb (Nat.mod_lt _)
  | modpow d a b c =>
    refine .natSrc fun _ _ => .natSrc fun _ _ => .natSrc fun _ hc => .remainder rfl hc fun h => ?_
    rw [modPow_eq]
    exact Nat.mod_lt _ h
  | egcd d a b => exact effect_egcd d a b
  | gcd d a b => exact effect_gcd d a b
  | modinv d a b => exact effect_modinv d a b
  | isprime d a imm => exact effect_isprime d a imm
  | b2i d a b => exact effect_b2i d a b
  | i2b d a b => exact effect_i2b d a b
  | encrypt a b => exact effect_encrypt a b
  | decrypt a b => exact effect_decrypt a b

end

end Sys2Proof.Machine
end

section
/-! SUPPORT. What the effect of a command leaves unchanged, and the rules over all commands: the refused negative
source, the table of R33, canonical results (spec/10_state.md R31, R33, R35). -/

namespace Sys2Proof.Machine

/-! ### The frame of an effect, field by field (spec/10_state.md R33, R39) -/

section
variable {i : Instr} {s t : State}

theorem Effect.shell (h : Effect s i (.next t)) : SameShell s t := by
  cases h <;> exact ⟨rfl, rfl, rfl, rfl, rfl, rfl, rfl⟩

/-- A register write changes its register alone. -/
theorem reg_setB_of_ne {r d : RegNum} (h : r ≠ d) (s : State) (v : Int) : (s.setB d v).reg r = s.reg r := by
  rw [State.reg_setB, if_neg h]

theorem Effect.regs (h : Effect s i (.next t)) : SameRegsBut (destsOf i) s t := by
  intro r hr
  cases h with
  | error | nop | compare | badWitness | wait | encrypt | decrypt | decryptTooLong => rfl
  | result hd => exact reg_setB_of_ne (by simpa [hd] using hr) s _
  | egcd =>
    obtain ⟨h0, h1, h2⟩ : r ≠ _ ∧ r ≠ _ ∧ r ≠ _ := by simpa [destsOf] using hr
    rw [State.reg_complete, reg_setB_of_ne h2, reg_setB_of_ne h1, reg_setB_of_ne h0]
  | verdict p rest => exact reg_setB_of_ne (by simpa [destsOf] using hr) (s.setAnswers rest) _
  | i2b => exact reg_setB_of_ne (by simpa [destsOf] using hr) (s.msgWrite _ _) _

theorem Effect.compareFlags_eq (h : Effect s i (.next t)) (hi : ∀ a b, i ≠ .cmp a b) :
    t.flags.lt = s.flags.lt ∧ t.flags.eq = s.flags.eq ∧ t.flags.gt = s.flags.gt := by
  cases h with
  | compare => exact absurd rfl (hi _ _)
  | _ => exact ⟨rfl, rfl, rfl⟩

theorem Effect.prime_eq (h : Effect s i (.next t)) (hi : ∀ d a m, i ≠ .isprime d a m) :
    t.flags.prime = s.flags.prime ∧ t.witAnswers = s.witAnswers := by
  cases h with
  | verdict | badWitness | wait => exact absurd rfl (hi _ _ _)
  | _ => exact ⟨rfl, rfl⟩

theorem Effect.msgLen_eq (h : Effect s i (.next t)) (hi : ∀ a b, i ≠ .decrypt a b) :
    t.msgLen = s.msgLen ∧ t.draws = s.draws := by
  cases h with
  | decrypt | decryptTooLong => exact absurd rfl (hi _ _)
  | _ => exact ⟨rfl, rfl⟩

theorem Effect.ctCount_eq (h : Effect s i (.next t)) (hi : ∀ a b, i ≠ .encrypt a b) :
    t.ctCount = s.ctCount := by
  cases h with
  | encrypt => exact absurd rfl (hi _ _)
  | _ => rfl

theorem Effect.mem_eq (h : Effect s i (.next t)) (h1 : ∀ d a b, i ≠ .i2b d a b)
    (h2 : ∀ a b, i ≠ .encrypt a b) (h3 : ∀ a b, i ≠ .decrypt a b) : SameMem s t := by
  cases h with
  | i2b => exact absurd rfl (h1 _ _ _)
  | encrypt => exact absurd rfl (h2 _ _)
  | decrypt | decryptTooLong => exact absurd rfl (h3 _ _)
  | _ => exact SameMem.refl s

/-! ### Where the three memory commands write -/

/-- A write of bytes to MSGMEM changes those bytes alone. -/
theorem sameMemBut_msg {off n : Nat} {bs : List Byte} (ht : t.mem = memWriteBytes s.mem (msgAddr off) bs)
    (hn : bs.length = n) : SameMemBut (MsgRange off n) s t := by
  intro a ha
  rw [ht, memRead_memWriteBytes, hn]
  exact if_neg ha

theorem length_encryptBytes (e n : Nat) (m : List Byte) :
    (encryptBytes e n m).length = blockCount m.length (blockSize n).toNat := by
  rw [encryptBytes, List.length_map, splitBlocks, List.length_map, List.length_range]

/-- A write of entries to CTMEM changes those entries alone. -/
theorem sameMemBut_ct {n : Nat} {vs : List Nat} (ht : t.mem = ctWriteFrom (entryBytes s.cfg) s.mem 0 vs)
    (hn : vs.length = n) : SameMemBut (CtRange s.cfg n) s t := by
  intro a ha
  rw [ht]
  refine memRead_ctWriteFrom vs _ 0 fun j hj hin => ha ⟨j, hn ▸ hj, ?_⟩
  rwa [Nat.zero_add] at hin

theorem Effect.mem_i2b {d a b : RegNum} (h : Effect s (.i2b d a b) (.next t)) :
    SameMemBut (MsgRange (s.src b).toNat (intToBytes (s.src a).toNat).length) s t := by
  cases h with
  | error => exact (SameMem.refl s).but _
  | result => exact (SameMem.refl s).but _
  | i2b ha hb hlen =>
    rw [ha, hb]
    exact sameMemBut_msg rfl rfl

theorem Effect.mem_encrypt {a b : RegNum} (h : Effect s (.encrypt a b) (.next t)) :
    SameMemBut (CtRange s.cfg (blockCount s.srcMsgLen (blockSize (s.src b).toNat).toNat)) s t := by
  cases h with
  | error => exact (SameMem.refl s).but _
  | result hd => cases hd
  | encrypt hb hnb hm =>
    refine sameMemBut_ct rfl ?_
    rw [length_encryptBytes, length_of_memReadBytes hm, hb, Int.toNat_natCast]

/-- DECRYPT writes in MSGMEM alone, whatever its end (spec/30_encoding.md R146). -/
theorem Effect.mem_decrypt {a b : RegNum} (h : Effect s (.decrypt a b) (.next t)) :
    SameMemBut (MsgRange 0 s.cfg.msgBytes) s t := by
  cases h with
  | error => exact (SameMem.refl s).but _
  | result hd => cases hd
  | decrypt ha hb hcs hlen =>
    intro x hx
    exact sameMemBut_msg rfl rfl x fun hin => hx ⟨hin.1, hin.2.trans_le (Nat.add_le_add_left hlen _)⟩
  | decryptTooLong => exact sameMemBut_msg rfl (length_freeBytes _ _)

/-- DECRYPT without an error writes the plaintext alone. -/
theorem Effect.mem_decrypt_ok {a b : RegNum} (h : Effect s (.decrypt a b) (.next t)) (he : t.err = .none) :
    ∃ cs, s.ctReadFrom 0 s.srcCtCount = some cs ∧
      SameMemBut (MsgRange 0 (decryptEntries (s.src a).toNat (s.src b).toNat cs).length) s t := by
  cases h with
  | error hne => exact absurd he hne
  | result hd => cases hd
  | decrypt ha hb hcs hlen =>
    refine ⟨_, hcs, ?_⟩
    rw [ha, hb]
    exact sameMemBut_msg rfl rfl
  | decryptTooLong => cases he

end

/-- Settles O45: the frame of the command's effect, one field after the other. -/
theorem commandsWriteOnlyTheirTable : Obligations.CommandsWriteOnlyTheirTable := by
  intro i s t h
  have he : Effect s i (.next t) := h ▸ exec_effect i
  exact ⟨he.shell, he.regs, he.compareFlags_eq, he.prime_eq, he.msgLen_eq, he.ctCount_eq, he.mem_eq,
    fun _ _ _ hi => (hi ▸ he).mem_i2b, fun _ _ hi => (hi ▸ he).mem_encrypt,
    fun _ _ hi => ⟨(hi ▸ he).mem_decrypt, (hi ▸ he).mem_decrypt_ok⟩⟩

/-! ### Canonical results (spec/10_state.md R31, spec/00_scope.md R15) -/

/-- The pair is the one its value is written as. -/
def BigReg.Canonical (r : BigReg) : Prop := (r.sign = true ↔ r.value < 0) ∧ r.mag = r.value.natAbs

theorem canonical_ofInt (v : Int) : (BigReg.ofInt v).Canonical :=
  ⟨by rw [BigReg.sign_ofInt, BigReg.value_ofInt, decide_eq_true_eq], by
    rw [BigReg.mag_ofInt, BigReg.value_ofInt]⟩

/-- After a register write its register is canonical, and so is every register that was. -/
theorem canonical_setB {s : State} {d r : RegNum} (v : Int) (h : r = d ∨ (s.reg r).Canonical) :
    ((s.setB d v).reg r).Canonical := by
  rw [State.reg_setB]
  split_ifs with hr
  · exact canonical_ofInt v
  · exact h.resolve_left hr

/-- A running command that has completed without error has left canonical pairs in its destinations. -/
theorem Effect.canonical {i : Instr} {s t : State} {r : RegNum} (h : Effect s i (.next t))
    (hs : s.running ≠ none) (ht : t.running = none) (he : t.err = .none) (hr : r ∈ destsOf i) :
    (t.reg r).Canonical := by
  cases h with
  | error hne => exact absurd he hne
  | badWitness | decryptTooLong => cases he
  | nop | compare | encrypt | decrypt => cases hr
  | wait => exact absurd (by simpa using ht) hs
  | result hd => exact canonical_setB _ (.inl (by simpa [hd] using hr))
  | verdict p rest => exact canonical_setB (s := s.setAnswers rest) _ (.inl (by simpa [destsOf] using hr))
  | i2b => exact canonical_setB (s := s.msgWrite _ _) _ (.inl (by simpa [destsOf] using hr))
  | @egcd d _ _ g x y =>
    have hr : r = d ∨ r = d + 1 ∨ r = d + 2 := by simpa [destsOf] using hr
    refine canonical_setB y ?_
    rcases hr with hr | hr | hr
    · exact .inr (canonical_setB x (.inr (canonical_setB g (.inl hr))))
    · exact .inr (canonical_setB x (.inl hr))
    · exact .inl hr

/-- Settles O47: every result is written by State.setB, as the canonical pair of its value. -/
theorem writtenRegistersAreCanonical : Obligations.WrittenRegistersAreCanonical := by
  intro i s t r h hs ht he hr
  have heff : Effect s i (.next t) := h ▸ exec_effect i
  exact heff.canonical hs ht he hr

/-! ### Negative sources (spec/10_state.md R35, spec/60_exceptions.md R413) -/

section
variable {s : State} {a b c : RegNum}

/-- One checked source refuses a negative value. -/
theorem natSrc_refuses (h : ∃ r ∈ [a], s.src r < 0) (go : Nat → Result) :
    s.natSrc a go = s.raise .neg :=
  natSrc_neg (by simpa using h) go

/-- A checked source refuses a negative value, its own or one that what follows refuses. -/
theorem natSrc_refuses_cons {rs : List RegNum} (h : ∃ r ∈ a :: rs, s.src r < 0) {go : Nat → Result}
    (hgo : (∃ r ∈ rs, s.src r < 0) → ∀ n, go n = s.raise .neg) : s.natSrc a go = s.raise .neg := by
  rcases natSrc_cases s a go with ⟨_, e⟩ | ⟨n, hn, e⟩
  · exact e
  · obtain ⟨r, hr, hneg⟩ := h
    rcases List.mem_cons.1 hr with rfl | hr
    · omega
    · rw [e, hgo ⟨r, hr, hneg⟩]

/-- Two checked sources refuse a negative value, whatever the command does with them. -/
theorem natSrc_refuses_two (h : ∃ r ∈ [a, b], s.src r < 0) (go : Nat → Nat → Result) :
    (s.natSrc a fun x => s.natSrc b (go x)) = s.raise .neg :=
  natSrc_refuses_cons h fun hb _ => natSrc_refuses hb _

/-- Three checked sources refuse a negative value, whatever the command does with them. -/
theorem natSrc_refuses_three (h : ∃ r ∈ [a, b, c], s.src r < 0) (go : Nat → Nat → Nat → Result) :
    (s.natSrc a fun x => s.natSrc b fun y => s.natSrc c (go x y)) = s.raise .neg :=
  natSrc_refuses_cons h fun hbc x => natSrc_refuses_two hbc (go x)

/-- An EGCD that is well formed checks its two sources before all else. -/
theorem execEgcd_refuses {d : RegNum} (hd : d.val ≤ 13) (h : ∃ r ∈ [a, b], s.src r < 0) :
    execEgcd d a b s = s.raise .neg := by
  rw [execEgcd, if_neg (not_lt.2 hd)]
  exact natSrc_refuses_two h _

end

/-- Every command but MOV, ADD, SUB and CMP checks all its sources before anything else. -/
theorem exec_refuses {i : Instr} {s : State} (hw : i.wellFormed = true) (hmov : ∀ d a, i ≠ .mov d a)
    (hadd : ∀ d a b, i ≠ .add d a b) (hsub : ∀ d a b, i ≠ .sub d a b) (hcmp : ∀ a b, i ≠ .cmp a b)
    (h : ∃ r ∈ sourcesOf i, s.src r < 0) : exec i s = s.raise .neg := by
  unfold exec
  cases i with
  | mov d a => exact absurd rfl (hmov d a)
  | add d a b => exact absurd rfl (hadd d a b)
  | sub d a b => exact absurd rfl (hsub d a b)
  | cmp a b => exact absurd rfl (hcmp a b)
  | nop | ldi => simp [sourcesOf] at h
  | shli | shri | bitlen | ctz | isprime => exact natSrc_refuses h _
  | shl | shr | mul | mod | gcd | modinv | b2i | i2b | encrypt | decrypt => exact natSrc_refuses_two h _
  | modmul | modpow => exact natSrc_refuses_three h _
  | egcd d a b => exact execEgcd_refuses (of_decide_eq_true hw) h

/-- Settles O43: the checks of the sources come first, and ERR_NEG writes nothing. -/
theorem negativeSourceIsRefused : Obligations.NegativeSourceIsRefused := by
  intro i s hw hmov hadd hsub hcmp h
  rw [exec_refuses hw hmov hadd hsub hcmp h]
  exact endsWritingNothing_raise s .neg

end Sys2Proof.Machine
end

section
/-! SUPPORT. The control registers and the limb windows on the bus, and the witness handshake (spec/10_state.md R38
to R55, R85, R86). -/

namespace Sys2Proof.Machine

/-! ### The witness handshake (spec/10_state.md R85) -/

/-- After a presented value no request is open. -/
theorem witReq_witnessArrives (w : Nat) (s : State) : (witnessArrives w s).witReq = false := by
  rcases witnessArrives_cases w s with ⟨h, e⟩ | ⟨c, _, _, e⟩ <;> rw [e]
  · exact h
  · rfl

/-- With no request open a presented value is ignored. -/
theorem witnessArrives_ignored {w : Nat} {s : State} (h : s.witReq = false) : witnessArrives w s = s := by
  rcases witnessArrives_cases w s with ⟨_, e⟩ | ⟨c, hc, hw, _⟩
  · exact e
  · simp [State.witReq, hc, hw] at h

/-- With a request open the running command captures a presented value. -/
theorem witnessArrives_captured {w : Nat} {s : State} (h : s.witReq = true) :
    ∃ c, s.running = some c ∧
      witnessArrives w s = { s with running := some { c with witReq := false, captured := some w } } := by
  rcases witnessArrives_cases w s with ⟨h', _⟩ | ⟨c, hc, _, e⟩
  · rw [h] at h'; cases h'
  · exact ⟨c, hc, e⟩

/-- What a command reads of the machine depends on the snapshot and the trials of its hidden state alone. -/
theorem operands_of_running {s : State} {c c' : Running} (h : s.running = some c) (hs : c'.snap = c.snap)
    (ht : c'.trials = c.trials) :
    let t : State := { s with running := some c' }
    t.trialsPassed = s.trialsPassed ∧ (∀ r, t.src r = s.src r) ∧ t.srcMsgLen = s.srcMsgLen ∧
      t.srcCtCount = s.srcCtCount ∧ t.statusWord = s.statusWord := by
  refine ⟨?_, fun r => ?_, ?_, ?_, ?_⟩
  · simp only [State.trialsPassed, h, ht]
  · simp only [State.src, h, hs, State.B, State.reg]
  · simp only [State.srcMsgLen, h, hs]
  · simp only [State.srcCtCount, h, hs]
  · simp only [State.statusWord, State.busy, h, Option.isSome_some]

/-- Settles O34: the two cases of a presented value. -/
theorem witnessCapturedOnlyWhenRequested : Obligations.WitnessCapturedOnlyWhenRequested := by
  intro s w rest hs
  have hreq : ({ s with agenda := rest } : State).witReq = s.witReq := rfl
  refine ⟨_, step_cons hs, ?_, witReq_witnessArrives w _, fun hw => witnessArrives_ignored (hreq.trans hw),
    fun hw => ?_⟩
  · rcases witnessArrives_cases w { s with agenda := rest } with ⟨_, e⟩ | ⟨c, _, _, e⟩ <;> rw [e]
  · obtain ⟨c, hc, e⟩ := witnessArrives_captured (w := w) (hreq.trans hw)
    rw [e]
    exact ⟨c, hc, rfl, rfl, operands_of_running hc rfl rfl⟩

/-! ### Accesses of the control registers (spec/10_state.md R40) -/

theorem locate_ctrlOffset (c : Config) (r : CtrlReg) : locate c (ctrlOffset r) = some (.reg r) := by
  cases r <;> rfl

/-- The three busy-locked control registers (spec/20_memory.md R94). -/
theorem busyLocked_reg {r : CtrlReg} (h : r ≠ .sign ∧ r ≠ .msgLen ∧ r ≠ .ctCount) :
    (Loc.reg r).busyLocked = false := by
  obtain ⟨h1, h2, h3⟩ := h
  cases r with
  | sign => exact absurd rfl h1
  | msgLen => exact absurd rfl h2
  | ctCount => exact absurd rfl h3
  | _ => rfl

section
variable {s : State} {addr : Word} {be : BitVec 4} {r : CtrlReg}

/-- A full word access reaches its control register, if the busy lock lets it. -/
theorem target_ctrl (h : AccessOf s addr be r) (hb : s.busy = true → (Loc.reg r).busyLocked = false) :
    s.target addr be = some (.reg r) :=
  target_wordAt h (locate_ctrlOffset s.cfg r) hb

theorem busRead_ctrl (hr : s.rstN = true) (h : AccessOf s addr be r)
    (hb : s.busy = true → (Loc.reg r).busyLocked = false) :
    busRead addr be s = .next { s with busReply := some (.data (s.readReg r)) } :=
  busRead_data hr (target_ctrl h hb) rfl

theorem busWrite_ctrl (hr : s.rstN = true) (h : AccessOf s addr be r)
    (hb : s.busy = true → (Loc.reg r).busyLocked = false) (w : Word) :
    busWrite addr w be s = .next ((s.writeReg w r).reply (some .written)) :=
  busWrite_written hr (target_ctrl h hb) w

/-- While no command runs no location is locked. -/
theorem unlocked_of_idle (h : s.busy = false) (l : Loc) : s.busy = true → l.busyLocked = false :=
  fun hb => by rw [h] at hb; cases hb

end

/-! ### Sums of bits (spec/10_state.md R51) -/

/-- The sum of bits by weight is the number of those bits. -/
theorem sum_bits_eq : ∀ {n : Nat} (f : Fin n → Bool), ∑ i, (f i).toNat * 2 ^ i.val = Nat.ofBits f
  | 0, _ => rfl
  | n + 1, f => by
    have ih := sum_bits_eq (f ∘ Fin.succ)
    rw [Fin.sum_univ_succ, Nat.ofBits_succ, ← ih, Finset.mul_sum, Fin.val_zero, pow_zero, mul_one, Nat.add_comm]
    refine congrArg (· + _) (Finset.sum_congr rfl fun i _ => ?_)
    rw [Fin.val_succ, pow_succ', Function.comp_apply, mul_left_comm]

/-- SIGN reads as the sum of its sixteen bits. -/
theorem signWord_toNat (s : State) : s.signWord.toNat = ∑ r : Fin 16, (s.reg r).sign.toNat * 2 ^ r.val := by
  have hlt := Nat.ofBits_lt_two_pow fun r : Fin 16 => (s.reg r).sign
  have hfold : (List.finRange 16).foldl (fun acc r => acc + (s.reg r).sign.toNat * 2 ^ r.val) 0 =
      ∑ r : Fin 16, (s.reg r).sign.toNat * 2 ^ r.val := by
    rw [Fin.sum_univ_def, List.sum_eq_foldl, List.foldl_map]
  rw [State.signWord, hfold, sum_bits_eq, BitVec.toNat_ofNat]
  exact Nat.mod_eq_of_lt (hlt.trans (by decide))

/-! ### Read values of the control registers -/

theorem ErrCode.code_le (e : ErrCode) : e.code ≤ 9 := by cases e <;> decide

/-- STATUS is the sum of its fields (spec/10_state.md R49). -/
theorem statusWord_toNat (s : State) :
    s.statusWord.toNat = s.busy.toNat + 2 * s.done.toNat + 4 * s.ovr.toNat + 16 * s.err.code := by
  have hfields : ∀ b d o : Bool, ∀ c ≤ 9, (bitWord b ||| bitWord d <<< 1 ||| bitWord o <<< 2 |||
      BitVec.ofNat 32 c <<< 4).toNat = b.toNat + 2 * d.toNat + 4 * o.toNat + 16 * c := by decide
  exact hfields _ _ _ _ s.err.code_le

/-- FLAGS is the sum of its fields (spec/10_state.md R38). -/
theorem flagsWord_toNat (s : State) : s.flagsWord.toNat =
    s.flags.lt.toNat + 2 * s.flags.eq.toNat + 4 * s.flags.gt.toNat + 8 * s.flags.prime.toNat := by
  have hfields : ∀ l e g p : Bool, (bitWord l ||| bitWord e <<< 1 ||| bitWord g <<< 2 |||
      bitWord p <<< 3).toNat = l.toNat + 2 * e.toNat + 4 * g.toNat + 8 * p.toNat := by decide
  exact hfields _ _ _ _

theorem bitWord_toNat (b : Bool) : (bitWord b).toNat = b.toNat := by cases b <;> rfl

/-- A number below 2^32 is read as itself. -/
theorem toNat_ofNat_of_lt {n : Nat} (h : n < 2 ^ 32) : (BitVec.ofNat 32 n).toNat = n := by
  rw [BitVec.toNat_ofNat, Nat.mod_eq_of_lt h]

/-- Settles O55: one lemma per register with fields, and the bus read of a control register. -/
theorem controlReadsHaveTheirFields : Obligations.ControlReadsHaveTheirFields := by
  intro s hc
  have hW := width_le hc
  have hmsg := msgBytes_le hc
  have hct := ctWords_le hc
  refine ⟨rfl, toNat_ofNat_of_lt ?_, toNat_ofNat_of_lt (by omega), toNat_ofNat_of_lt (by omega),
    statusWord_toNat s, s.err.code_le, flagsWord_toNat s, bitWord_toNat s.ie, rfl, signWord_toNat s, rfl, rfl,
    fun addr be r hr h hb => busRead_ctrl hr h fun hbusy => busyLocked_reg (hb hbusy)⟩
  rw [Config.limbs]
  omega

/-! ### Writes of the control registers -/

/-- The acknowledge with its bits as choices (spec/10_state.md R47, R48). -/
theorem acknowledge_eq (s : State) (w : Word) : s.acknowledge w =
    { s with
      done := if w.getLsbD 1 then false else s.done
      ovr := if w.getLsbD 2 then false else s.ovr } := by
  unfold State.acknowledge
  cases w.getLsbD 1 <;> cases w.getLsbD 2 <;> simp

/-- A CTRL write with bit 1 clear sets IE alone, one with bit 1 set is a soft reset (spec/10_state.md R44). -/
theorem writeCtrl_enable {w : Word} (s : State) (h : w.getLsbD 1 = false) :
    s.writeCtrl w = { s with ie := w.getLsbD 0 } := by
  simp only [State.writeCtrl, h, Bool.false_eq_true, if_false]

theorem writeCtrl_reset {w : Word} (s : State) (h : w.getLsbD 1 = true) :
    s.writeCtrl w = State.softReset { s with ie := w.getLsbD 0 } := by
  simp only [State.writeCtrl, h, if_true]

/-- Settles O56: the bus write of a control register, one register after the other. -/
theorem controlWritesFollowTheirFields : Obligations.ControlWritesFollowTheirFields := by
  intro s addr w be hr
  refine ⟨fun r hro h => ?_, fun h => ?_, fun h => ⟨fun hw => ?_, fun hw => ?_⟩, fun h hb => ?_, fun h hb => ?_⟩
  · rcases hro with rfl | rfl | rfl | rfl | rfl <;> exact busWrite_ctrl hr h (fun _ => rfl) w
  · rw [busWrite_ctrl hr h (fun _ => rfl), State.writeReg, acknowledge_eq]
    rfl
  · rw [busWrite_ctrl hr h (fun _ => rfl), State.writeReg, writeCtrl_enable s hw]
    rfl
  · refine ⟨_, busWrite_ctrl hr h (fun _ => rfl) w, ?_, rfl⟩
    rw [State.writeReg, writeCtrl_reset s hw]
    rfl
  · exact busWrite_ctrl hr h (unlocked_of_idle hb _) w
  · exact busWrite_ctrl hr h (unlocked_of_idle hb _) w

/-! ### SIGN -/

/-- A write of SIGN changes the register file alone. -/
theorem writeSign_eq (s : State) (w : Word) : ∃ rs, s.writeSign w = { s with regs := rs } := ⟨_, rfl⟩

/-- A write of SIGN replaces every raw sign and no magnitude (spec/10_state.md R51). -/
theorem reg_writeSign (s : State) (w : Word) (r : RegNum) :
    (s.writeSign w).reg r = { s.reg r with sign := w.getLsbD r.val } := by
  simp [State.writeSign, State.reg, Vector.get_eq_getElem]

/-- SIGN reads back the sixteen bits written. -/
theorem signWord_writeSign (s : State) (w : Word) : (s.writeSign w).signWord = w &&& 0xFFFF := by
  apply BitVec.eq_of_toNat_eq
  rw [signWord_toNat]
  simp only [reg_writeSign, BitVec.getLsbD]
  rw [sum_bits_eq, Nat.ofBits_testBit, BitVec.toNat_and]
  exact (Nat.and_two_pow_sub_one_eq_mod w.toNat 16).symm

/-- Settles O53: the signs after a write of SIGN, and their sum read back. -/
theorem signWriteSetsRawSigns : Obligations.SignWriteSetsRawSigns := by
  intro s addr w be hr hb h
  have hwrite := busWrite_ctrl hr h (unlocked_of_idle hb _) w
  have hreg := reg_writeSign s w
  have hread := signWord_writeSign s w
  obtain ⟨rs, hrs⟩ := writeSign_eq s w
  rw [State.writeReg, hrs] at hwrite
  rw [hrs] at hreg hread
  refine ⟨_, hwrite, rfl, fun r => ?_, ?_⟩
  · have hr : rs.get r = _ := hreg r
    simp only [State.reg, State.reply, hr, and_self]
  · rw [← hread]
    exact busRead_ctrl (s := State.reply { s with regs := rs } _) hr h (unlocked_of_idle hb _)

/-! ### Limbs of a magnitude (spec/10_state.md R55) -/

section
variable (m j : Nat) (w : Word)

theorem two_pow_limb_succ (j : Nat) : 2 ^ (32 * (j + 1)) = 2 ^ 32 * 2 ^ (32 * j) := by
  rw [← pow_add]
  congr 1
  omega

/-- The bits above limb j, the word, and the bits below, in positional form. -/
theorem setLimb_eq : setLimb m j w =
    (m / 2 ^ (32 * (j + 1)) * 2 ^ 32 + w.toNat) * 2 ^ (32 * j) + m % 2 ^ (32 * j) := by
  rw [setLimb, add_mul, mul_assoc, ← two_pow_limb_succ]

theorem setLimb_div : setLimb m j w / 2 ^ (32 * j) = m / 2 ^ (32 * (j + 1)) * 2 ^ 32 + w.toNat := by
  rw [setLimb_eq, mul_comm, Nat.mul_add_div (Nat.two_pow_pos _),
    Nat.div_eq_of_lt (Nat.mod_lt _ (Nat.two_pow_pos _)), Nat.add_zero]

/-- The bits below limb j stay. -/
theorem setLimb_mod : setLimb m j w % 2 ^ (32 * j) = m % 2 ^ (32 * j) := by
  rw [setLimb_eq, Nat.mul_add_mod_self_right, Nat.mod_mod]

/-- The bits above limb j stay. -/
theorem setLimb_div_succ : setLimb m j w / 2 ^ (32 * (j + 1)) = m / 2 ^ (32 * (j + 1)) := by
  have hw := w.isLt
  rw [two_pow_limb_succ, mul_comm, ← Nat.div_div_eq_div_mul, setLimb_div, mul_comm (2 ^ (32 * j)),
    ← two_pow_limb_succ]
  omega

/-- Limb j is the word. -/
theorem setLimb_limb : setLimb m j w / 2 ^ (32 * j) % 2 ^ 32 = w.toNat := by
  rw [setLimb_div, Nat.mul_add_mod_self_right, Nat.mod_eq_of_lt w.isLt]

theorem limbOf_toNat : (limbOf m j).toNat = m / 2 ^ (32 * j) % 2 ^ 32 := by
  rw [limbOf, BitVec.toNat_ofNat]

theorem limbOf_setLimb_same : limbOf (setLimb m j w) j = w :=
  BitVec.eq_of_toNat_eq (by rw [limbOf_toNat, setLimb_limb])

variable {m j w}

/-- A limb below limb j depends on the bits below limb j alone. -/
theorem limbOf_of_mod_eq {m' j' : Nat} (h : m' % 2 ^ (32 * j) = m % 2 ^ (32 * j)) (hj : j' < j) :
    limbOf m' j' = limbOf m j' := by
  have hlow : ∀ x : Nat, x / 2 ^ (32 * j') % 2 ^ 32 =
      x % 2 ^ (32 * j) % (2 ^ (32 * j') * 2 ^ 32) / 2 ^ (32 * j') := fun x => by
    rw [Nat.mod_mod_of_dvd, Nat.mod_mul_right_div_self]
    rw [← pow_add]
    exact pow_dvd_pow 2 (by omega)
  apply BitVec.eq_of_toNat_eq
  rw [limbOf_toNat, limbOf_toNat, hlow, hlow m, h]

/-- A limb above limb j depends on the bits above limb j alone. -/
theorem limbOf_of_div_eq {m' j' : Nat} (h : m' / 2 ^ (32 * (j + 1)) = m / 2 ^ (32 * (j + 1))) (hj : j < j') :
    limbOf m' j' = limbOf m j' := by
  have hhigh : ∀ x : Nat, x / 2 ^ (32 * j') = x / 2 ^ (32 * (j + 1)) / 2 ^ (32 * (j' - (j + 1))) := fun x => by
    rw [Nat.div_div_eq_div_mul, ← pow_add]
    congr 2
    omega
  rw [limbOf, limbOf, hhigh, hhigh m, h]

theorem limbOf_setLimb_ne {j' : Nat} (h : j' ≠ j) : limbOf (setLimb m j w) j' = limbOf m j' := by
  rcases Nat.lt_or_gt_of_ne h with hlt | hgt
  · exact limbOf_of_mod_eq (setLimb_mod m j w) hlt
  · exact limbOf_of_div_eq (setLimb_div_succ m j w) hgt

/-- A limb write keeps a magnitude inside its W bits: the bits above limb j decide. -/
theorem setLimb_lt {W : Nat} (hm : m < 2 ^ W) (hj : 32 * (j + 1) ≤ W) : setLimb m j w < 2 ^ W := by
  have hpow : 2 ^ W = 2 ^ (W - 32 * (j + 1)) * 2 ^ (32 * (j + 1)) := by rw [← pow_add, Nat.sub_add_cancel hj]
  rw [hpow, ← Nat.div_lt_iff_lt_mul (Nat.two_pow_pos _)] at hm ⊢
  rwa [setLimb_div_succ]

end

/-- A limb below L lies inside the W bits (spec/00_scope.md R6, R7). -/
theorem limb_le_width {c : Config} {j : Nat} (h : j < c.limbs) : 32 * (j + 1) ≤ c.W := by
  rw [Config.limbs] at h
  omega

/-! ### The limb windows -/

/-- Limb j of register i in the address map (spec/20_memory.md R95). -/
theorem locate_limb {c : Config} (hc : c.valid) (i : RegNum) {j : Nat} (hj : j < c.limbs) :
    locate c (0x00010000 + i.val * 0x1000 + 4 * j) = some (.limb i j) := by
  have hL := limb_le_width hj
  have hW := width_le hc
  have hi := i.isLt
  have hj' : (0x00010000 + i.val * 0x1000 + 4 * j) % 0x1000 / 4 = j := by omega
  have hi' : (0x00010000 + i.val * 0x1000 + 4 * j - 0x00010000) / 0x1000 = i.val := by omega
  rw [locate, if_neg (by omega), if_neg (by omega), if_pos (by omega)]
  simp only [hj', hi', if_pos hj]
  rw [Fin.ofNat_val_eq_self]

/-- Settles O52: a limb write is setLimb on one magnitude. -/
theorem limbWriteReplaces32Bits : Obligations.LimbWriteReplaces32Bits := by
  intro s addr w be i j hinv hr hb hj h
  have hloc := locate_limb hinv.cfg i hj
  have hunlocked := unlocked_of_idle hb (.limb i j)
  have hwrite := busWrite_written hr (target_wordAt h hloc hunlocked) w
  generalize ht : (s.writeLoc w (.limb i j)).reply (some .written) = t at hwrite
  have hreg : ∀ r, t.reg r = if r = i then { s.reg i with mag := setLimb (s.reg i).mag j w } else s.reg r :=
    fun r => ht ▸ s.reg_setReg i r _
  have hi : t.reg i = { s.reg i with mag := setLimb (s.reg i).mag j w } := by rw [hreg, if_pos rfl]
  have hread : t.readLoc (.limb i j) = some w := by
    rw [State.readLoc, hi, limbOf_setLimb_same]
  refine ⟨⟨_, busRead_data hr (target_wordAt h hloc hunlocked) rfl, limbOf_toNat _ _⟩, t, hwrite, ?_⟩
  refine ⟨by rw [← ht]; rfl, ?_, ?_⟩
  · subst ht
    exact busRead_data hr (target_wordAt h hloc hunlocked) hread
  · rw [hi]
    exact ⟨setLimb_limb _ _ _, setLimb_mod _ _ _, setLimb_div_succ _ _ _,
      setLimb_lt (hinv.mags i) (limb_le_width hj), rfl, fun _ => limbOf_setLimb_ne,
      fun r hri => by rw [hreg, if_neg (by simpa using hri)]⟩

end Sys2Proof.Machine
end

section
/-! SUPPORT. The invariant: what of it is data that every operation keeps, what of it speaks of the running command,
and that every move of every agent keeps both (spec/10_state.md R31, R45, R46, spec/20_memory.md R94, R95). -/

namespace Sys2Proof.Machine

/-! ### Memory inside the two buffers (spec/20_memory.md R95) -/

/-- Memory in canonical form that lists only offsets of the two buffers. -/
structure MemOk (c : Config) (m : List Host.Cell) : Prop where
  wf : memWf m = true
  within : ∀ x ∈ m, inBuffers c x.1 = true

theorem MemOk.nil (c : Config) : MemOk c [] := ⟨rfl, fun _ h => by cases h⟩

theorem inBuffers_msg {c : Config} {a : Nat} (h1 : msgAddr 0 ≤ a) (h2 : a < msgAddr c.msgBytes) :
    inBuffers c a = true := by
  simp only [msgAddr] at h1 h2
  simp only [inBuffers, Bool.or_eq_true, Bool.and_eq_true, decide_eq_true_eq]
  omega

/-- An entry fills at most its 4 KiB slot (spec/00_scope.md R6). -/
theorem entryBytes_le {c : Config} (h : c.valid) : entryBytes c ≤ 0x1000 := by
  have hW := width_le h
  simp only [entryBytes, Config.limbs]
  omega

theorem inBuffers_ct {c : Config} (hc : c.valid) {k a : Nat} (hk : k < c.ctWords) (h1 : ctAddr k ≤ a)
    (h2 : a < ctAddr k + entryBytes c) : inBuffers c a = true := by
  have hle := entryBytes_le hc
  simp only [ctAddr] at h1 h2
  have hslot : (a - 0x01000000) / 0x1000 = k := by omega
  have hbyte : (a - 0x01000000) % 0x1000 < entryBytes c := by omega
  simp only [inBuffers, Bool.or_eq_true, Bool.and_eq_true, decide_eq_true_eq, hslot]
  exact .inr ⟨⟨by omega, hk⟩, hbyte⟩

section
variable {c : Config} {m : List Host.Cell}

/-- A write of bytes inside the buffers. -/
theorem MemOk.writeBytes (h : MemOk c m) {a : Nat} {bs : List Byte}
    (hin : ∀ x, a ≤ x → x < a + bs.length → inBuffers c x = true) : MemOk c (memWriteBytes m a bs) :=
  ⟨memWf_memWriteBytes bs m a h.wf, fun x hx =>
    (mem_memWriteBytes bs hx).elim (fun hr => hin _ hr.1 hr.2) (h.within x)⟩

theorem MemOk.msgWrite (h : MemOk c m) {off : Nat} {bs : List Byte} (hlen : off + bs.length ≤ c.msgBytes) :
    MemOk c (memWriteBytes m (msgAddr off) bs) :=
  h.writeBytes fun x h1 h2 => by
    simp only [msgAddr] at h1 h2
    exact inBuffers_msg (by simp only [msgAddr]; omega) (by simp only [msgAddr]; omega)

theorem MemOk.ctWrite (h : MemOk c m) (hc : c.valid) {vs : List Nat} (hlen : vs.length ≤ c.ctWords) :
    MemOk c (ctWriteFrom (entryBytes c) m 0 vs) :=
  ⟨memWf_ctWriteFrom _ vs m 0 h.wf, fun x hx =>
    (mem_ctWriteFrom vs hx).elim (fun ⟨j, hj, h1, h2⟩ => inBuffers_ct hc (by omega) h1 h2) (h.within x)⟩

/-- A word written at limb j of CTMEM entry k. -/
theorem MemOk.ctWord (h : MemOk c m) (hc : c.valid) {k j : Nat} (hk : k < c.ctWords) (hj : j < c.limbs)
    (w : Word) : MemOk c (memWriteBytes m (ctAddr k + 4 * j) (bytesOfWord w)) :=
  h.writeBytes fun x h1 h2 => by
    rw [show (bytesOfWord w).length = 4 from rfl] at h2
    exact inBuffers_ct hc hk (by omega) (by rw [entryBytes]; omega)

end

/-- What a reset does to memory while a command runs stays inside its output buffer (spec/30_encoding.md R146). -/
theorem MemOk.abandon {s : State} (h : MemOk s.cfg s.mem) (hc : s.cfg.valid) : MemOk s.cfg s.abandon.mem := by
  unfold State.abandon
  split
  · exact h
  · split
    · exact ⟨memWf_scrambleCt _ _ _ h.wf, fun x hx =>
        (mem_scrambleCt _ _ _ hx).elim (fun ⟨j, _, hj, h1, h2⟩ => inBuffers_ct hc (by omega) h1 h2) (h.within x)⟩
    · exact h.msgWrite (by rw [length_freeBytes, Nat.zero_add])
    · dsimp only
      split_ifs with hcheck
      · exact h
      · exact h.msgWrite (by rw [length_freeBytes]; omega)
    · exact h

/-! ### The data of the invariant -/

/-- At most one of LT, EQ, GT is set (spec/10_state.md R38, R39). -/
def Flags.AtMostOne (f : Flags) : Prop :=
  ¬ (f.lt = true ∧ f.eq = true) ∧ ¬ (f.lt = true ∧ f.gt = true) ∧ ¬ (f.eq = true ∧ f.gt = true)

theorem atMostOne_compareFlags (f : Flags) (a b : Int) : (compareFlags f a b).AtMostOne := by
  simp only [Flags.AtMostOne, compareFlags, decide_eq_true_eq]
  omega

/-- The part of the invariant that speaks of the parameters, the registers, the memory and the flags. -/
structure DataOk (s : State) : Prop where
  cfg : s.cfg.valid
  mags : ∀ r, (s.reg r).mag < 2 ^ s.cfg.W
  mem : MemOk s.cfg s.mem
  flags : s.flags.AtMostOne

theorem Inv.data {s : State} (h : Inv s) : DataOk s := ⟨h.cfg, h.mags, ⟨h.memWf, h.memIn⟩, h.flags⟩

section
variable {s : State}

/-- With no command running and out of reset the data are all of the invariant. -/
theorem DataOk.inv (h : DataOk s) (hr : s.running = none) (hn : s.rstN = true) : Inv s :=
  .of_idle h.cfg h.mags h.mem.wf h.mem.within h.flags hr hn

theorem DataOk.setReg (h : DataOk s) (d : RegNum) {v : BigReg} (hv : v.mag < 2 ^ s.cfg.W) :
    DataOk (s.setReg d v) :=
  ⟨h.cfg, fun r => by
    rw [State.reg_setReg]
    split_ifs
    · exact hv
    · exact h.mags r, h.mem, h.flags⟩

theorem DataOk.setB (h : DataOk s) (d : RegNum) {v : Int} (hv : v.natAbs < 2 ^ s.cfg.W) : DataOk (s.setB d v) :=
  h.setReg d hv

/-- A change of memory, and of what the data do not speak of. -/
theorem DataOk.of_mem {t : State} (h : DataOk s) (hc : t.cfg = s.cfg) (hr : t.regs = s.regs)
    (hf : t.flags = s.flags) (hm : MemOk s.cfg t.mem) : DataOk t :=
  ⟨hc ▸ h.cfg, fun r => by rw [State.reg, hr, hc]; exact h.mags r, hc ▸ hm, hf ▸ h.flags⟩

theorem DataOk.complete (h : DataOk s) (e : ErrCode) : DataOk (s.complete e) := h.of_mem rfl rfl rfl h.mem

theorem DataOk.setCompare (h : DataOk s) (a b : Int) : DataOk (s.setCompare a b) :=
  ⟨h.cfg, h.mags, h.mem, atMostOne_compareFlags _ a b⟩

theorem DataOk.setPrime (h : DataOk s) (p : Bool) : DataOk (s.setPrime p) := ⟨h.cfg, h.mags, h.mem, h.flags⟩

theorem DataOk.setAnswers (h : DataOk s) (ws : List Nat) : DataOk (s.setAnswers ws) :=
  h.of_mem rfl rfl rfl h.mem

/-- A reset register is 0. -/
theorem reg_clearCore (s : State) (r : RegNum) : s.clearCore.reg r = ⟨false, 0⟩ := by
  simp [State.clearCore, State.reg, Vector.get_eq_getElem]

theorem abandon_cfg (s : State) : s.abandon.cfg = s.cfg := by rw [abandon_eq]

theorem abandon_rstN (s : State) : s.abandon.rstN = s.rstN := by rw [abandon_eq]

theorem DataOk.softReset (h : DataOk s) : DataOk s.softReset where
  cfg := by
    show s.abandon.cfg.valid
    rw [abandon_cfg]
    exact h.cfg
  mags r := by
    rw [State.softReset, reg_clearCore]
    exact Nat.two_pow_pos _
  mem := by
    show MemOk s.abandon.cfg s.abandon.mem
    rw [abandon_cfg]
    exact h.mem.abandon h.cfg
  flags := by simp [Flags.AtMostOne, State.softReset, State.clearCore]

/-! ### The running command -/

/-- The running command depends on CMD, the registers and the lengths alone. -/
theorem RunningOk.congr {t : State} {c : Running} (h : RunningOk s c) (hcmd : t.cmd = s.cmd)
    (hregs : t.regs = s.regs) (hmsg : t.msgLen = s.msgLen) (hct : t.ctCount = s.ctCount) : RunningOk t c := by
  have hB : ∀ r, t.B r = s.B r := fun r => by simp only [State.B, State.reg, hregs]
  have hsnap : ∀ i, t.snapshotFor i = s.snapshotFor i := fun i => by
    simp only [State.snapshotFor, hB, hmsg, hct]
  exact ⟨by rw [hcmd]; exact h.word, by simpa only [hsnap] using h.snap, h.trials, h.oneRequest, by
    simpa only [hB] using h.waits⟩

/-- A running command reads the registers as they are (spec/30_encoding.md R143). -/
theorem Inv.src_eq {c : Running} (h : Inv s) (hc : s.running = some c) (r : RegNum) : s.src r = s.B r := by
  obtain ⟨i, _, hsnap⟩ := (h.running c hc).snap
  exact src_of_snapshot i hc hsnap r

theorem Inv.sourcesFit {c : Running} (h : Inv s) (hc : s.running = some c) : SourcesFit s :=
  ⟨h.cfg, fun r => by
    rw [h.src_eq hc, State.B, BigReg.natAbs_value]
    exact h.mags r⟩

/-- While a command runs rst_n is 1. -/
theorem Inv.rstN_of_running {c : Running} (h : Inv s) (hc : s.running = some c) : s.rstN = true := by
  by_contra hn
  have := (h.inReset (by simpa using hn)).1
  rw [hc] at this
  cases this

/-- The invariant says nothing of OVR, the last answer and the agenda; DONE may fall, IE changes out of reset. -/
theorem Inv.shell (h : Inv s) {ie done ovr : Bool} {r : Option BusReply} {es : List Event}
    (hd : done = true → s.done = true) (hie : s.rstN = false → ie = false) :
    Inv { s with ie := ie, done := done, ovr := ovr, busReply := r, agenda := es } where
  cfg := h.cfg
  mags := h.mags
  memWf := h.memWf
  memIn := h.memIn
  busyDone hr := by
    have := h.busyDone hr
    cases done with
    | false => rfl
    | true => rw [hd rfl] at this; cases this
  busyErr := h.busyErr
  flags := h.flags
  running c hc := (h.running c hc).congr rfl rfl rfl rfl
  inReset hr := by
    obtain ⟨hrun, hdone, _⟩ := h.inReset hr
    refine ⟨hrun, ?_, hie hr⟩
    cases done with
    | false => rfl
    | true => rw [hd rfl] at hdone; cases hdone

theorem Inv.ie_inReset (h : Inv s) (hr : s.rstN = false) : s.ie = false := (h.inReset hr).2.2

theorem Inv.reply (h : Inv s) (r : Option BusReply) : Inv (s.reply r) := h.shell id h.ie_inReset

theorem Inv.agenda (h : Inv s) (es : List Event) : Inv { s with agenda := es } := h.shell id h.ie_inReset

/-! ### Issue -/

/-- An issue out of reset (spec/30_encoding.md R141, R143). -/
theorem Inv.issue (h : Inv s) (w : Word) (hn : s.rstN = true) : Inv (s.issue w) := by
  cases hw : decodeWord w with
  | error e =>
    rw [issue_illegal s hw]
    exact DataOk.inv (h.data.of_mem rfl rfl rfl h.data.mem) rfl hn
  | ok i =>
    rw [issue_legal s hw]
    exact
      { cfg := h.cfg
        mags := h.mags
        memWf := h.memWf
        memIn := h.memIn
        busyDone := fun _ => rfl
        busyErr := fun _ => rfl
        flags := h.flags
        running := fun c hc => by
          cases hc
          refine ⟨rfl, ⟨i, hw, rfl⟩, fun _ _ imm _ => ?_, fun _ => rfl, by simp⟩
          simp only [roundsOf]
          split <;> omega
        inReset := fun hf => by rw [show s.rstN = true from hn] at hf; cases hf }

/-! ### The core's turn -/

/-- What ISPRIME's first lines leave open is odd and at least 5 (spec/43_primality.md R280). -/
theorem odd_of_primeWithoutWitness {n : Nat} (h : primeWithoutWitness n = none) : 5 ≤ n ∧ n % 2 = 1 := by
  unfold primeWithoutWitness at h
  split_ifs at h
  omega

/-- A wait for a witness (spec/10_state.md R85, spec/43_primality.md R284). -/
theorem Inv.await {c : Running} {d a : RegNum} {imm : Imm8} {n passed : Nat} (h : Inv s)
    (hc : s.running = some c) (hd : decodeWord c.word = .ok (.isprime d a imm)) (hn : s.src a = n)
    (ho : primeWithoutWitness n = none) (hp : passed < roundsOf imm - s.trialsPassed) :
    Inv (s.await passed) where
  cfg := h.cfg
  mags := h.mags
  memWf := h.memWf
  memIn := h.memIn
  busyDone _ := h.busyDone (by simp [hc])
  busyErr _ := h.busyErr (by simp [hc])
  flags := h.flags
  running c' hc' := by
    have hok := h.running c hc
    rw [State.await_running, hc] at hc'
    cases hc'
    have ht : s.trialsPassed = c.trials := by rw [State.trialsPassed, hc]
    obtain ⟨h5, hodd⟩ := odd_of_primeWithoutWitness ho
    have hB : s.B a = n := by rw [← h.src_eq hc, hn]
    refine ⟨hok.word, hok.snap, fun d' a' imm' hd' => ?_, fun _ => rfl, fun _ => ⟨d, a, imm, hd, ?_⟩⟩
    · cases hd.symm.trans hd'
      show c.trials + passed < roundsOf imm
      omega
    · show 0 ≤ s.B a ∧ 5 ≤ s.B a ∧ s.B a % 2 = 1
      omega
  inReset hr := by rw [State.await_rstN, h.rstN_of_running hc] at hr; cases hr

/-- Every effect keeps the data. -/
theorem Effect.data {i : Instr} {t : State} (he : Effect s i (.next t)) (h : DataOk s) (hf : SourcesFit s) :
    DataOk t := by
  have fits : ∀ n < 2 ^ 64, n < 2 ^ s.cfg.W := fun _ => fits_of_lt h.cfg
  cases he with
  | error | nop => exact h.complete _
  | result _ hv => exact (h.setB _ (hv hf)).complete _
  | egcd hg hx hy => exact (((h.setB _ (hg hf)).setB _ hx).setB _ hy).complete _
  | compare => exact (h.setCompare _ _).complete _
  | verdict p rest =>
    refine (((h.setAnswers rest).setB _ ?_).setPrime p).complete _
    cases p <;> exact fits _ (by decide)
  | badWitness rest => exact (h.setAnswers rest).complete _
  | wait => exact h.of_mem rfl rfl rfl h.mem
  | i2b _ _ hlen =>
    have hmsg := msgBytes_le h.cfg
    have hmem : DataOk (s.msgWrite _ _) := h.of_mem rfl rfl rfl (h.mem.msgWrite hlen)
    exact (hmem.setB _ (fits _ (by omega))).complete _
  | encrypt _ hnb hm =>
    refine h.of_mem rfl rfl rfl (h.mem.ctWrite h.cfg ?_)
    rwa [length_encryptBytes, length_of_memReadBytes hm]
  | decrypt _ _ _ hlen => exact h.of_mem rfl rfl rfl (h.mem.msgWrite (by rwa [Nat.zero_add]))
  | decryptTooLong =>
    exact h.of_mem rfl rfl rfl (h.mem.msgWrite (by rw [length_freeBytes, Nat.zero_add]))

/-- A command that goes on has completed, or it is ISPRIME and waits. -/
theorem Effect.idle_or_waits {i : Instr} {t : State} (he : Effect s i (.next t)) : t.running = none ∨
    ∃ d a imm n passed, i = .isprime d a imm ∧ s.src a = (n : Nat) ∧ primeWithoutWitness n = none ∧
      passed < roundsOf imm - s.trialsPassed ∧ t = s.await passed := by
  cases he with
  | wait hn ho hp => exact .inr ⟨_, _, _, _, _, rfl, hn, ho, hp, rfl⟩
  | _ => exact .inl rfl

/-- The core's turn (spec/10_state.md R61). -/
theorem Inv.coreTurn {t : State} (h : Inv s) (ht : coreTurn s = .next t) : Inv t ∧ t.cfg = s.cfg := by
  cases hc : s.running with
  | none =>
    rw [coreTurn_idle hc] at ht
    cases ht
    exact ⟨h, rfl⟩
  | some c =>
    obtain ⟨i, hd, _⟩ := (h.running c hc).snap
    rw [coreTurn_running hc hd] at ht
    have he : Effect s i (.next t) := ht ▸ exec_effect i
    refine ⟨?_, he.shell.cfg⟩
    rcases he.idle_or_waits with hr | ⟨d, a, imm, n, passed, rfl, hn, ho, hp, rfl⟩
    · exact (he.data h.data (h.sourcesFit hc)).inv hr (he.shell.rstN.trans (h.rstN_of_running hc))
    · exact h.await hc hd hn ho hp

/-! ### The host's accesses -/

/-- The parameters of a location are in range (spec/20_memory.md R95). -/
def Loc.Mapped (c : Config) : Loc → Prop
  | .reg _ => True
  | .limb _ j => j < c.limbs
  | .msg off => off % 4 = 0 ∧ off < c.msgBytes
  | .ct k j => k < c.ctWords ∧ j < c.limbs

theorem mapped_of_locate {c : Config} {off : Nat} {l : Loc} (h : locate c off = some l) : l.Mapped c := by
  unfold locate at h
  dsimp only at h
  split_ifs at h with h4 _ _ hj _ _ hmsg _ hct
  · obtain ⟨r, _, rfl⟩ := Option.map_eq_some_iff.1 h
    trivial
  · cases h
    exact hj
  · cases h
    exact ⟨by omega, hmsg⟩
  · cases h
    exact hct

/-- A CTRL write: IE, and with bit 1 a soft reset (spec/10_state.md R44). -/
theorem Inv.writeCtrl (h : Inv s) (w : Word) (hn : s.rstN = true) : Inv (s.writeCtrl w) := by
  have hie : Inv { s with ie := w.getLsbD 0 } := h.shell id fun hr => by rw [hn] at hr; cases hr
  cases hw : w.getLsbD 1 with
  | false => rwa [writeCtrl_enable s hw]
  | true =>
    rw [writeCtrl_reset s hw]
    exact hie.data.softReset.inv rfl ((abandon_rstN _).trans hn)

/-- A CMD write: an issue, or OVR (spec/30_encoding.md R141, R142). -/
theorem Inv.writeCmd (h : Inv s) (w : Word) (hn : s.rstN = true) : Inv (s.writeCmd w) := by
  unfold State.writeCmd
  split_ifs
  · exact h.shell id h.ie_inReset
  · exact h.issue w hn

/-- A STATUS write (spec/10_state.md R47, R48). -/
theorem Inv.acknowledge (h : Inv s) (w : Word) : Inv (s.acknowledge w) :=
  h.shell (fun hd => (Bool.and_eq_true_iff.1 hd).1) h.ie_inReset

/-- A SIGN write changes no magnitude (spec/10_state.md R51). -/
theorem Inv.writeSign (h : Inv s) (w : Word) (hr : s.running = none) (hn : s.rstN = true) :
    Inv (s.writeSign w) := by
  have hreg := reg_writeSign s w
  obtain ⟨rs, hrs⟩ := writeSign_eq s w
  rw [hrs] at hreg ⊢
  exact DataOk.inv ⟨h.cfg, fun r => by rw [hreg]; exact h.mags r, h.data.mem, h.flags⟩ hr hn

/-- A write of any location it reaches: the busy-locked ones are written while no command runs. -/
theorem Inv.writeLoc {addr : Word} {be : BitVec 4} {l : Loc} (h : Inv s) (w : Word) (hn : s.rstN = true)
    (ht : s.target addr be = some l) : Inv (s.writeLoc w l) := by
  obtain ⟨_, _, _, hloc, _⟩ := target_eq_some ht
  have hmap := mapped_of_locate hloc
  cases l with
  | reg r =>
    cases r with
    | id | param | msgcap | ctcap | flags => exact h
    | ctrl => exact h.writeCtrl w hn
    | status => exact h.acknowledge w
    | cmd => exact h.writeCmd w hn
    | sign => exact h.writeSign w (idle_of_target ht rfl) hn
    | msgLen | ctCount =>
      exact DataOk.inv (h.data.of_mem rfl rfl rfl h.data.mem) (idle_of_target ht rfl) hn
  | limb i j =>
    exact (h.data.setReg i (setLimb_lt (h.mags i) (limb_le_width hmap))).inv (idle_of_target ht rfl) hn
  | msg off =>
    have hlen : off + (bytesOfWord w).length ≤ s.cfg.msgBytes := by
      obtain ⟨h4, hlt⟩ := hmap
      have hm4 := msgBytes_mod h.cfg
      rw [show (bytesOfWord w).length = 4 from rfl]
      omega
    exact DataOk.inv (h.data.of_mem rfl rfl rfl (h.data.mem.msgWrite hlen)) (idle_of_target ht rfl) hn
  | ct k j =>
    obtain ⟨hk, hj⟩ := hmap
    exact DataOk.inv (h.data.of_mem rfl rfl rfl (h.data.mem.ctWord h.cfg hk hj w)) (idle_of_target ht rfl) hn

theorem issue_cfg (s : State) (w : Word) : (s.issue w).cfg = s.cfg := by
  cases hw : decodeWord w with
  | error e => rw [issue_illegal s hw]
  | ok i => rw [issue_legal s hw]

theorem writeCtrl_cfg (s : State) (w : Word) : (s.writeCtrl w).cfg = s.cfg := by
  cases hw : w.getLsbD 1 with
  | false => rw [writeCtrl_enable s hw]
  | true =>
    rw [writeCtrl_reset s hw]
    exact abandon_cfg _

theorem writeCmd_cfg (s : State) (w : Word) : (s.writeCmd w).cfg = s.cfg := by
  unfold State.writeCmd
  split_ifs
  · rfl
  · exact issue_cfg s w

theorem writeSign_cfg (s : State) (w : Word) : (s.writeSign w).cfg = s.cfg := by
  obtain ⟨rs, hrs⟩ := writeSign_eq s w
  rw [hrs]

/-- No write changes the parameters (log 1). -/
theorem writeLoc_cfg (s : State) (w : Word) (l : Loc) : (s.writeLoc w l).cfg = s.cfg := by
  cases l with
  | limb | msg | ct => rfl
  | reg r =>
    cases r with
    | ctrl => exact writeCtrl_cfg s w
    | cmd => exact writeCmd_cfg s w
    | sign => exact writeSign_cfg s w
    | _ => rfl

theorem Inv.busRead {t : State} {addr : Word} {be : BitVec 4} (h : Inv s) (ht : busRead addr be s = .next t) :
    Inv t ∧ t.cfg = s.cfg := by
  obtain ⟨r, rfl⟩ := busRead_next ht
  exact ⟨h.reply r, rfl⟩

theorem Inv.busWrite {t : State} {addr w : Word} {be : BitVec 4} (h : Inv s)
    (ht : busWrite addr w be s = .next t) : Inv t ∧ t.cfg = s.cfg := by
  rcases busWrite_next ht with ⟨r, rfl⟩ | ⟨hn, l, hl, rfl⟩
  · exact ⟨h.reply r, rfl⟩
  · exact ⟨(h.writeLoc w hn hl).reply _, writeLoc_cfg s w l⟩

/-! ### The witness source and the reset pin -/

/-- A captured witness closes the request it answers (spec/10_state.md R85). -/
theorem Inv.witnessArrives (h : Inv s) (w : Nat) : Inv (witnessArrives w s) ∧ (witnessArrives w s).cfg = s.cfg := by
  rcases witnessArrives_cases w s with ⟨_, e⟩ | ⟨c, hc, hw, e⟩ <;> rw [e]
  · exact ⟨h, rfl⟩
  · have hok := h.running c hc
    have hrun : s.running ≠ none := by simp [hc]
    refine ⟨?_, rfl⟩
    exact
      { cfg := h.cfg
        mags := h.mags
        memWf := h.memWf
        memIn := h.memIn
        busyDone := fun _ => h.busyDone hrun
        busyErr := fun _ => h.busyErr hrun
        flags := h.flags
        running := fun c' hc' => by
          cases hc'
          exact ⟨hok.word, hok.snap, hok.trials, fun hf => absurd hf Bool.false_ne_true,
            fun _ => hok.waits (.inl hw)⟩
        inReset := fun hr => absurd (h.inReset hr).1 hrun }

/-- The reset pin at either level (spec/10_state.md R82, spec/70_reset_and_hazards.md R460). -/
theorem Inv.resetPin (h : Inv s) (level : Bool) : Inv (resetPin level s) ∧ (resetPin level s).cfg = s.cfg := by
  unfold Machine.resetPin
  split_ifs
  · exact ⟨h, rfl⟩
  · refine ⟨?_, rfl⟩
    exact
      { cfg := h.cfg
        mags := fun r => by
          show (s.clearCore.reg r).mag < _
          rw [reg_clearCore]
          exact Nat.two_pow_pos _
        memWf := rfl
        memIn := fun _ hx => by cases hx
        busyDone := fun hr => absurd rfl hr
        busyErr := fun hr => absurd rfl hr
        flags := by simp [State.hardReset, State.clearCore]
        running := fun c hc => by cases hc
        inReset := fun _ => ⟨rfl, rfl, rfl⟩ }

/-! ### Every step -/

/-- Every move of every agent. -/
theorem Inv.handle {t : State} (h : Inv s) (e : Event) (ht : handle e s = .next t) : Inv t ∧ t.cfg = s.cfg := by
  cases e with
  | busRead addr be => exact h.busRead ht
  | busWrite addr data be => exact h.busWrite ht
  | witValid w =>
    cases ht
    exact h.witnessArrives w
  | rst level =>
    cases ht
    exact h.resetPin level
  | core => exact h.coreTurn ht

end

/-- Settles O60: a step is the core's turn or one move of the agenda, and each keeps the invariant. -/
theorem everyStepKeepsInv : Obligations.EveryStepKeepsInv := by
  intro s t h ht
  rcases step_cases s with ⟨_, e⟩ | ⟨ev, rest, _, e⟩
  · exact h.coreTurn (e ▸ ht)
  · exact (h.agenda rest).handle ev (e ▸ ht)

end Sys2Proof.Machine
end

section
/-! SUPPORT. The host bus: the address map as a table of offsets, the refused accesses, the busy lock, and the words of
the two buffer windows (spec/20_memory.md R91 to R100). -/

namespace Sys2Proof.Machine

/-! ### The address map (spec/20_memory.md R95) -/

/-- The offset of a location, the row of the table of spec/20_memory.md R95 it stands in. -/
def Loc.offset : Loc → Nat
  | .reg r => ctrlOffset r
  | .limb i j => 0x00010000 + i.val * 0x1000 + 4 * j
  | .msg off => msgAddr off
  | .ct k j => ctAddr k + 4 * j

theorem ctrlRegAt_eq_some {off : Nat} {r : CtrlReg} (h : ctrlRegAt off = some r) : off = ctrlOffset r := by
  unfold ctrlRegAt at h
  split_ifs at h <;> cases h <;> assumption

section
variable {c : Config} {off : Nat} {l : Loc}

/-- An offset reaches no location but the one whose offset it is. -/
theorem offset_of_locate (h : locate c off = some l) : off = l.offset := by
  unfold locate at h
  dsimp only at h
  split_ifs at h
  · obtain ⟨r, hr, rfl⟩ := Option.map_eq_some_iff.1 h
    exact ctrlRegAt_eq_some hr
  · cases h
    simp only [Loc.offset, Fin.val_ofNat]
    omega
  · cases h
    simp only [Loc.offset, msgAddr]
    omega
  · cases h
    simp only [Loc.offset, ctAddr]
    omega

theorem locate_msg (hc : c.valid) (h4 : off % 4 = 0) (hlt : off < c.msgBytes) :
    locate c (msgAddr off) = some (.msg off) := by
  have hmsg := msgBytes_le hc
  rw [msgAddr, locate, if_neg (by omega), if_neg (by omega), if_neg (by omega), if_neg (by omega), if_pos (by omega),
    Nat.add_sub_cancel_left, if_pos hlt]

/-- Limb j of CTMEM entry k lies in the slot of that entry (spec/20_memory.md R97). -/
theorem locate_ct (hc : c.valid) {k j : Nat} (hk : k < c.ctWords) (hj : j < c.limbs) :
    locate c (ctAddr k + 4 * j) = some (.ct k j) := by
  have hL := limb_le_width hj
  have hW := width_le hc
  have hct := ctWords_le hc
  have hk' : (0x01000000 + k * 0x1000 + 4 * j - 0x01000000) / 0x1000 = k := by omega
  have hj' : (0x01000000 + k * 0x1000 + 4 * j) % 0x1000 / 4 = j := by omega
  rw [ctAddr, locate, if_neg (by omega), if_neg (by omega), if_neg (by omega), if_neg (by omega), if_neg (by omega),
    if_pos (by omega)]
  simp only [hk', hj', if_pos (And.intro hk hj)]

theorem locate_offset (hc : c.valid) (h : l.Mapped c) : locate c l.offset = some l := by
  cases l with
  | reg r => exact locate_ctrlOffset c r
  | limb i j => exact locate_limb hc i h
  | msg off => exact locate_msg hc h.1 h.2
  | ct k j => exact locate_ct hc h.1 h.2

/-- The address map is the table: an offset reaches a location exactly when the location exists and stands there. -/
theorem locate_eq_some_iff (hc : c.valid) : locate c off = some l ↔ l.Mapped c ∧ off = l.offset :=
  ⟨fun h => ⟨mapped_of_locate h, offset_of_locate h⟩, fun ⟨hm, ho⟩ => ho ▸ locate_offset hc hm⟩

end

/-- Settles O48: the table at each kind of location. -/
theorem addressMapIsTheTable : Obligations.AddressMapIsTheTable := by
  intro c off hc
  refine ⟨fun r => ?_, fun i j => locate_eq_some_iff hc, fun o => ?_, fun k j => ?_⟩
  · exact (locate_eq_some_iff hc).trans (iff_of_eq (true_and _))
  · exact (locate_eq_some_iff hc).trans (and_assoc.trans and_left_comm)
  · exact (locate_eq_some_iff hc).trans and_assoc

/-! ### Refused accesses and reads (spec/20_memory.md R92, R93, R94, R98) -/

/-- Every location but the eight control registers of spec/20_memory.md R94 is busy-locked. -/
theorem busyLocked_of_ne {l : Loc} (hid : l ≠ .reg .id) (hparam : l ≠ .reg .param) (hmsgcap : l ≠ .reg .msgcap)
    (hctcap : l ≠ .reg .ctcap) (hctrl : l ≠ .reg .ctrl) (hstatus : l ≠ .reg .status) (hflags : l ≠ .reg .flags)
    (hcmd : l ≠ .reg .cmd) : l.busyLocked = true := by
  cases l with
  | limb | msg | ct => rfl
  | reg r =>
    cases r with
    | sign | msgLen | ctCount => rfl
    | id | param | msgcap | ctcap | ctrl | status | flags | cmd => contradiction

/-- Settles O49: such an access reaches no location, for one it reaches meets none of the five conditions. -/
theorem badAccessIsBusErrorWithoutEffect : Obligations.BadAccessIsBusErrorWithoutEffect := by
  intro s addr data be hr hbad
  have ht : s.target addr be = none := by
    refine Option.eq_none_iff_forall_ne_some.2 fun l hl => ?_
    obtain ⟨hbe, h4, hbase, hloc, hunlocked⟩ := target_eq_some hl
    rcases hbad with h | h | h | h | ⟨hbusy, l', hl', hid, hparam, hmsgcap, hctcap, hctrl, hstatus, hflags, hcmd⟩
    · exact h hbe
    · exact h h4
    · omega
    · rw [hloc] at h; cases h
    · cases hloc.symm.trans hl'
      have := busyLocked_of_ne hid hparam hmsgcap hctcap hctrl hstatus hflags hcmd
      rw [hunlocked hbusy] at this
      cases this
  exact ⟨busRead_refused hr ht, busWrite_refused hr ht data⟩

/-- Only a word of a buffer can be UNINIT (spec/20_memory.md R100). -/
theorem buffer_of_readLoc_none {s : State} {l : Loc} (h : s.readLoc l = none) :
    (∃ off, l = .msg off) ∨ ∃ k j, l = .ct k j := by
  cases l with
  | reg | limb => cases h
  | msg off => exact .inl ⟨off, rfl⟩
  | ct k j => exact .inr ⟨k, j, rfl⟩

/-- Settles O50: a read that goes on is its answer, the word of the location it reaches. -/
theorem readsHaveNoSideEffect : Obligations.ReadsHaveNoSideEffect := by
  intro s addr be
  refine ⟨fun t ht => ?_, fun l hr hl => ⟨fun w hw => busRead_data hr hl hw, fun hw => ?_⟩⟩
  · obtain ⟨r, rfl⟩ := busRead_next ht
    rfl
  · exact ⟨busRead_uninit hr hl hw, buffer_of_readLoc_none hw⟩

/-! ### The running command (spec/20_memory.md R94, spec/30_encoding.md R143) -/

/-- The lengths a running command reads are those of the state. -/
theorem Inv.srcLengths_eq {s : State} {c : Running} (h : Inv s) (hc : s.running = some c) :
    s.srcMsgLen = s.msgLen.toNat ∧ s.srcCtCount = s.ctCount.toNat := by
  obtain ⟨i, _, hsnap⟩ := (h.running c hc).snap
  simp only [State.srcMsgLen, State.srcCtCount, hc, hsnap, State.snapshotFor, and_self]

/-- Settles O11: by the invariant the snapshot is the one of this state. -/
theorem snapshotIsWhatRegistersHold : Obligations.SnapshotIsWhatRegistersHold := by
  intro s h
  cases hc : s.running with
  | none => exact ⟨src_idle hc, by rw [State.srcMsgLen, hc], by rw [State.srcCtCount, hc]⟩
  | some c => exact ⟨h.src_eq hc, h.srcLengths_eq hc⟩

/-- While a command runs a write of an unlocked location that is no soft reset changes IE, DONE and OVR at most
(spec/20_memory.md R94, spec/30_encoding.md R142). -/
theorem writeLoc_busy {s : State} {l : Loc} {w : Word} (hb : s.busy = true) (hl : l.busyLocked = false)
    (hw : ¬ (l = .reg .ctrl ∧ w.getLsbD 1 = true)) :
    ∃ ie done ovr, s.writeLoc w l = { s with ie := ie, done := done, ovr := ovr } := by
  cases l with
  | limb | msg | ct => cases hl
  | reg r =>
    cases r with
    | sign | msgLen | ctCount => cases hl
    | id | param | msgcap | ctcap | flags | status => exact ⟨_, _, _, rfl⟩
    | ctrl => exact ⟨_, _, _, writeCtrl_enable s (by simpa using hw)⟩
    | cmd => exact ⟨_, _, _, if_pos hb⟩

/-- Settles O51: a write that reaches a location while a command runs changes IE, DONE and OVR at most. -/
theorem hostCannotDisturbRunningCommand : Obligations.HostCannotDisturbRunningCommand := by
  intro s t addr data be hb ht hsrst
  have hframe : ∃ ie done ovr r, t = { s with ie := ie, done := done, ovr := ovr, busReply := r } := by
    rcases busWrite_next ht with ⟨r, rfl⟩ | ⟨_, l, hl, rfl⟩
    · exact ⟨_, _, _, r, rfl⟩
    · obtain ⟨_, _, _, _, hunlocked⟩ := target_eq_some hl
      obtain ⟨ie, done, ovr, e⟩ := writeLoc_busy hb (hunlocked hb) fun ⟨he, hw⟩ => hsrst ⟨he ▸ hl, hw⟩
      rw [e]
      exact ⟨ie, done, ovr, _, rfl⟩
  obtain ⟨ie, done, ovr, r, rfl⟩ := hframe
  exact ⟨rfl, rfl, rfl, ⟨rfl, rfl⟩, rfl, rfl, rfl, rfl, rfl⟩

/-! ### Words of bytes (spec/20_memory.md R91) -/

theorem wordOfBytes_toNat (b0 b1 b2 b3 : Byte) : (wordOfBytes b0 b1 b2 b3).toNat =
    b0.toNat + b1.toNat * 2 ^ 8 + b2.toNat * 2 ^ 16 + b3.toNat * 2 ^ 24 := by
  have happ {n : Nat} (x : BitVec n) (y : Byte) : (x ++ y).toNat = x.toNat * 2 ^ 8 + y.toNat := by
    rw [BitVec.toNat_append, ← Nat.shiftLeft_add_eq_or_of_lt y.isLt, Nat.shiftLeft_eq]
  simp only [wordOfBytes, happ]
  ring

/-- Byte i of a word is its base-256 digit i. -/
theorem bytesOfWord_getElem? (w : Word) {i : Nat} (h : i < 4) :
    (bytesOfWord w)[i]? = some (BitVec.ofNat 8 (w.toNat / 2 ^ (8 * i))) := by
  rw [← Nat.shiftRight_eq_div_pow]
  interval_cases i <;> rfl

/-- A word is the word of its bytes. -/
theorem wordOfBytes_bytesOfWord (w : Word) :
    wordOfBytes (w.extractLsb' 0 8) (w.extractLsb' 8 8) (w.extractLsb' 16 8) (w.extractLsb' 24 8) = w := by
  have hw := w.isLt
  apply BitVec.eq_of_toNat_eq
  simp only [wordOfBytes_toNat, BitVec.extractLsb'_toNat, Nat.shiftRight_eq_div_pow]
  omega

/-! ### The buffer windows (spec/20_memory.md R96, R97, R100) -/

/-- One unwritten byte leaves the bytes without a value. -/
theorem memReadBytes_eq_none {m : List Host.Cell} : ∀ {n a i : Nat}, i < n → memRead m (a + i) = none →
    memReadBytes m a n = none
  | n + 1, a, 0, _, h => by simp only [memReadBytes, show memRead m a = none from h]
  | n + 1, a, i + 1, hi, h => by
    have ih : memReadBytes m (a + 1) n = none :=
      memReadBytes_eq_none (i := i) (by omega) (by rwa [Nat.add_assoc, Nat.add_comm 1 i])
    cases hm : memRead m a <;> simp only [memReadBytes, hm, ih]

theorem bufferWord_of_bytes {s : State} {a : Nat} {b0 b1 b2 b3 : Byte}
    (h : memReadBytes s.mem a 4 = some [b0, b1, b2, b3]) : s.bufferWord a = some (wordOfBytes b0 b1 b2 b3) := by
  rw [State.bufferWord, h]

theorem bufferWord_eq_none {s : State} {a i : Nat} (hi : i < 4) (h : memRead s.mem (a + i) = none) :
    s.bufferWord a = none := by
  rw [State.bufferWord, memReadBytes_eq_none hi h]

/-- A stored word reads back. -/
theorem bufferWord_memWriteBytes {s t : State} {a : Nat} {w : Word}
    (h : t.mem = memWriteBytes s.mem a (bytesOfWord w)) : t.bufferWord a = some w := by
  rw [bufferWord_of_bytes (h ▸ memReadBytes_memWriteBytes s.mem a (bytesOfWord w)), wordOfBytes_bytesOfWord]

/-- The location at a word of either window reads and writes the buffer word there. -/
theorem locate_bufferWord {c : Config} {a : Nat} (hc : c.valid)
    (ha : (∃ off, off < c.msgBytes ∧ off % 4 = 0 ∧ a = 0x00100000 + off) ∨
      ∃ k j, k < c.ctWords ∧ j < c.limbs ∧ a = 0x01000000 + k * 0x1000 + 4 * j) :
    ∃ l, locate c a = some l ∧ (∀ s : State, s.readLoc l = s.bufferWord a) ∧
      ∀ (s : State) (w : Word), s.writeLoc w l = { s with mem := memWriteBytes s.mem a (bytesOfWord w) } := by
  rcases ha with ⟨off, hlt, h4, rfl⟩ | ⟨k, j, hk, hj, rfl⟩
  · exact ⟨_, locate_msg hc h4 hlt, fun _ => rfl, fun _ _ => rfl⟩
  · exact ⟨_, locate_ct hc hk hj, fun _ => rfl, fun _ _ => rfl⟩

/-- Settles O54: both windows read and write one buffer word. -/
theorem bufferWordReadsBackLittleEndian : Obligations.BufferWordReadsBackLittleEndian := by
  intro s addr w be a hc hr hb hat ha
  obtain ⟨l, hloc, hread, hwrite⟩ := locate_bufferWord hc ha
  have htarget := target_wordAt hat hloc (unlocked_of_idle hb l)
  have hmem := memRead_memWriteBytes (bytesOfWord w) s.mem a
  rw [show (bytesOfWord w).length = 4 from rfl] at hmem
  refine ⟨fun b0 b1 b2 b3 h0 h1 h2 h3 => ?_, fun ⟨i, hi, hnone⟩ => ?_, ?_⟩
  · have hbytes : memReadBytes s.mem a 4 = some [b0, b1, b2, b3] := by
      simp only [memReadBytes, Nat.add_assoc, Nat.reduceAdd, h0, h1, h2, h3]
    exact ⟨_, busRead_data hr htarget ((hread s).trans (bufferWord_of_bytes hbytes)), wordOfBytes_toNat b0 b1 b2 b3⟩
  · exact busRead_uninit hr htarget ((hread s).trans (bufferWord_eq_none hi hnone))
  · refine ⟨_, (busWrite_written hr htarget w).trans (by rw [hwrite]), rfl, ?_, fun i hi => ?_, fun x hx => ?_⟩
    · exact busRead_data hr (target_wordAt hat hloc (unlocked_of_idle hb l))
        ((hread _).trans (bufferWord_memWriteBytes rfl))
    · exact (hmem _).trans (by rw [if_pos (by omega), Nat.add_sub_cancel_left, bytesOfWord_getElem? w hi])
    · exact (hmem x).trans (if_neg hx)

end Sys2Proof.Machine
end

section
/-! SUPPORT. The command word: which row of the opcode map a word decodes by, decode and encode as inverses of each
other, and the issue of a word by a write of CMD (spec/30_encoding.md). -/

namespace Sys2Proof

/-! ### The fields of a word (spec/30_encoding.md R131) -/

/-- The word of format C with these fields. -/
def Fields.word (op : BitVec 8) (f : Fields) : Word := formatC op f.rd f.rs1 f.rs2 f.rs3 f.imm

theorem fieldsOf_word (op : BitVec 8) (f : Fields) : fieldsOf (f.word op) = f := fieldsOf_formatC ..

theorem opcodeOf_toNat (w : Word) : (opcodeOf w).toNat = w.toNat % 256 := by
  rw [opcodeOf, BitVec.extractLsb'_toNat, Nat.shiftRight_zero]

theorem regField_val (w : Word) (lo : Nat) : (regField w lo).val = w.toNat / 2 ^ lo % 16 := by
  rw [← Nat.shiftRight_eq_div_pow]
  rfl

/-- A word is its opcode and its fields, no bit left over. -/
theorem word_fieldsOf (w : Word) : (fieldsOf w).word (opcodeOf w) = w := by
  have himm : (w.extractLsb' 24 8).toNat = w.toNat / 2 ^ 24 % 256 := by
    rw [BitVec.extractLsb'_toNat, Nat.shiftRight_eq_div_pow]
  have hw := w.isLt
  apply BitVec.eq_of_toNat_eq
  simp only [Fields.word, fieldsOf, Machine.formatC_toNat, opcodeOf_toNat, regField_val, himm]
  omega

theorem reg_and_ones (r : RegNum) : r &&& 15 = r := by revert r; decide

theorem imm_and_ones (m : Imm8) : m &&& 0xFF = m := BitVec.and_allOnes

/-- Every row's pattern is its opcode with the fields 0 (spec/30_encoding.md R136). -/
theorem opcodeRows_pattern : ∀ row ∈ opcodeRows, row.pattern = Fields.word row.opcode ⟨0, 0, 0, 0, 0⟩ := by decide

/-- A word whose reserved bits are 0 is what its row's command encodes to, row by row of the map (spec/30_encoding.md
R133, R136). -/
theorem encode_build : ∀ row ∈ opcodeRows, ∀ f : Fields, f.word row.opcode &&& row.mask = row.pattern →
    encode (row.build f) = f.word row.opcode := by
  intro row hrow f hf
  replace hf := congrArg fieldsOf (hf.trans (opcodeRows_pattern row hrow))
  rw [fieldsOf_word] at hf
  fin_cases hrow <;>
  · simp only [mask_none, mask_rd_rs1, mask_rd_imm, mask_rd_rs1_rs2, mask_rs1_rs2, mask_rd_rs1_imm,
      mask_rd_rs1_rs2_rs3, Fields.word, formatC_and, fieldsOf_formatC, reg_and_zero, reg_and_ones, imm_and_zero,
      imm_and_ones, Fields.mk.injEq, true_and] at hf
    simp only [encode, Fields.word, hf]

/-! ### Decoding by rows (spec/30_encoding.md R137, R139) -/

section
variable {w : Word} {row : OpcodeRow} {i : Instr}

/-- An opcode has at most one row. -/
theorem row_unique {row' : OpcodeRow} (h : row ∈ opcodeRows) (h' : row' ∈ opcodeRows)
    (ho : row.opcode = row'.opcode) : row = row' :=
  List.inj_on_of_nodup_map (List.pairwise_map.2 opcodeRows_distinct) h h' ho

/-- The search of the map finds the row of the word's opcode. -/
theorem find_row (h : row ∈ opcodeRows) (ho : row.opcode = opcodeOf w) :
    opcodeRows.find? (fun r => r.opcode == opcodeOf w) = some row := by
  cases hfind : opcodeRows.find? (fun r => r.opcode == opcodeOf w) with
  | none => exact absurd (beq_iff_eq.2 ho) (List.find?_eq_none.1 hfind row h)
  | some row' =>
    have ho' : row'.opcode = opcodeOf w := by simpa using List.find?_some hfind
    rw [row_unique h (List.mem_of_find?_eq_some hfind) (ho.trans ho'.symm)]

theorem decodeWord_unlisted (h : ∀ row ∈ opcodeRows, row.opcode ≠ opcodeOf w) :
    decodeWord w = .error .unlistedOpcode := by
  have hfind : opcodeRows.find? (fun r => r.opcode == opcodeOf w) = none :=
    List.find?_eq_none.2 fun row hrow ho => h row hrow (beq_iff_eq.1 ho)
  simp only [decodeWord, hfind]

/-- The two tests of a word of a listed opcode (spec/30_encoding.md R139). -/
theorem decodeWord_listed (h : row ∈ opcodeRows) (ho : row.opcode = opcodeOf w) : decodeWord w =
    if w &&& row.mask ≠ row.pattern then .error .reservedBitSet
    else if (row.build (fieldsOf w)).wellFormed then .ok (row.build (fieldsOf w)) else .error .egcdDestination := by
  simp only [decodeWord, find_row h ho]

/-- What a decoded word is: its row's opcode and pattern, and the row's command of its fields, well formed. -/
theorem decodeWord_ok (h : decodeWord w = .ok i) : ∃ row ∈ opcodeRows, row.opcode = opcodeOf w ∧
    w &&& row.mask = row.pattern ∧ row.build (fieldsOf w) = i ∧ i.wellFormed = true := by
  by_cases hlisted : ∃ row ∈ opcodeRows, row.opcode = opcodeOf w
  · obtain ⟨row, hrow, ho⟩ := hlisted
    rw [decodeWord_listed hrow ho] at h
    split_ifs at h with hreserved hwf
    cases h
    exact ⟨row, hrow, ho, not_not.1 hreserved, rfl, hwf⟩
  · push Not at hlisted
    rw [decodeWord_unlisted hlisted] at h
    cases h

end

/-! ### Decode and encode (spec/30_encoding.md R133, R136) -/

/-- The word of every command is in its row of the opcode map. -/
theorem encode_inRow : (i : Instr) → Laws.Encoding.Statement i
  | .nop => Laws.Encoding.nop
  | .mov .. => Laws.Encoding.mov ..
  | .ldi .. => Laws.Encoding.ldi ..
  | .add .. => Laws.Encoding.add ..
  | .sub .. => Laws.Encoding.sub ..
  | .cmp .. => Laws.Encoding.cmp ..
  | .shl .. => Laws.Encoding.shl ..
  | .shr .. => Laws.Encoding.shr ..
  | .shli .. => Laws.Encoding.shli ..
  | .shri .. => Laws.Encoding.shri ..
  | .bitlen .. => Laws.Encoding.bitlen ..
  | .ctz .. => Laws.Encoding.ctz ..
  | .mul .. => Laws.Encoding.mul ..
  | .modmul .. => Laws.Encoding.modmul ..
  | .mod .. => Laws.Encoding.mod ..
  | .modpow .. => Laws.Encoding.modpow ..
  | .egcd .. => Laws.Encoding.egcd ..
  | .gcd .. => Laws.Encoding.gcd ..
  | .modinv .. => Laws.Encoding.modinv ..
  | .isprime .. => Laws.Encoding.isprime ..
  | .b2i .. => Laws.Encoding.b2i ..
  | .i2b .. => Laws.Encoding.i2b ..
  | .encrypt .. => Laws.Encoding.encrypt ..
  | .decrypt .. => Laws.Encoding.decrypt ..

/-- Settles O2: the command's row passes the tests of decode and builds the command back. -/
theorem decodeInvertsEncode : Obligations.DecodeInvertsEncode := by
  intro i hwf
  obtain ⟨row, hrow, ho, hmask, hbuild⟩ := encode_inRow i
  rw [decodeWord_listed hrow ho, if_neg (not_not.2 hmask), hbuild, if_pos hwf]

/-- Settles O3: the row the word decodes by leaves it no bit but its fields. -/
theorem legalWordIsEncodingOfItsCommand : Obligations.LegalWordIsEncodingOfItsCommand := by
  intro w i h
  obtain ⟨row, hrow, ho, hmask, rfl, hwf⟩ := decodeWord_ok h
  have hw : (fieldsOf w).word row.opcode = w := ho ▸ word_fieldsOf w
  exact ⟨(encode_build row hrow _ (hw.symm ▸ hmask)).trans hw, hwf⟩

/-- Decode reads the four bytes of a word and leaves the rest (spec/20_memory.md R91). -/
theorem decode_bytesOfWord (w : Word) (rest : List Byte) :
    decode (bytesOfWord w ++ rest) = (decodeWord w).map fun i => (i, rest) := by
  simp only [bytesOfWord, List.cons_append, List.nil_append, decode, Machine.wordOfBytes_bytesOfWord]

/-- Settles O4: the word of the four bytes is the command's word. -/
theorem bytesDecodeLittleEndian : Obligations.BytesDecodeLittleEndian := by
  intro i rest hwf
  refine ⟨?_, _, _, _, _, rfl, ?_⟩
  · rw [encodeBytes, decode_bytesOfWord, decodeInvertsEncode i hwf]
    rfl
  · rw [← Machine.wordOfBytes_toNat, Machine.wordOfBytes_bytesOfWord]

/-! ### Illegal words (spec/30_encoding.md R137) -/

/-- A word that encodes no well-formed command is illegal. -/
theorem decodeWord_error_of_no_encoding {w : Word} (h : ∀ i : Instr, i.wellFormed = true → encode i ≠ w) :
    ∃ e, decodeWord w = .error e := by
  cases hd : decodeWord w with
  | error e => exact ⟨e, rfl⟩
  | ok i =>
    obtain ⟨hencode, hwf⟩ := legalWordIsEncodingOfItsCommand w i hd
    exact absurd hencode (h i hwf)

/-- The opcodes no row of the map has (spec/30_encoding.md R137 (a)). -/
abbrev UnlistedOpcode (op : Nat) : Prop :=
  op = 0 ∨ (0x06 ≤ op ∧ op ≤ 0x0F) ∨ (0x17 ≤ op ∧ op ≤ 0x1F) ∨ (0x23 ≤ op ∧ op ≤ 0x2F) ∨
    (0x31 ≤ op ∧ op ≤ 0x3F) ∨ (0x43 ≤ op ∧ op ≤ 0x4F) ∨ (0x51 ≤ op ∧ op ≤ 0x5F) ∨ (0x64 ≤ op ∧ op ≤ 0xFF)

theorem opcodeRows_listed : ∀ row ∈ opcodeRows, ¬ UnlistedOpcode row.opcode.toNat := by decide

/-- EGCD with rd above 13 passes the test of its reserved bits and is refused (spec/30_encoding.md R137 (c)). -/
theorem decodeWord_egcdDestination {w : Word} (ho : opcodeOf w = 0x40) (hmask : w &&& 0xFFF000FF = 0x00000040)
    (hrd : 13 < (regField w 8).val) : decodeWord w = .error .egcdDestination := by
  have hwf : (Instr.egcd (regField w 8) (regField w 12) (regField w 16)).wellFormed = false :=
    decide_eq_false (by omega)
  have hegcd := decodeWord_listed (List.mem_of_getElem? (l := opcodeRows) (i := 16) rfl) ho.symm
  rw [hegcd, if_neg (not_not.2 hmask)]
  exact if_neg (Bool.eq_false_iff.1 hwf)

/-- Settles O5: no row, a row whose reserved bits are not 0, or EGCD's destination. -/
theorem illegalWordsAreRejectedByName : Obligations.IllegalWordsAreRejectedByName := by
  refine ⟨fun w hop => decodeWord_unlisted fun row hrow ho => ?_, fun w row hrow ho hmask => ?_,
    fun w hop hmask hrd => decodeWord_egcdDestination ?_ hmask (by rwa [regField_val])⟩
  · refine opcodeRows_listed row hrow ?_
    rw [ho, opcodeOf_toNat]
    exact hop
  · rw [decodeWord_listed hrow ho, if_pos hmask]
  · exact BitVec.eq_of_toNat_eq ((opcodeOf_toNat w).trans hop)

/-- Settles O1: the spec's words, one by one. -/
theorem specWordsDecode : Obligations.SpecWordsDecode := by
  unfold Obligations.SpecWordsDecode
  decide

end Sys2Proof

namespace Sys2Proof.Machine

/-! ### The issue of a command (spec/30_encoding.md R141, R143) -/

theorem writeCmd_busy {s : State} {w : Word} (h : s.busy = true) : s.writeCmd w = { s with ovr := true } :=
  if_pos h

theorem writeCmd_idle {s : State} {w : Word} (h : s.busy = false) : s.writeCmd w = s.issue w :=
  if_neg (Bool.eq_false_iff.1 h)

/-- The state after the issue of a well-formed command's word. -/
theorem issue_encode {i : Instr} (s : State) (hwf : i.wellFormed = true) : s.issue (encode i) =
    { s with
      cmd := encode i
      err := .none
      done := false
      running := some
        { word := encode i, snap := s.snapshotFor i, trials := 0, witReq := false, captured := none } } :=
  issue_legal s (decodeInvertsEncode i hwf)

/-- Settles O9: an idle write of CMD is the issue, which ends in the same step. -/
theorem illegalWordCompletesAtOnce : Obligations.IllegalWordCompletesAtOnce := by
  intro s addr w be hr hb hat hw
  obtain ⟨e, he⟩ := decodeWord_error_of_no_encoding hw
  refine ⟨_, ?_, rfl, ⟨rfl, rfl, rfl⟩, Bool.true_and _⟩
  rw [busWrite_ctrl hr hat (fun _ => rfl), State.writeReg, writeCmd_idle hb, issue_illegal s he]
  rfl

/-- Settles O6: a step is its first move, and a core's turn the execution of the running command. -/
theorem stepRunsTheRunningCommand : Obligations.StepRunsTheRunningCommand := by
  refine fun s => ⟨fun c i hc hd => ⟨fun ha => ?_, fun rest ha => ?_⟩,
    fun hidle => ⟨fun ha => ?_, fun rest ha => ?_⟩, fun addr be rest ha => step_cons ha,
    fun addr data be rest ha => step_cons ha⟩
  · exact (step_empty ha).trans (coreTurn_running hc hd)
  · exact (step_cons ha).trans (coreTurn_running hc hd)
  · exact (step_empty ha).trans (coreTurn_idle hidle)
  · exact (step_cons ha).trans (coreTurn_idle hidle)

/-- A placed word is the word of the issue, and the core moves first (log 5). -/
theorem step_withFetchWord (s : State) (w : Word) : step (s.withFetchWord 32 w.toNat) = coreTurn (s.issue w) := by
  rw [State.withFetchWord, Nat.mod_eq_of_lt w.isLt, BitVec.ofNat_toNat, BitVec.setWidth_eq]
  exact step_cons (s := s.withCommand w) rfl

theorem decodeTableWord_encode {i : Instr} (hwf : i.wellFormed = true) :
    decodeTableWord 32 (encode i).toNat = some i := by
  have hdecode := (bytesDecodeLittleEndian i [] hwf).1
  rw [List.append_nil, encodeBytes] at hdecode
  rw [decodeTableWord, Nat.mod_eq_of_lt (encode i).isLt, BitVec.ofNat_toNat, BitVec.setWidth_eq, hdecode]

/-- Settles O7: the core's turn on the state just after the issue. -/
theorem fetchedWordRunsAtNextStep : Obligations.FetchedWordRunsAtNextStep := by
  intro s i hwf
  have hissue := issue_encode s hwf
  refine ⟨(step_withFetchWord s _).trans ?_, ?_, decodeTableWord_encode hwf⟩
  · exact coreTurn_running (congrArg State.running hissue) (decodeInvertsEncode i hwf)
  · rw [hissue]
    rfl

/-- Settles O8: the issue's snapshot is the one of the state it leaves. -/
theorem cmdWriteIssuesAndTakesSnapshot : Obligations.CmdWriteIssuesAndTakesSnapshot := by
  intro s addr be i hr hb hat hwf
  refine ⟨_, ⟨encode i, s.snapshotFor i, 0, false, none⟩, ?_, rfl, rfl, rfl, rfl, rfl, src_of_snapshot i rfl rfl,
    rfl, rfl, rfl, rfl, rfl, rfl⟩
  rw [busWrite_ctrl hr hat (fun _ => rfl), State.writeReg, writeCmd_idle hb, issue_encode s hwf]
  rfl

/-- Settles O10: a write of CMD by a busy core sets OVR alone. -/
theorem cmdWriteWhileBusyIsDropped : Obligations.CmdWriteWhileBusyIsDropped := by
  intro s addr w be hr hb hat
  rw [busWrite_ctrl hr hat (fun _ => rfl), State.writeReg, writeCmd_busy hb]
  rfl

end Sys2Proof.Machine
end

section
/-! SUPPORT. The multiplier unit: the reference multiplication, and the commands MUL, MODMUL and MOD
(spec/40_multiplier.md). -/

namespace Sys2Proof.Machine

/-! ### Decimal digits and the split (spec/40_multiplier.md R201) -/

theorem ndigitsFuel_eq : ∀ {fuel v : Nat}, v ≤ fuel → ndigitsFuel fuel v = Nat.log 10 v + 1
  | 0, v, h => by rw [Nat.le_zero.1 h, ndigitsFuel, Nat.log_zero_right]
  | fuel + 1, v, h => by
    rw [ndigitsFuel]
    split_ifs with h10
    · rw [Nat.log_of_lt h10]
    · rw [ndigitsFuel_eq (by omega), Nat.log_of_one_lt_of_le (by decide) (not_lt.1 h10)]

theorem ndigits_eq (v : Nat) : ndigits v = Nat.log 10 v + 1 := ndigitsFuel_eq le_rfl

theorem max_ndigits (x y : Nat) : max (ndigits x) (ndigits y) = ndigits (max x y) := by
  have hmono : Monotone ndigits := fun a b h => by
    rw [ndigits_eq, ndigits_eq]
    exact Nat.succ_le_succ (Nat.log_mono_right h)
  exact hmono.map_max.symm

/-- The midpoint of a number of two digits or more leaves a digit on both sides. -/
theorem midpoint_bounds {v : Nat} (h : 10 ≤ v) : 2 ≤ 10 ^ (ndigits v / 2) ∧ 10 ^ (ndigits v / 2) ≤ v := by
  have hlog : 0 < Nat.log 10 v := Nat.log_pos (by decide) h
  rw [ndigits_eq]
  exact ⟨(show 2 ≤ 10 by decide).trans (Nat.le_self_pow (by omega) 10), Nat.pow_le_of_le_log (by omega) (by omega)⟩

section
variable {p x y : Nat}

theorem mod_add_two_mul_div_le (x : Nat) (hp : 2 ≤ p) : x % p + 2 * (x / p) ≤ x :=
  (Nat.add_le_add_left (Nat.mul_le_mul_right _ hp) _).trans (Nat.mod_add_div x p).le

/-- A split that reaches the larger of two numbers lowers their sum: that of the low halves, of all halves, of the high
halves. -/
theorem halves_sum_lt (hp : 2 ≤ p) (hle : p ≤ max x y) : x % p + y % p < x + y ∧
    x % p + x / p + (y % p + y / p) < x + y ∧ x / p + y / p < x + y := by
  have hx := mod_add_two_mul_div_le x hp
  have hy := mod_add_two_mul_div_le y hp
  have hhigh : 0 < x / p + y / p := by
    rcases le_max_iff.1 hle with h | h
    · exact Nat.add_pos_left (Nat.div_pos h (by omega)) _
    · exact Nat.add_pos_right _ (Nat.div_pos h (by omega))
  omega

end

/-! ### The recursion (spec/40_multiplier.md R202, R203) -/

/-- The middle difference is the sum of the cross products (spec/40_multiplier.md R202 (a)). -/
theorem cross_products (h1 l1 h2 l2 : Nat) :
    (l1 + h1) * (l2 + h2) - h1 * h2 - l1 * l2 = l1 * h2 + h1 * l2 := by
  have hexpand : (l1 + h1) * (l2 + h2) = l1 * h2 + h1 * l2 + l1 * l2 + h1 * h2 := by ring
  rw [hexpand, Nat.add_sub_cancel, Nat.add_sub_cancel]

/-- The combination of the products of the halves is the product of the numbers. -/
theorem combine_halves (m x y : Nat) :
    x / 10 ^ m * (y / 10 ^ m) * 10 ^ (2 * m) + ((x % 10 ^ m + x / 10 ^ m) * (y % 10 ^ m + y / 10 ^ m) -
      x / 10 ^ m * (y / 10 ^ m) - x % 10 ^ m * (y % 10 ^ m)) * 10 ^ m + x % 10 ^ m * (y % 10 ^ m) = x * y := by
  rw [cross_products]
  conv_rhs => rw [← Nat.mod_add_div x (10 ^ m), ← Nat.mod_add_div y (10 ^ m)]
  ring

theorem karatsubaFuel_eq : ∀ {fuel x y : Nat}, x + y < fuel → karatsubaFuel fuel x y = x * y
  | fuel + 1, x, y, h => by
    rw [karatsubaFuel]
    split_ifs with hbase
    · rfl
    · obtain ⟨hx, -⟩ := not_or.1 hbase
      obtain ⟨hp, hle⟩ := midpoint_bounds ((not_lt.1 hx).trans (le_max_left x y))
      obtain ⟨hlow, hall, hhigh⟩ := halves_sum_lt hp hle
      dsimp only
      rw [max_ndigits, karatsubaFuel_eq (x := _ % _) (by omega), karatsubaFuel_eq (x := _ + _) (by omega),
        karatsubaFuel_eq (x := _ / _) (by omega), combine_halves]

theorem karatsuba_eq (x y : Nat) : karatsuba x y = x * y := karatsubaFuel_eq (Nat.lt_succ_self _)

/-- Settles O23: the fuel is above the sum of the factors, which every recursion lowers. -/
theorem karatsubaIsProduct : Obligations.KaratsubaIsProduct := fun x y => ⟨karatsuba_eq x y, (karatsuba_eq x y).symm⟩

/-! ### Refused sources (spec/10_state.md R35) -/

section
variable {s : State} {a b c : RegNum}

theorem endsNeg_two (h : s.src a < 0 ∨ s.src b < 0) (go : Nat → Nat → Result) :
    EndsWritingNothing .neg s (s.natSrc a fun x => s.natSrc b (go x)) := by
  rw [natSrc_refuses_two (by simpa using h)]
  exact endsWritingNothing_raise s .neg

theorem endsNeg_three (h : s.src a < 0 ∨ s.src b < 0 ∨ s.src c < 0) (go : Nat → Nat → Nat → Result) :
    EndsWritingNothing .neg s (s.natSrc a fun x => s.natSrc b fun y => s.natSrc c (go x y)) := by
  rw [natSrc_refuses_three (by simpa using h)]
  exact endsWritingNothing_raise s .neg

end

/-! ### MUL, MODMUL, MOD (spec/40_multiplier.md R204 to R206) -/

section
variable (s : State) (d a b c : RegNum)

theorem exec_mul : exec (.mul d a b) s =
    s.natSrc a fun x => s.natSrc b fun y => s.writeChecked d (mmProduct x y) := rfl

theorem exec_modmul : exec (.modmul d a b c) s =
    s.natSrc a fun x => s.natSrc b fun y => s.natSrc c fun z =>
      if z = 0 then s.raise .div0 else (s.setB d (mmProduct x y % z : Nat)).commit := rfl

theorem exec_mod : exec (.mod d a b) s =
    s.natSrc a fun x => s.natSrc b fun y =>
      if y = 0 then s.raise .div0 else (s.setB d (x % y : Nat)).commit := rfl

end

/-- The product of the MM unit on two non-negative integers. -/
theorem mmProduct_toNat {x y : Int} (hx : 0 ≤ x) (hy : 0 ≤ y) : (mmProduct x.toNat y.toNat : Int) = x * y := by
  rw [mmProduct, Nat.cast_mul, Int.toNat_of_nonneg hx, Int.toNat_of_nonneg hy]

/-- Settles O20: the sources are checked first, then the product. -/
theorem mulExactOrOverflow : Obligations.MulExactOrOverflow := by
  intro s d a b
  rw [exec_mul]
  refine ⟨⟨by simp [encode, formatC_toNat], rfl⟩, fun h => endsNeg_two h _, fun ha hb hW => ?_, fun ha hb hW => ?_⟩
  · rw [natSrc_nonneg ha, natSrc_nonneg hb, mmProduct_toNat ha hb, writeChecked_overflow]
    · exact endsWritingNothing_raise s .overflow
    · zify
      rwa [abs_of_nonneg (mul_nonneg ha hb)]
  · rw [natSrc_nonneg ha, natSrc_nonneg hb, mmProduct_toNat ha hb, writeChecked_fits]
    · exact endsWritingReg_commit s d _
    · zify
      rwa [abs_of_nonneg (mul_nonneg ha hb)]

/-- Settles O21: the sources are checked first, then the modulus. -/
theorem modmulAndModReduce : Obligations.ModmulAndModReduce := by
  intro s d a b c
  rw [exec_modmul, exec_mod]
  refine ⟨⟨⟨by simp [encode, formatC_toNat], rfl⟩, fun h => endsNeg_three h _, fun ha hb hc => ?_, fun ha hb hc => ?_⟩,
    ⟨by simp [encode, formatC_toNat], rfl⟩, fun h => endsNeg_two h _, fun ha hb => ?_, fun ha hb => ?_⟩
  · rw [natSrc_nonneg ha, natSrc_nonneg hb, natSrc_nonneg hc.ge, if_pos (by rw [hc]; rfl)]
    exact endsWritingNothing_raise s .div0
  · rw [natSrc_nonneg ha, natSrc_nonneg hb, natSrc_nonneg hc.le, if_neg (by omega), Int.natCast_mod,
      mmProduct_toNat ha hb, Int.toNat_of_nonneg hc.le]
    exact endsWritingReg_commit s d _
  · rw [natSrc_nonneg ha, natSrc_nonneg hb.ge, if_pos (by rw [hb]; rfl)]
    exact endsWritingNothing_raise s .div0
  · rw [natSrc_nonneg ha, natSrc_nonneg hb.le, if_neg (by omega), Int.natCast_mod, Int.toNat_of_nonneg ha,
      Int.toNat_of_nonneg hb.le]
    exact endsWritingReg_commit s d _

end Sys2Proof.Machine
end

section
/-! SUPPORT. The modexp engine: the command MODPOW (spec/41_modexp.md). -/

namespace Sys2Proof.Machine

theorem exec_modpow (s : State) (d a b c : RegNum) : exec (.modpow d a b c) s =
    s.natSrc a fun x => s.natSrc b fun y => s.natSrc c fun z =>
      if z = 0 then s.raise .div0 else (s.setB d (modPow x y z)).commit := rfl

/-- Square and multiply on a non-negative base and modulus (spec/41_modexp.md R231). -/
theorem modPow_toNat {x z : Int} (hx : 0 ≤ x) (hz : 0 ≤ z) (e : Nat) :
    (modPow x.toNat e z.toNat : Int) = x ^ e % z := by
  rw [modPow_eq, Int.natCast_mod, Nat.cast_pow, Int.toNat_of_nonneg hx, Int.toNat_of_nonneg hz]

/-- Settles O22: the sources are checked first, then the modulus, and the loop computes the power. -/
theorem modpowIsPowerModulo : Obligations.ModpowIsPowerModulo := by
  intro s d a b c
  rw [exec_modpow]
  refine ⟨⟨by simp [encode, formatC_toNat], rfl⟩, fun h => endsNeg_three h _, fun ha hb hc => ?_, fun ha hb hc => ?_⟩
  · rw [natSrc_nonneg ha, natSrc_nonneg hb, natSrc_nonneg hc.ge, if_pos (by rw [hc]; rfl)]
    exact endsWritingNothing_raise s .div0
  · rw [natSrc_nonneg ha, natSrc_nonneg hb, natSrc_nonneg hc.le, if_neg (by omega), modPow_toNat ha hc.le]
    exact endsWritingReg_commit s d _

end Sys2Proof.Machine
end

section
/-! SUPPORT. The extended GCD and inverse unit: the recursion, Bezout's identity and the coefficient bounds, and the
commands EGCD, GCD and MODINV (spec/42_gcd_inverse.md). -/

namespace Sys2Proof

/-- A command that is not well formed is refused for EGCD's destination, whatever else its word holds
(spec/30_encoding.md R134, R137 (c)). -/
theorem decodeWord_encode_illFormed {i : Instr} (h : i.wellFormed = false) :
    decodeWord (encode i) = .error .egcdDestination := by
  obtain ⟨row, hrow, ho, hmask, hbuild⟩ := encode_inRow i
  rw [decodeWord_listed hrow ho, if_neg (not_not.2 hmask), hbuild, if_neg (Bool.eq_false_iff.1 h)]

end Sys2Proof

namespace Sys2Proof.Machine

/-! ### The recursion (spec/42_gcd_inverse.md R250) -/

@[simp] theorem egcd_zero (b : Nat) : egcd 0 b = (b, 0, 1) := rfl

/-- The back-substitution: one fuel is spent and more is left than the recursion needs. -/
theorem egcd_of_pos {a : Nat} (b : Nat) (h : 0 < a) : egcd a b =
    ((egcd (b % a) a).1, (egcd (b % a) a).2.2 - ((b / a : Nat) : Int) * (egcd (b % a) a).2.1,
      (egcd (b % a) a).2.1) := by
  obtain ⟨n, rfl⟩ := Nat.exists_eq_add_one_of_ne_zero h.ne'
  have hmod := Nat.mod_lt b h
  rw [egcd, egcdFuel, if_neg h.ne', egcdFuel_fuel n (b % (n + 1)) _ _ (by omega) le_rfl, egcd]

/-- Settles O24: the two cases of the recursion. -/
theorem egcdFollowsSourceRecursion : Obligations.EgcdFollowsSourceRecursion := by
  refine ⟨egcd_zero, fun a b ha g x1 y1 h => ?_⟩
  rw [egcd_of_pos b ha, h]

/-! ### Bezout's identity and the bounds (spec/42_gcd_inverse.md R252) -/

theorem egcd_bezout (a b : Nat) : (a : Int) * (egcd a b).2.1 + b * (egcd a b).2.2 = (egcd a b).1 := by
  induction a, b using Nat.gcd.induction with
  | H0 b => simp
  | H1 a b ha ih =>
    have hdiv : (a : Int) * (b / a : Nat) + (b % a : Nat) = b := mod_cast Nat.div_add_mod b a
    rw [egcd_of_pos b ha]
    linear_combination ih - (egcd (b % a) a).2.1 * hdiv

/-- The coefficients stay within the arguments: x is y1 - (b div a) * x1 with y1 within b mod a and x1 within a, and
a remainder of 0 leaves y1 = 1 and x1 = 0. -/
theorem egcd_natAbs_le (a b : Nat) : (egcd a b).2.1.natAbs ≤ max b 1 ∧ (egcd a b).2.2.natAbs ≤ max a 1 := by
  induction a, b using Nat.gcd.induction with
  | H0 b => simp
  | H1 a b ha ih =>
    rw [egcd_of_pos b ha]
    rcases Nat.eq_zero_or_pos (b % a) with h0 | hpos
    · simp [h0]
    · obtain ⟨hx, hy⟩ := ih
      rw [max_eq_left ha] at hx
      rw [max_eq_left hpos] at hy
      refine ⟨?_, hx.trans (le_max_left a 1)⟩
      calc ((egcd (b % a) a).2.2 - ((b / a : Nat) : Int) * (egcd (b % a) a).2.1).natAbs
        _ ≤ (egcd (b % a) a).2.2.natAbs + b / a * (egcd (b % a) a).2.1.natAbs := by
          refine (Int.natAbs_sub_le _ _).trans_eq ?_
          rw [Int.natAbs_mul, Int.natAbs_natCast]
        _ ≤ b % a + b / a * a := Nat.add_le_add hy (Nat.mul_le_mul_left _ hx)
        _ = b := Nat.mod_add_div' b a
        _ ≤ max b 1 := le_max_left b 1

theorem egcd_right_zero {a : Nat} (h : 0 < a) : egcd a 0 = (a, 1, 0) := by
  simp [egcd_of_pos 0 h]

/-- Settles O25: Bezout's identity and the bounds by induction along the recursion, the corner results by its cases. -/
theorem egcdBezoutGcdAndBounds : Obligations.EgcdBezoutGcdAndBounds := by
  refine ⟨fun a b g x y h => ?_, egcd_zero 0, egcd_zero, fun a => egcd_right_zero⟩
  have hbezout := egcd_bezout a b
  have hgcd := egcd_fst a b
  have hbounds := egcd_natAbs_le a b
  rw [h] at hbezout hgcd hbounds
  exact ⟨hbezout, hgcd, hbounds⟩

/-! ### EGCD (spec/42_gcd_inverse.md R251) -/

/-- Three registers written one after the other hold what was written (spec/42_gcd_inverse.md R251). -/
theorem reg_setB_three (s : State) (d : RegNum) (u v w : Int) :
    (((s.setB d u).setB (d + 1) v).setB (d + 2) w).reg d = .ofInt u ∧
    (((s.setB d u).setB (d + 1) v).setB (d + 2) w).reg (d + 1) = .ofInt v ∧
    (((s.setB d u).setB (d + 1) v).setB (d + 2) w).reg (d + 2) = .ofInt w := by
  have hne : ∀ r : RegNum, r ≠ r + 1 ∧ r ≠ r + 2 ∧ r + 1 ≠ r + 2 := by decide
  obtain ⟨h01, h02, h12⟩ := hne d
  simp [State.reg_setB, h01, h02, h12]

theorem exec_egcd (s : State) (d a b : RegNum) : exec (.egcd d a b) s = execEgcd d a b s := rfl

section
variable {s : State} {d a b : RegNum}

/-- Under the invariant the sources are register values, so they fit. -/
theorem Inv.srcsFit (h : Inv s) : SourcesFit s :=
  ⟨h.cfg, fun r => by
    rw [(snapshotIsWhatRegistersHold s h).1 r, State.B, BigReg.natAbs_value]
    exact h.mags r⟩

/-- A coefficient of EGCD fits a register: it is at most a source, or at most 1. -/
theorem SourcesFit.not_overflows {r : RegNum} {v : Int} (h : SourcesFit s)
    (hv : v.natAbs ≤ max (s.src r).toNat 1) : s.overflows v = false := by
  have hone : 1 < 2 ^ s.cfg.W := fits_of_lt h.cfg (by decide)
  have hsrc := h.srcs r
  exact decide_eq_false (by omega)

/-- EGCD on two sources that fit never takes ERR_OVERFLOW. -/
theorem exec_egcd_nonneg (hs : SourcesFit s) (hd : d.val ≤ 13) (ha : 0 ≤ s.src a) (hb : 0 ≤ s.src b) {g : Nat}
    {x y : Int} (h : egcd (s.src a).toNat (s.src b).toNat = (g, x, y)) :
    exec (.egcd d a b) s = .next ((((s.setB d g).setB (d + 1) x).setB (d + 2) y).complete .none) := by
  have hbounds := egcd_natAbs_le (s.src a).toNat (s.src b).toNat
  rw [h] at hbounds
  rw [exec_egcd, execEgcd, if_neg (not_lt.2 hd), natSrc_nonneg ha, natSrc_nonneg hb, h]
  dsimp only
  rw [hs.not_overflows hbounds.1, hs.not_overflows hbounds.2]
  rfl

end

/-- Settles O26: the sources are checked first, then the coefficients, which fit. -/
theorem egcdWritesThreeRegisters : Obligations.EgcdWritesThreeRegisters := by
  refine ⟨fun d a b hd => decodeWord_encode_illFormed (decide_eq_false (not_le.2 hd)), fun s d a b hinv hd =>
    ⟨⟨by simp [encode, formatC_toNat], rfl⟩, fun h => ?_, fun ha hb g x y h => ?_⟩⟩
  · rw [exec_egcd, execEgcd_refuses hd (by simpa using h)]
    exact endsWritingNothing_raise s .neg
  · have hexec := exec_egcd_nonneg hinv.srcsFit hd ha hb h
    have heffect : Effect s (.egcd d a b) (.next _) := hexec ▸ exec_effect _
    obtain ⟨hg, hx, hy⟩ := reg_setB_three s d g x y
    exact ⟨_, hexec, .complete _ .none, hg, hx, hy, heffect.shell, heffect.regs, .refl s, rfl, ⟨rfl, rfl⟩, rfl, rfl⟩

/-! ### GCD and MODINV (spec/42_gcd_inverse.md R253, R254) -/

theorem exec_gcd (s : State) (d a b : RegNum) : exec (.gcd d a b) s =
    s.natSrc a fun x => s.natSrc b fun y => (s.setB d (egcd x y).1).commit := rfl

theorem exec_modinv (s : State) (d a b : RegNum) : exec (.modinv d a b) s =
    s.natSrc a fun x => s.natSrc b fun y =>
      if y = 0 then s.raise .div0
      else if (egcd x y).1 ≠ 1 then s.raise .noinv else (s.setB d ((egcd x y).2.1 % (y : Int))).commit := rfl

section
variable {x y : Int}

/-- The first component of EGCD on two non-negative integers. -/
theorem egcd_fst_toNat (hx : 0 ≤ x) (hy : 0 ≤ y) : (egcd x.toNat y.toNat).1 = Int.gcd x y := by
  lift x to Nat using hx
  lift y to Nat using hy
  exact egcd_fst x y

/-- The first coefficient is an inverse where there is one: Bezout's identity modulo the second argument. -/
theorem mul_egcd_emod (hx : 0 ≤ x) (hy : 0 ≤ y) (h : Int.gcd x y = 1) :
    x * ((egcd x.toNat y.toNat).2.1 % y) % y = 1 % y := by
  have hbezout := egcd_bezout x.toNat y.toNat
  rw [egcd_fst_toNat hx hy, h, Int.toNat_of_nonneg hx, Int.toNat_of_nonneg hy, Nat.cast_one] at hbezout
  rw [← hbezout, Int.mul_emod, Int.emod_emod_of_dvd _ dvd_rfl, ← Int.mul_emod, Int.add_mul_emod_self_left]

end

/-- Settles O27: the sources are checked first, and the recursion gives the gcd. -/
theorem gcdWritesGreatestCommonDivisor : Obligations.GcdWritesGreatestCommonDivisor := by
  intro s d a b
  rw [exec_gcd]
  refine ⟨⟨by simp [encode, formatC_toNat], rfl⟩, fun h => endsNeg_two h _, fun ha hb => ?_⟩
  rw [natSrc_nonneg ha, natSrc_nonneg hb, egcd_fst_toNat ha hb]
  exact endsWritingReg_commit s d _

/-- Settles O28: the sources are checked first, then the modulus, then the gcd. -/
theorem modinvWritesInverse : Obligations.ModinvWritesInverse := by
  intro s d a b
  rw [exec_modinv]
  refine ⟨⟨by simp [encode, formatC_toNat], rfl⟩, fun h => endsNeg_two h _, fun ha hb => ?_, fun ha hb hgcd => ?_,
    fun ha hb hgcd => ?_⟩
  · rw [natSrc_nonneg ha, natSrc_nonneg hb.ge, if_pos (by rw [hb]; rfl)]
    exact endsWritingNothing_raise s .div0
  · rw [natSrc_nonneg ha, natSrc_nonneg hb.le, if_neg (by omega), egcd_fst_toNat ha hb.le, if_pos hgcd]
    exact endsWritingNothing_raise s .noinv
  · rw [natSrc_nonneg ha, natSrc_nonneg hb.le, if_neg (by omega), egcd_fst_toNat ha hb.le, if_neg (not_not.2 hgcd),
      Int.toNat_of_nonneg hb.le]
    exact ⟨_, Int.emod_nonneg _ hb.ne', Int.emod_lt_of_pos _ hb, mul_egcd_emod ha hb.le hgcd,
      endsWritingReg_commit s d _⟩

end Sys2Proof.Machine
end

section
/-! SUPPORT. The Miller-Rabin driver: the trial, its strong probable prime test, the run of the trials, and the command
ISPRIME (spec/43_primality.md). -/

namespace Sys2Proof.Machine

/-! ### Strong probable primes (spec/43_primality.md R285, R286) -/

section
variable {n d r a : Nat}

/-- The odd part of n - 1 is the odd factor of every splitting of n - 1 into a power of 2 and an odd number. -/
theorem oddPart_eq (h : n - 1 = 2 ^ r * d) (hd : d % 2 = 1) : oddPart n = d := by
  have hpos : 0 < n - 1 := h ▸ Nat.mul_pos (by positivity) (by omega)
  obtain ⟨hdvd, hodd⟩ := trailingZeros_spec hpos
  have hsplit : n - 1 = 2 ^ trailingZeros (n - 1) * oddPart n :=
    (Nat.mul_div_cancel' (Nat.dvd_of_mod_eq_zero hdvd)).symm
  calc oddPart n
    _ = ordCompl[2] (2 ^ trailingZeros (n - 1) * oddPart n) :=
      (Nat.ordCompl_pow_mul_of_not_dvd _ Nat.prime_two (Nat.two_dvd_ne_zero.2 hodd)).symm
    _ = ordCompl[2] (2 ^ r * d) := by rw [← hsplit, h]
    _ = d := Nat.ordCompl_pow_mul_of_not_dvd r Nat.prime_two (Nat.two_dvd_ne_zero.2 hd)

/-- A remainder of n - 1 is -1 modulo n. -/
theorem mod_eq_pred_iff (hn : 0 < n) (k : Nat) : k % n = n - 1 ↔ (k : ZMod n) = -1 := by
  have hcast : ((n - 1 : Nat) : ZMod n) = -1 := by rw [Nat.cast_pred hn, ZMod.natCast_self, zero_sub]
  rw [← hcast, ZMod.natCast_eq_natCast_iff', Nat.mod_eq_of_lt (Nat.sub_lt hn Nat.one_pos)]

/-- A remainder of 1 is 1 modulo n. -/
theorem mod_eq_one_iff (hn : 1 < n) (k : Nat) : k % n = 1 ↔ (k : ZMod n) = 1 := by
  rw [← Nat.cast_one (R := ZMod n), ZMod.natCast_eq_natCast_iff', Nat.mod_eq_of_lt hn]

/-- An odd prime modulo which -1 is a power 2^r is 1 modulo 2^(r+1), for that is the order of the base. -/
theorem prime_modEq_one_of_pow_eq_neg_one {p x : Nat} (hp : p.Prime) (hodd : p ≠ 2) (hx : (x : ZMod p) ^ 2 ^ r = -1) :
    p ≡ 1 [MOD 2 ^ (r + 1)] := by
  have : Fact p.Prime := ⟨hp⟩
  have : Fact (2 < p) := ⟨hp.two_le.lt_of_ne' hodd⟩
  have horder : orderOf (x : ZMod p) = 2 ^ (r + 1) := by
    refine orderOf_eq_prime_pow ?_ ?_
    · rw [hx]
      exact ZMod.neg_one_ne_one
    · rw [pow_succ, pow_mul, hx, neg_one_sq]
  have hne : (x : ZMod p) ≠ 0 := fun h0 => by simp [h0] at hx
  exact ((Nat.modEq_iff_dvd' hp.one_le).2 (horder ▸ ZMod.orderOf_dvd_card_sub_one hne)).symm

/-- An odd n modulo which -1 is a power 2^r is 1 modulo 2^(r+1), for each of its prime factors is. -/
theorem modEq_one_of_pow_eq_neg_one {x : Nat} (hodd : n % 2 = 1) (hx : (x : ZMod n) ^ 2 ^ r = -1) :
    n ≡ 1 [MOD 2 ^ (r + 1)] := by
  have hn : n ≠ 0 := by omega
  rw [← Nat.prod_primeFactorsList hn]
  refine List.prod_induction (· ≡ 1 [MOD 2 ^ (r + 1)]) (fun _ _ => Nat.ModEq.mul) rfl fun p hp => ?_
  have hdvd := Nat.dvd_of_mem_primeFactorsList hp
  refine prime_modEq_one_of_pow_eq_neg_one (x := x) (Nat.prime_of_mem_primeFactorsList hp) (fun h2 => ?_) ?_
  · rw [h2] at hdvd
    omega
  · simpa only [map_pow, map_natCast, map_neg, map_one] using congrArg (ZMod.castHom hdvd (ZMod p)) hx

/-- No power n - 1 is -1 modulo an odd n (spec/43_primality.md R285). -/
theorem pow_pred_mod_ne_pred (h3 : 3 ≤ n) (hodd : n % 2 = 1) (a : Nat) : a ^ (n - 1) % n ≠ n - 1 := by
  intro h
  obtain ⟨r, d, hd, hsplit⟩ := Nat.exists_eq_two_pow_mul_odd (show n - 1 ≠ 0 by omega)
  have hx : ((a ^ d : Nat) : ZMod n) ^ 2 ^ r = -1 := by
    rw [← Nat.cast_pow, ← pow_mul, mul_comm d, ← hsplit]
    exact (mod_eq_pred_iff (by omega) _).1 h
  have hdvd : 2 ^ r * 2 ∣ 2 ^ r * d := by
    rw [← hsplit, ← pow_succ]
    exact (Nat.modEq_iff_dvd' (by omega)).1 (modEq_one_of_pow_eq_neg_one hodd hx).symm
  exact hd.not_two_dvd_nat (Nat.dvd_of_mul_dvd_mul_left (by positivity) hdvd)

/-! ### The trial (spec/43_primality.md R280) -/

/-- The squaring loop with m squarings to go finds n - 1 among their results: after a result of 1 there is none. -/
theorem squaringLoop_iff (hn : 2 < n) : ∀ {fuel m x t : Nat}, m ≤ fuel → t * 2 ^ m = n - 1 →
    (squaringLoop fuel n x t = true ↔ ∃ j < m, x ^ 2 ^ (j + 1) % n = n - 1)
  | 0, m, x, t, hm, _ => by simp [squaringLoop, Nat.le_zero.1 hm]
  | fuel + 1, 0, x, t, _, ht => by
    rw [pow_zero, mul_one] at ht
    simp [squaringLoop, ht]
  | fuel + 1, m + 1, x, t, hm, ht => by
    have hpow : t * 2 ^ (m + 1) = 2 * t * 2 ^ m := by ring
    have hne : t ≠ n - 1 := fun h => by
      have := Nat.mul_le_mul_left (2 * t) (Nat.one_le_two_pow (n := m))
      omega
    have hsq (j : Nat) : x ^ 2 ^ (j + 1 + 1) % n = (mmProduct x x % n) ^ 2 ^ (j + 1) % n := by
      rw [mmProduct, ← Nat.pow_mod, ← pow_two, ← pow_mul, ← pow_succ']
    have hfirst : x ^ 2 ^ (0 + 1) % n = mmProduct x x % n := by rw [mmProduct, zero_add, pow_one, pow_two]
    rw [squaringLoop, if_neg hne, Nat.exists_lt_succ_left, hfirst]
    simp only [hsq]
    split_ifs with h1 h2
    · have hone : 1 ≠ n - 1 := by omega
      simp [h1, hone, Nat.mod_eq_of_lt (show 1 < n by omega)]
    · simp [h2]
    · rw [squaringLoop_iff hn (by omega) (hpow.symm.trans ht)]
      simp [h2]

/-- There are fewer squarings than bits. -/
theorem exponent_le_bitlen (h : n - 1 = 2 ^ r * d) (hd : d % 2 = 1) : r ≤ bitlen n := by
  have hbits := lt_two_pow_bitlen n
  have hle : 2 ^ r ≤ 2 ^ r * d := Nat.le_mul_of_pos_right _ (by omega)
  exact ((Nat.pow_lt_pow_iff_right Nat.one_lt_two).1 (show 2 ^ r < 2 ^ bitlen n by omega)).le

/-- The trial is the strong probable prime test on any splitting of n - 1: the loop's last squaring, which would give
the power n - 1, never decides (spec/43_primality.md R285). -/
theorem trialPasses_iff (h3 : 3 ≤ n) (hodd : n % 2 = 1) (h : n - 1 = 2 ^ r * d) (hd : d % 2 = 1) (a : Nat) :
    trialPasses n a = true ↔ a ^ d % n = 1 ∨ ∃ j < r, a ^ (d * 2 ^ j) % n = n - 1 := by
  have hsq (j : Nat) : (a ^ d % n) ^ 2 ^ j % n = a ^ (d * 2 ^ j) % n := by rw [← Nat.pow_mod, ← pow_mul]
  have hlast : a ^ (d * 2 ^ r) % n ≠ n - 1 := by
    rw [mul_comm, ← h]
    exact pow_pred_mod_ne_pred h3 hodd a
  have hloop := squaringLoop_iff h3 (x := a ^ d % n) (exponent_le_bitlen h hd) ((mul_comm _ _).trans h.symm)
  calc trialPasses n a = true
    _ ↔ a ^ d % n = 1 ∨ a ^ d % n = n - 1 ∨ ∃ j < r, a ^ (d * 2 ^ (j + 1)) % n = n - 1 := by
      simp only [trialPasses, oddPart_eq h hd, modPow_eq, ← hsq (_ + 1), ← hloop, Bool.if_true_left, Bool.or_eq_true,
        decide_eq_true_eq, or_assoc]
    _ ↔ a ^ d % n = 1 ∨ ∃ j < r + 1, a ^ (d * 2 ^ j) % n = n - 1 := by
      rw [Nat.exists_lt_succ_left, pow_zero, mul_one]
    _ ↔ a ^ d % n = 1 ∨ ∃ j < r, a ^ (d * 2 ^ j) % n = n - 1 := by
      rw [Nat.exists_lt_succ_right, or_iff_left hlast]

theorem trialPasses_iff_strongProbablePrime (h3 : 3 ≤ n) (hodd : n % 2 = 1) (a : Nat) :
    trialPasses n a = true ↔ StrongProbablePrime n a := by
  refine ⟨fun hpass => ?_, fun ⟨r, d, hsplit, hd, h⟩ => (trialPasses_iff h3 hodd hsplit hd a).2 h⟩
  obtain ⟨r, d, hd, hsplit⟩ := Nat.exists_eq_two_pow_mul_odd (show n - 1 ≠ 0 by omega)
  have hd := Nat.odd_iff.1 hd
  exact ⟨r, d, hsplit, hd, (trialPasses_iff h3 hodd hsplit hd a).1 hpass⟩

/-- Settles O31: the trial is the test, and the power n - 1 is never -1. -/
theorem trialIsStrongProbablePrimeTest : Obligations.TrialIsStrongProbablePrimeTest := fun _ a h5 hodd _ _ =>
  ⟨trialPasses_iff_strongProbablePrime (by omega) hodd a, pow_pred_mod_ne_pred (by omega) hodd a⟩

/-- The only square roots of 1 are 1 and -1, so repeated squaring from an x other than 1 reaches 1 through -1. -/
theorem eq_one_or_pow_eq_neg_one {R : Type*} [CommRing R] [NoZeroDivisors R] {x : R} :
    ∀ {r : Nat}, x ^ 2 ^ r = 1 → x = 1 ∨ ∃ j < r, x ^ 2 ^ j = -1
  | 0, h => .inl (by simpa using h)
  | r + 1, h => by
    rw [pow_succ, pow_mul, sq_eq_one_iff] at h
    rcases h with h | h
    · exact (eq_one_or_pow_eq_neg_one h).imp_right fun ⟨j, hj, e⟩ => ⟨j, by omega, e⟩
    · exact .inr ⟨r, Nat.lt_succ_self r, h⟩

/-- A prime passes the trial of every witness it does not divide (spec/43_primality.md R286 (a)). -/
theorem trialPasses_of_prime (hp : n.Prime) (h3 : 3 ≤ n) (ha : ¬ n ∣ a) : trialPasses n a = true := by
  have : Fact n.Prime := ⟨hp⟩
  obtain ⟨r, d, hd, hsplit⟩ := Nat.exists_eq_two_pow_mul_odd (show n - 1 ≠ 0 by omega)
  have hodd : n % 2 = 1 := hp.mod_two_eq_one_iff_ne_two.2 (by omega)
  rw [trialPasses_iff h3 hodd hsplit (Nat.odd_iff.1 hd)]
  have hfermat : ((a : ZMod n) ^ d) ^ 2 ^ r = 1 := by
    rw [← pow_mul, mul_comm, ← hsplit]
    exact ZMod.pow_card_sub_one_eq_one (mt (ZMod.natCast_eq_zero_iff a n).1 ha)
  simp only [mod_eq_one_iff hp.one_lt, mod_eq_pred_iff hp.pos, Nat.cast_pow, pow_mul]
  exact eq_one_or_pow_eq_neg_one hfermat

end

/-! ### The run of the trials (spec/43_primality.md R280, R283, R284) -/

/-- The answer is a witness in range that n passes. -/
def AnswerPasses (W n w : Nat) : Prop :=
  2 ≤ w % 2 ^ W ∧ w % 2 ^ W ≤ n - 2 ∧ trialPasses n (w % 2 ^ W) = true

/-- The end of a run of trials before which so many others passed. -/
def TrialsEnd.after (passed : Nat) : TrialsEnd → TrialsEnd
  | .verdict p rest => .verdict p rest
  | .badWitness rest => .badWitness rest
  | .waiting more => .waiting (more + passed)

theorem TrialsEnd.after_zero (e : TrialsEnd) : e.after 0 = e := by cases e <;> rfl

theorem TrialsEnd.after_after (e : TrialsEnd) (i j : Nat) : (e.after i).after j = e.after (i + j) := by
  cases e with
  | waiting => rw [after, after, after, Nat.add_assoc]
  | verdict | badWitness => rfl

section
variable {W n w : Nat}

theorem runTrials_pass (h : AnswerPasses W n w) (k : Nat) (ws : List Nat) :
    runTrials W n (k + 1) (w :: ws) = (runTrials W n k ws).after 1 := by
  obtain ⟨hlow, hhigh, hpass⟩ := h
  simp only [runTrials, if_neg (show ¬ (w % 2 ^ W < 2 ∨ w % 2 ^ W > n - 2) by omega), if_pos hpass]
  cases runTrials W n k ws <;> rfl

theorem runTrials_badWitness (h : w % 2 ^ W < 2 ∨ n - 2 < w % 2 ^ W) (k : Nat) (ws : List Nat) :
    runTrials W n (k + 1) (w :: ws) = .badWitness ws := by
  simp only [runTrials, if_pos (show w % 2 ^ W < 2 ∨ w % 2 ^ W > n - 2 from h)]

theorem runTrials_fail (hlow : 2 ≤ w % 2 ^ W) (hhigh : w % 2 ^ W ≤ n - 2) (hfail : trialPasses n (w % 2 ^ W) = false)
    (k : Nat) (ws : List Nat) : runTrials W n (k + 1) (w :: ws) = .verdict false ws := by
  simp only [runTrials, if_neg (show ¬ (w % 2 ^ W < 2 ∨ w % 2 ^ W > n - 2) by omega), hfail, Bool.false_eq_true,
    if_false]

/-- Answers that pass are used up, and the run goes on with the trials left. -/
theorem runTrials_append (k : Nat) (rest : List Nat) : ∀ {good : List Nat}, (∀ w ∈ good, AnswerPasses W n w) →
    runTrials W n (good.length + k) (good ++ rest) = (runTrials W n k rest).after good.length
  | [], _ => by rw [List.length_nil, Nat.zero_add, List.nil_append, TrialsEnd.after_zero]
  | w :: good, h => by
    obtain ⟨hw, hgood⟩ := List.forall_mem_cons.1 h
    rw [List.length_cons, Nat.add_right_comm, List.cons_append, runTrials_pass hw, runTrials_append k rest hgood,
      TrialsEnd.after_after]

end

/-! ### ISPRIME (spec/43_primality.md R281) -/

theorem primeWithoutWitness_composite {n : Nat} (h : n ≤ 1 ∨ n = 4 ∨ 2 < n ∧ n % 2 = 0) :
    primeWithoutWitness n = some false := by
  unfold primeWithoutWitness
  split_ifs
  · rfl
  · omega
  · rfl
  · omega

theorem primeWithoutWitness_odd {n : Nat} (h5 : 5 ≤ n) (hodd : n % 2 = 1) : primeWithoutWitness n = none := by
  rw [primeWithoutWitness, if_neg (by omega), if_neg (by omega), if_neg (by omega)]

/-- The rounds of a command, with the immediate compared as a word (spec/43_primality.md R282). -/
theorem roundsOf_eq (imm : Imm8) : roundsOf imm = if imm = 0 then 20 else imm.toNat :=
  if_congr (BitVec.toNat_inj (y := 0)) rfl rfl

/-- What ISPRIME makes of the end of its trials. -/
def State.endTrials (s : State) (d : RegNum) : TrialsEnd → Result
  | .verdict p rest => (s.setAnswers rest).verdict d p
  | .badWitness rest => (s.setAnswers rest).raise .witness
  | .waiting passed => .next (s.await passed)

section
variable {s : State} {d a : RegNum} {imm : Imm8} {n : Nat}

theorem exec_isprime : exec (.isprime d a imm) s = execIsprime d a imm s := rfl

/-- A source that holds a natural number is read as that number. -/
theorem natSrc_natCast (h : s.src a = n) (go : Nat → Result) : s.natSrc a go = go n := by
  rw [natSrc_nonneg (h ▸ Int.natCast_nonneg n), h, Int.toNat_natCast]

/-- An n decided at once uses no answer (spec/43_primality.md R284). -/
theorem endsWithVerdict_decided {p : Bool} (hn : s.src a = n) (h : primeWithoutWitness n = some p) :
    EndsWithVerdict d p s.witAnswers s (exec (.isprime d a imm) s) := by
  rw [exec_isprime, execIsprime, natSrc_natCast hn, h]
  exact endsWithVerdict_verdict s d p s.witAnswers

/-- For odd n of at least 5 the trials decide. -/
theorem exec_isprime_trials (hn : s.src a = n) (h5 : 5 ≤ n) (hodd : n % 2 = 1) : exec (.isprime d a imm) s =
    s.endTrials d (runTrials s.cfg.W n (roundsOf imm - s.trialsPassed) s.answers) := by
  rw [exec_isprime, execIsprime, natSrc_natCast hn, primeWithoutWitness_odd h5 hodd]
  rfl

end

/-- Settles O29: the source is checked first, then the numbers decided without a witness. -/
theorem isprimeDecidesSmallAndEven : Obligations.IsprimeDecidesSmallAndEven := by
  intro s d a imm
  refine ⟨⟨by simp [encode, formatC_toNat], rfl⟩, fun h => ?_, fun h => ?_, fun h => ?_⟩
  · rw [exec_isprime, execIsprime, natSrc_neg h]
    exact endsWritingNothing_raise s .neg
  · obtain ⟨n, hn⟩ := Int.eq_ofNat_of_zero_le (show 0 ≤ s.src a by omega)
    exact endsWithVerdict_decided hn (primeWithoutWitness_composite (by omega))
  · rcases h with h | h
    · exact endsWithVerdict_decided (n := 2) h rfl
    · exact endsWithVerdict_decided (n := 3) h rfl

/-- Settles O30: the answers that pass are used up first; the next answer, or its absence, ends the run. -/
theorem isprimeRunsTrialsInOrder : Obligations.IsprimeRunsTrialsInOrder := by
  intro s d a imm n good rest hn h5 hodd hanswers hgood
  dsimp only
  rw [← roundsOf_eq]
  have hrun (m : Nat) (hm : roundsOf imm - s.trialsPassed = good.length + m) : exec (.isprime d a imm) s =
      s.endTrials d ((runTrials s.cfg.W n m rest).after good.length) := by
    rw [exec_isprime_trials hn h5 hodd, hanswers, hm, runTrials_append m rest hgood]
  refine ⟨fun hlen => ?_, fun hlen => ?_, fun hlen hrest c hc => ?_⟩
  · rw [hrun 0 hlen.symm, runTrials]
    exact endsWithVerdict_verdict s d true rest
  · obtain ⟨m, hm⟩ := Nat.exists_eq_add_of_lt hlen
    rintro w tail rfl
    refine ⟨fun hbad => ?_, fun hlow hhigh hfail => ?_⟩
    · rw [hrun (m + 1) hm, runTrials_badWitness hbad]
      have heffect := Effect.badWitness (s := s) (d := d) (a := a) (imm := imm) tail
      exact ⟨_, rfl, .complete _ .witness, rfl, rfl, heffect.shell, fun _ _ => rfl, .refl s, rfl, rfl, rfl⟩
    · rw [hrun (m + 1) hm, runTrials_fail hlow hhigh hfail]
      exact endsWithVerdict_verdict s d false tail
  · obtain ⟨m, hm⟩ := Nat.exists_eq_add_of_lt hlen
    rw [hrun (m + 1) hm, hrest, runTrials, TrialsEnd.after, Nat.zero_add, State.endTrials, State.await, hc]
    rfl

/-- Settles O32: every answer in range passes, so the trials left use as many answers. -/
theorem isprimeAcceptsEveryPrime : Obligations.IsprimeAcceptsEveryPrime := by
  intro s d a imm n hn hp h5 hrange k hk
  have hodd : n % 2 = 1 := hp.mod_two_eq_one_iff_ne_two.2 (by omega)
  have hpass : ∀ w ∈ s.answers.take k, AnswerPasses s.cfg.W n w := fun w hw => by
    obtain ⟨hlow, hhigh⟩ := hrange w (List.mem_of_mem_take hw)
    exact ⟨hlow, hhigh, trialPasses_of_prime hp (by omega) (Nat.not_dvd_of_pos_of_lt (by omega) (by omega))⟩
  obtain ⟨hall, -, -⟩ := isprimeRunsTrialsInOrder s d a imm n _ _ hn h5 hodd (List.take_append_drop k _).symm hpass
  exact hall (List.length_take_of_le hk)

end Sys2Proof.Machine
end

section
/-! SUPPORT. The block codec: BytesToInt and IntToBytes as base-256 digits, and the commands B2I and I2B
(spec/44_codec_cipher.md). -/

namespace Sys2Proof.Machine

/-! ### Base-256 values (spec/44_codec_cipher.md R311) -/

/-- BytesToInt is the sum of the bytes by weight. -/
theorem bytesToInt_eq_sum : ∀ bs : List Byte,
    bytesToInt bs = ∑ i : Fin bs.length, (bs[i]).toNat * 256 ^ i.val
  | [] => rfl
  | b :: bs => by
    have ih : bytesToInt bs = ∑ i : Fin bs.length, (bs[i.val]).toNat * 256 ^ i.val := bytesToInt_eq_sum bs
    simp [bytesToInt, ih, Fin.sum_univ_succ, Finset.mul_sum, pow_succ', mul_left_comm]

theorem bytesToInt_append : ∀ xs ys : List Byte,
    bytesToInt (xs ++ ys) = bytesToInt xs + 256 ^ xs.length * bytesToInt ys
  | [], ys => by simp [bytesToInt]
  | x :: xs, ys => by
    rw [List.cons_append, bytesToInt, bytesToInt_append xs ys, bytesToInt, List.length_cons]
    ring

theorem bytesToInt_concat (xs : List Byte) (b : Byte) :
    bytesToInt (xs ++ [b]) = bytesToInt xs + 256 ^ xs.length * b.toNat := bytesToInt_append xs [b]

theorem bytesToInt_replicate_zero : ∀ n : Nat, bytesToInt (List.replicate n 0) = 0
  | 0 => rfl
  | n + 1 => by rw [List.replicate_succ, bytesToInt, bytesToInt_replicate_zero n]; rfl

/-! ### Shortest digits (spec/44_codec_cipher.md R312) -/

theorem byteLen_le_iff {v k : Nat} : byteLen v ≤ k ↔ v < 256 ^ k := by
  have h : byteLen v ≤ k ↔ bitlen v ≤ 8 * k := by
    unfold byteLen
    omega
  rw [h, bitlen_le_iff, pow_mul, show 2 ^ 8 = 256 from rfl]

theorem lt_byteLen_iff {v k : Nat} : k < byteLen v ↔ 256 ^ k ≤ v := by
  rw [← not_le, byteLen_le_iff, not_lt]

theorem toNat_digits256 : ∀ {k i v : Nat} (h : i < (digits256 k v).length),
    ((digits256 k v)[i]).toNat = v / 256 ^ i % 256
  | _ + 1, 0, v, _ => by simp [digits256]
  | k + 1, i + 1, v, h => by
    simp only [digits256, List.getElem_cons_succ]
    rw [toNat_digits256, Nat.div_div_eq_div_mul, ← pow_succ']

@[simp] theorem intToBytes_zero : intToBytes 0 = [0] := rfl

theorem intToBytes_of_pos {v : Nat} (h : 0 < v) : intToBytes v = digits256 (byteLen v) v := if_neg h.ne'

theorem length_intToBytes {v : Nat} (h : 0 < v) : (intToBytes v).length = byteLen v := by
  rw [intToBytes_of_pos h, length_digits256]

/-- IntToBytes loses nothing (spec/44_codec_cipher.md R313 (a)). -/
theorem bytesToInt_intToBytes (v : Nat) : bytesToInt (intToBytes v) = v := by
  rcases Nat.eq_zero_or_pos v with rfl | h
  · rfl
  · rw [intToBytes_of_pos h, bytesToInt_digits256, Nat.mod_eq_of_lt (lt_pow_byteLen v)]

/-- A zero as the last digit would make the digits one too many. -/
theorem getLast?_intToBytes {v : Nat} (h : 0 < v) : (intToBytes v).getLast? ≠ some 0 := by
  intro h0
  obtain ⟨xs, hxs⟩ := List.getLast?_eq_some_iff.1 h0
  have hlen := length_intToBytes h
  have hv := bytesToInt_intToBytes v
  rw [hxs, List.length_append, List.length_singleton] at hlen
  rw [hxs, bytesToInt_concat] at hv
  have hlt : bytesToInt xs < 256 ^ xs.length := bytesToInt_lt xs
  have hle : byteLen v ≤ xs.length := byteLen_le_iff.2 (by simpa [← hv] using hlt)
  omega

/-! ### The inverse laws (spec/44_codec_cipher.md R313) -/

/-- Bytes whose last one is not zero are the shortest digits of their value. -/
theorem intToBytes_bytesToInt {bs : List Byte} (hne : bs ≠ []) (hlast : bs.getLast? ≠ some 0) :
    intToBytes (bytesToInt bs) = bs := by
  obtain ⟨xs, b, rfl⟩ := (List.eq_nil_or_concat' bs).resolve_left hne
  have hb : 0 < b.toNat := Nat.pos_of_ne_zero fun h => hlast (by simpa [BitVec.toNat_eq] using h)
  have hge : 256 ^ xs.length ≤ bytesToInt (xs ++ [b]) := by
    rw [bytesToInt_concat]
    exact (Nat.le_mul_of_pos_right _ hb).trans (Nat.le_add_left _ _)
  have hlen : byteLen (bytesToInt (xs ++ [b])) = (xs ++ [b]).length :=
    le_antisymm (byteLen_le_iff.2 (bytesToInt_lt _)) (by simpa using lt_byteLen_iff.2 hge)
  rw [intToBytes_of_pos ((Nat.pow_pos (by decide)).trans_le hge), hlen, digits256_bytesToInt]

/-- The codec gives a byte sequence back exactly when it is a shortest one (spec/44_codec_cipher.md R313 (b)). -/
theorem intToBytes_bytesToInt_iff (bs : List Byte) :
    intToBytes (bytesToInt bs) = bs ↔ (bs ≠ [] ∧ bs.getLast? ≠ some 0) ∨ bs = [0] := by
  constructor
  · intro h
    rcases Nat.eq_zero_or_pos (bytesToInt bs) with h0 | hpos
    · rw [h0] at h
      exact .inr h.symm
    · refine .inl ⟨fun hnil => ?_, h ▸ getLast?_intToBytes hpos⟩
      rw [hnil] at hpos
      exact hpos.false
  · rintro (⟨hne, hlast⟩ | rfl)
    · exact intToBytes_bytesToInt hne hlast
    · rfl

/-- Settles O35: the digits of a value, and the inverse laws. -/
theorem codecIsBase256WithLossyCase : Obligations.CodecIsBase256WithLossyCase := by
  refine ⟨bytesToInt_eq_sum, intToBytes_zero, fun v hv => ⟨?_, fun i hi => ?_, getLast?_intToBytes hv⟩,
    bytesToInt_intToBytes, intToBytes_bytesToInt_iff, fun bs hne hlast n => ?_⟩
  · exact ⟨bitlen v, lt_two_pow_bitlen v, fun _ => bitlen_le, length_intToBytes hv⟩
  · simp only [intToBytes_of_pos hv, toNat_digits256]
  · rw [bytesToInt_append, bytesToInt_replicate_zero, mul_zero, add_zero, intToBytes_bytesToInt hne hlast]

/-! ### B2I and I2B (spec/44_codec_cipher.md R314, R315) -/

theorem exec_b2i (s : State) (d a b : RegNum) : exec (.b2i d a b) s = execB2i d a b s := rfl

theorem exec_i2b (s : State) (d a b : RegNum) : exec (.i2b d a b) s = execI2b d a b s := rfl

/-- Settles O36: the sources are checked first, then the range, then the bytes, then their value. -/
theorem b2iReadsMessageBytes : Obligations.B2iReadsMessageBytes := by
  intro s d a b
  rw [exec_b2i]
  refine ⟨⟨by simp [encode, formatC_toNat], rfl⟩, fun h => endsNeg_two h _, fun ha hb => ?_⟩
  rw [execB2i, natSrc_nonneg ha, natSrc_nonneg hb]
  refine ⟨fun hlt => ?_, fun hle => ?_⟩
  · rw [if_pos (by omega)]
    exact endsWritingNothing_raise s .bounds
  · rw [if_neg (by omega)]
    refine ⟨fun bs hlen hbytes => ?_, fun ⟨i, hi, hnone⟩ => ?_⟩
    · have hread : s.msgRead (s.src a).toNat (s.src b).toNat = some bs := hlen ▸ memReadBytes_eq_some bs _ hbytes
      simp only [hread]
      refine ⟨fun hW => ?_, fun hW => ?_⟩
      · rw [writeChecked_overflow (by rwa [Int.natAbs_natCast])]
        exact endsWritingNothing_raise s .overflow
      · rw [writeChecked_fits (by rwa [Int.natAbs_natCast])]
        exact endsWritingReg_commit s d _
    · have hread : s.msgRead (s.src a).toNat (s.src b).toNat = none := memReadBytes_eq_none hi hnone
      simp only [hread]

/-- I2B past its checks (spec/44_codec_cipher.md R315). -/
theorem exec_i2b_ok {s : State} {d a b : RegNum} (ha : 0 ≤ s.src a) (hb : 0 ≤ s.src b)
    (hle : s.src b + (intToBytes (s.src a).toNat).length ≤ s.cfg.msgBytes) : exec (.i2b d a b) s =
      .next (((s.msgWrite (s.src b).toNat (intToBytes (s.src a).toNat)).setB d
        (intToBytes (s.src a).toNat).length).complete .none) := by
  rw [exec_i2b, execI2b, natSrc_nonneg ha, natSrc_nonneg hb, if_neg (by omega)]
  rfl

/-- Settles O37: the sources are checked first, then the range; the bytes written read back. -/
theorem i2bWritesShortestBytes : Obligations.I2bWritesShortestBytes := by
  intro s d a b
  refine ⟨⟨by simp [encode, formatC_toNat], rfl⟩, fun h => ?_, fun ha hb => ⟨fun hlt => ?_, fun hle => ?_⟩⟩
  · rw [exec_i2b]
    exact endsNeg_two h _
  · rw [exec_i2b, execI2b, natSrc_nonneg ha, natSrc_nonneg hb, if_pos (by omega)]
    exact endsWritingNothing_raise s .bounds
  · have hexec := exec_i2b_ok (d := d) ha hb hle
    have heffect : Effect s (.i2b d a b) (.next _) := hexec ▸ exec_effect _
    refine ⟨_, hexec, .complete _ .none, ?_, memReadBytes_memWriteBytes _ _ _, heffect.mem_i2b, heffect.shell,
      heffect.regs, rfl, ⟨rfl, rfl⟩, rfl, rfl⟩
    rw [State.reg_complete, State.reg_setB, if_pos rfl]
    rfl

end Sys2Proof.Machine
end

section
/-! SUPPORT. The cipher's blocks: their size, and the split of a message (spec/44_codec_cipher.md R321, R323). -/

namespace Sys2Proof.Machine

/-! ### Block size (spec/44_codec_cipher.md R321) -/

/-- One byte or more of block needs a modulus of two bytes. -/
theorem one_le_blockSize_iff {n : Nat} : 1 ≤ blockSize n ↔ 256 ≤ n := by
  have h : 1 ≤ blockSize n ↔ 1 < byteLen n := by
    unfold blockSize
    omega
  rw [h, lt_byteLen_iff, pow_one]

theorem blockSize_small {n : Nat} (h1 : 1 ≤ n) (h : n ≤ 255) : blockSize n = 0 := by
  have hpos : 0 < byteLen n := lt_byteLen_iff.2 h1
  have hle : byteLen n ≤ 1 := byteLen_le_iff.2 (by omega)
  unfold blockSize
  omega

/-- A block is worth less than the modulus. -/
theorem bytesToInt_lt_of_length_le {n : Nat} {bs : List Byte} (h : (bs.length : Int) ≤ blockSize n) :
    bytesToInt bs < n := by
  have hlen : bs.length < byteLen n := by
    unfold blockSize at h
    omega
  exact (bytesToInt_lt bs).trans_le (lt_byteLen_iff.1 hlen)

/-! ### Block split (spec/44_codec_cipher.md R323) -/

theorem length_splitBlocks (k : Nat) (m : List Byte) : (splitBlocks k m).length = blockCount m.length k := by
  rw [splitBlocks, List.length_map, List.length_range]

/-- Block j of the split. -/
theorem getElem?_splitBlocks {k j : Nat} {m blk : List Byte} : (splitBlocks k m)[j]? = some blk ↔
    j < blockCount m.length k ∧ (m.drop (j * k)).take k = blk := by
  simp [splitBlocks, List.getElem?_eq_some_iff]

/-- The first blocks are the first bytes. -/
theorem flatten_blocks (k : Nat) (m : List Byte) : ∀ nb : Nat,
    ((List.range nb).map fun j => (m.drop (j * k)).take k).flatten = m.take (nb * k)
  | 0 => by simp
  | nb + 1 => by
    rw [List.range_succ, List.map_append, List.flatten_append, flatten_blocks k m nb, Nat.succ_mul, List.take_add]
    simp

section
variable {k : Nat} (hk : 0 < k) {m : List Byte}
include hk

/-- The block count is the least number of blocks that holds the message. -/
theorem blockCount_le_iff {len j : Nat} : blockCount len k ≤ j ↔ len ≤ k * j := ceilDiv_le_iff_le_mul hk

theorem lt_blockCount_iff {len j : Nat} : j < blockCount len k ↔ k * j < len := by
  rw [← not_le, blockCount_le_iff hk, not_le]

theorem flatten_splitBlocks : (splitBlocks k m).flatten = m := by
  have hle : m.length ≤ blockCount m.length k * k := by
    rw [mul_comm]
    exact (blockCount_le_iff hk).1 le_rfl
  rw [splitBlocks, flatten_blocks, List.take_of_length_le hle]

/-- Every block has a byte, and no block has more than k. -/
theorem length_of_mem_splitBlocks {blk : List Byte} (h : blk ∈ splitBlocks k m) :
    1 ≤ blk.length ∧ blk.length ≤ k := by
  obtain ⟨j, hj⟩ := List.mem_iff_getElem?.1 h
  obtain ⟨hlt, rfl⟩ := getElem?_splitBlocks.1 hj
  have := (lt_blockCount_iff hk).1 hlt
  rw [List.length_take, List.length_drop, mul_comm j]
  omega

end

/-- Settles O38: the least number of blocks that holds the message leaves none empty and all but the last full. -/
theorem blocksFitModulusAndRebuildMessage : Obligations.BlocksFitModulusAndRebuildMessage := by
  refine ⟨fun n => ⟨bitlen n, lt_two_pow_bitlen n, fun _ => bitlen_le, rfl⟩, rfl, fun n => blockSize_small,
    fun n hn => ⟨one_le_blockSize_iff.2 hn, fun bs => bytesToInt_lt_of_length_le⟩, fun k m hk =>
    ⟨flatten_splitBlocks hk, length_splitBlocks k m, fun j blk hj => ?_⟩⟩
  refine ⟨(getElem?_splitBlocks.1 hj).2.symm, (length_of_mem_splitBlocks hk (List.mem_of_getElem? hj)).1,
    fun hnext => ?_⟩
  obtain ⟨-, rfl⟩ := getElem?_splitBlocks.1 hj
  have hfull := (lt_blockCount_iff hk).1 (length_splitBlocks k m ▸ hnext)
  rw [List.length_take, List.length_drop, mul_comm j]
  rw [Nat.mul_succ] at hfull
  omega

end Sys2Proof.Machine
end

section
/-! SUPPORT. The cipher commands ENCRYPT and DECRYPT: the entries and bytes they write read back
(spec/44_codec_cipher.md R322, R331). -/

namespace Sys2Proof.Machine

/-! ### Entries of CTMEM (spec/20_memory.md R97) -/

/-- An entry has W bits (spec/00_scope.md R6, R7). -/
theorem pow_entryBytes {c : Config} (h : c.valid) : 256 ^ entryBytes c = 2 ^ c.W := by
  have h32 : c.W % 32 = 0 := h.1
  rw [show 256 = 2 ^ 8 from rfl, ← pow_mul, entryBytes, Config.limbs]
  congr 1
  omega

/-- Entries written one after the other do not overlap, so each reads back. -/
theorem memReadBytes_ctWriteFrom {w : Nat} (hw : w ≤ 0x1000) : ∀ {vs : List Nat} {j : Nat} (h : j < vs.length)
    (m : List Host.Cell) (k : Nat),
    memReadBytes (ctWriteFrom w m k vs) (ctAddr (k + j)) w = some (digits256 w vs[j])
  | v :: vs, 0, _, m, k => by
    have hread := memReadBytes_memWriteBytes m (ctAddr k) (digits256 w v)
    rw [length_digits256] at hread
    rw [ctWriteFrom, Nat.add_zero, List.getElem_cons_zero, ← hread]
    refine memReadBytes_congr fun x h1 h2 => memRead_ctWriteFrom vs _ (k + 1) fun j _ hin => ?_
    simp only [ctAddr] at h1 h2 hin
    omega
  | v :: vs, j + 1, h, m, k => by
    rw [ctWriteFrom, show k + (j + 1) = k + 1 + j by omega]
    exact memReadBytes_ctWriteFrom hw (Nat.lt_of_succ_lt_succ h) _ (k + 1)

section
variable {s : State}

/-- A written entry that fits its W bits reads back. -/
theorem ctRead_ctWrite (hc : s.cfg.valid) {vs : List Nat} {j : Nat} (h : j < vs.length)
    (hv : vs[j] < 2 ^ s.cfg.W) : (s.ctWrite 0 vs).ctRead j = some vs[j] := by
  have hread := memReadBytes_ctWriteFrom (entryBytes_le hc) h s.mem 0
  rw [Nat.zero_add] at hread
  rw [State.ctRead, State.ctWrite, hread, Option.map_some, bytesToInt_digits256, pow_entryBytes hc,
    Nat.mod_eq_of_lt hv]

theorem ctReadFrom_eq_some : ∀ {cs : List Nat} {k : Nat},
    (∀ i (h : i < cs.length), s.ctRead (k + i) = some cs[i]) → s.ctReadFrom k cs.length = some cs
  | [], _, _ => rfl
  | c :: cs, k, h => by
    have hfirst : s.ctRead k = some c := h 0 (Nat.succ_pos _)
    have hrest : s.ctReadFrom (k + 1) cs.length = some cs := ctReadFrom_eq_some fun i hi => by
      rw [Nat.add_assoc, Nat.add_comm 1 i]
      exact h (i + 1) (Nat.succ_lt_succ hi)
    simp only [List.length_cons, State.ctReadFrom, hfirst, hrest]

/-- One entry without a value leaves the entries without one (spec/20_memory.md R100). -/
theorem ctReadFrom_eq_none {i : Nat} : ∀ {n k : Nat}, k ≤ i → i < k + n → s.ctRead i = none →
    s.ctReadFrom k n = none
  | 0, _, hle, hlt, _ => absurd hlt (not_lt.2 hle)
  | n + 1, k, hle, hlt, h => by
    rw [State.ctReadFrom]
    rcases hle.eq_or_lt with rfl | hgt
    · simp only [h]
    · have hrest : s.ctReadFrom (k + 1) n = none := ctReadFrom_eq_none hgt (by omega) h
      cases hk : s.ctRead k <;> simp only [hrest]

/-! ### ENCRYPT (spec/44_codec_cipher.md R322) -/

variable {a b : RegNum}

theorem exec_encrypt : exec (.encrypt a b) s = execEncrypt a b s := rfl

theorem getElem_encryptBytes {e n j : Nat} {m : List Byte} (h : j < (encryptBytes e n m).length) :
    (encryptBytes e n m)[j] =
      bytesToInt ((m.drop (j * (blockSize n).toNat)).take (blockSize n).toNat) ^ e % n := by
  simp [encryptBytes, splitBlocks, modPow_eq]

/-- ENCRYPT past its checks: the message, which may be UNINIT, and its blocks' powers. -/
theorem exec_encrypt_checked {e n : Nat} (ha : s.src a = e) (hb : s.src b = n) (hn : 256 ≤ n)
    (hlen : s.srcMsgLen ≤ s.cfg.msgBytes) (hnb : blockCount s.srcMsgLen (blockSize n).toNat ≤ s.cfg.ctWords) :
    exec (.encrypt a b) s = (s.msgRead 0 s.srcMsgLen).elim (.fault .uninit) fun m =>
      .next (((s.ctWrite 0 (encryptBytes e n m)).setCtCount
        (BitVec.ofNat 32 (blockCount s.srcMsgLen (blockSize n).toNat))).complete .none) := by
  have hk := one_le_blockSize_iff.2 hn
  rw [exec_encrypt, execEncrypt, natSrc_natCast ha, natSrc_natCast hb, if_neg (by omega), if_neg (by omega)]
  dsimp only
  rw [if_neg (by omega)]
  cases s.msgRead 0 s.srcMsgLen <;> rfl

/-- Entry j of what ENCRYPT wrote is the power of block j. -/
theorem ctRead_encryptBytes (hc : s.cfg.valid) {e n j : Nat} {m : List Byte} (hn : 0 < n) (hW : n < 2 ^ s.cfg.W)
    (hj : j < (encryptBytes e n m).length) :
    (s.ctWrite 0 (encryptBytes e n m)).ctRead j = some (encryptBytes e n m)[j] :=
  ctRead_ctWrite hc hj (by
    rw [getElem_encryptBytes]
    exact (Nat.mod_lt _ hn).trans hW)

end

/-- Settles O39: the sources are checked first, then the key, then the lengths; the entries written read back. -/
theorem encryptWritesPowersOfBlocks : Obligations.EncryptWritesPowersOfBlocks := by
  intro s re rn hinv
  refine ⟨⟨by simp [encode, formatC_toNat], rfl⟩, fun h => ?_, fun he hn hsmall => ?_,
    fun he hn => ⟨fun hbounds => ?_, fun hlen hnb => ?_⟩⟩
  · rw [exec_encrypt]
    exact endsNeg_two h _
  · have hk : ¬ 1 ≤ blockSize (s.src rn).toNat := fun h => by
      have := one_le_blockSize_iff.1 h
      omega
    rw [exec_encrypt, execEncrypt, natSrc_nonneg he, natSrc_nonneg hn, if_pos (by omega)]
    exact endsWritingNothing_raise s .keysmall
  · have hk := (one_le_blockSize_iff (n := (s.src rn).toNat)).2 (by omega)
    rw [exec_encrypt, execEncrypt, natSrc_nonneg he, natSrc_nonneg (by omega), if_neg (by omega)]
    dsimp only
    by_cases hlen : s.cfg.msgBytes < s.srcMsgLen
    · rw [if_pos hlen]
      exact endsWritingNothing_raise s .bounds
    · have hnb : s.cfg.ctWords < blockCount s.srcMsgLen _ := hbounds.resolve_left hlen
      rw [if_neg hlen, if_pos hnb]
      exact endsWritingNothing_raise s .bounds
  · have hsn : s.src rn = (s.src rn).toNat := by omega
    have hexec := exec_encrypt_checked (Int.toNat_of_nonneg he).symm hsn (by omega) hlen hnb
    refine ⟨fun hm => by rw [hexec, hm]; rfl, fun m hm => ?_⟩
    rw [hm, Option.elim_some] at hexec
    have heffect : Effect s (.encrypt re rn) (.next _) := hexec ▸ exec_effect _
    have hcount := length_encryptBytes (s.src re).toNat (s.src rn).toNat m
    rw [length_of_memReadBytes hm] at hcount
    have hct := ctWords_le hinv.cfg
    refine ⟨_, hexec, .complete _ .none, toNat_ofNat_of_lt (hnb.trans_lt (by omega)), rfl, fun j hj => ?_,
      heffect.mem_encrypt, heffect.shell, heffect.regs, rfl, rfl, rfl⟩
    have hj' : j < (encryptBytes (s.src re).toNat (s.src rn).toNat m).length := hcount ▸ hj
    rw [← getElem_encryptBytes hj']
    exact ctRead_encryptBytes hinv.cfg (by omega) (hinv.srcsFit.lt hsn) hj'

/-! ### DECRYPT (spec/44_codec_cipher.md R331) -/

section
variable {s : State} {a b : RegNum}

theorem exec_decrypt : exec (.decrypt a b) s = execDecrypt a b s := rfl

theorem decryptEntries_eq (d n : Nat) (cs : List Nat) :
    decryptEntries d n cs = cs.flatMap fun c => intToBytes (c ^ d % n) := by
  simp only [decryptEntries, modPow_eq]

/-- DECRYPT past its checks: the entries, which may be UNINIT, and the bytes of their powers, which may be too many. -/
theorem exec_decrypt_checked {d n : Nat} (ha : s.src a = d) (hb : s.src b = n) (hn : 0 < n)
    (hct : s.srcCtCount ≤ s.cfg.ctWords) :
    exec (.decrypt a b) s = (s.ctReadFrom 0 s.srcCtCount).elim (.fault .uninit) fun cs =>
      if s.cfg.msgBytes < (decryptEntries d n cs).length then (s.scrambleMsg 0 s.cfg.msgBytes).raise .bounds
      else .next (((s.msgWrite 0 (decryptEntries d n cs)).setMsgLen
        (BitVec.ofNat 32 (decryptEntries d n cs).length)).complete .none) := by
  rw [exec_decrypt, execDecrypt, natSrc_natCast ha, natSrc_natCast hb, if_neg (by omega), if_neg (by omega)]
  cases s.ctReadFrom 0 s.srcCtCount <;> rfl

/-- DECRYPT of entries that have been written: their plaintext, or ERR_BOUNDS where it is too long for MSGMEM. -/
theorem exec_decrypt_read {d n : Nat} {cs : List Nat} (ha : s.src a = d) (hb : s.src b = n) (hn : 0 < n)
    (hct : s.srcCtCount ≤ s.cfg.ctWords) (hlen : cs.length = s.srcCtCount)
    (hcs : ∀ k (h : k < cs.length), s.ctRead k = some cs[k]) :
    exec (.decrypt a b) s =
      if s.cfg.msgBytes < (decryptEntries d n cs).length then (s.scrambleMsg 0 s.cfg.msgBytes).raise .bounds
      else .next (((s.msgWrite 0 (decryptEntries d n cs)).setMsgLen
        (BitVec.ofNat 32 (decryptEntries d n cs).length)).complete .none) := by
  have hread : s.ctReadFrom 0 cs.length = some cs := ctReadFrom_eq_some fun k hk => by rw [Nat.zero_add, hcs k hk]
  rw [exec_decrypt_checked ha hb hn hct, ← hlen, hread, Option.elim_some]

/-- Bytes that have all been drawn hold some values. -/
theorem exists_memRead_scrambleMsg {off n : Nat} (h : off < n) :
    ∃ v, memRead (s.scrambleMsg 0 n).mem (msgAddr off) = some v := by
  have hlt : off < (freeBytes s.draws n).length := by rwa [length_freeBytes]
  refine ⟨(freeBytes s.draws n)[off], ?_⟩
  rw [State.scrambleMsg_mem, memRead_memWriteBytes]
  simp only [msgAddr, Nat.add_zero, Nat.add_sub_cancel_left]
  rw [if_pos (by omega), List.getElem?_eq_getElem hlt]

end

/-- Settles O40: the sources are checked first, then the modulus, then the count, the entries and the output's length;
the bytes written read back. -/
theorem decryptWritesPowersBytes : Obligations.DecryptWritesPowersBytes := by
  intro s rd rn hinv
  refine ⟨⟨by simp [encode, formatC_toNat], rfl⟩, fun h => ?_, fun hd hn => ?_,
    fun hd hn => ⟨fun hct => ?_, fun hct => ?_⟩⟩
  · rw [exec_decrypt]
    exact endsNeg_two h _
  · rw [exec_decrypt, execDecrypt, natSrc_nonneg hd, natSrc_nonneg hn.ge, if_pos (by omega)]
    exact endsWritingNothing_raise s .div0
  · rw [exec_decrypt, execDecrypt, natSrc_nonneg hd, natSrc_nonneg hn.le, if_neg (by omega), if_pos hct]
    exact endsWritingNothing_raise s .bounds
  · have hsd := (Int.toNat_of_nonneg hd).symm
    have hsn := (Int.toNat_of_nonneg hn.le).symm
    refine ⟨fun ⟨k, hk, hnone⟩ => ?_, fun cs hlen hcs => ?_⟩
    · rw [exec_decrypt_checked hsd hsn (by omega) hct, ctReadFrom_eq_none k.zero_le (by omega) hnone]
      rfl
    · have hexec := exec_decrypt_read hsd hsn (by omega) hct hlen hcs
      rw [← decryptEntries_eq]
      dsimp only
      generalize decryptEntries (s.src rd).toNat (s.src rn).toNat cs = out at hexec ⊢
      refine ⟨fun hfits => ?_, fun hlong => ?_⟩
      · rw [if_neg (by omega)] at hexec
        have heffect : Effect s (.decrypt rd rn) (.next _) := hexec ▸ exec_effect _
        have hmsg := msgBytes_le hinv.cfg
        exact ⟨_, hexec, .complete _ .none, toNat_ofNat_of_lt (by omega), rfl, memReadBytes_memWriteBytes _ _ _,
          sameMemBut_msg rfl rfl, heffect.shell, heffect.regs, rfl, rfl, rfl⟩
      · rw [if_pos hlong] at hexec
        have heffect : Effect s (.decrypt rd rn) (.next _) := hexec ▸ exec_effect _
        exact ⟨_, hexec, .complete _ .bounds, ⟨rfl, rfl⟩, fun off => exists_memRead_scrambleMsg, heffect.mem_decrypt,
          heffect.shell, heffect.regs, rfl, rfl⟩

end Sys2Proof.Machine
end

section
/-! SUPPORT. The round trip: the RSA identity, and which blocks the codec gives back (spec/44_codec_cipher.md R332). -/

namespace Sys2Proof.Machine

/-! ### The RSA identity -/

/-- Fermat's little theorem for every base, 0 among them. -/
theorem pow_pred_mul_add_one_modEq {p : Nat} (hp : p.Prime) (j x : Nat) : x ^ ((p - 1) * j + 1) ≡ x [MOD p] := by
  have : Fact p.Prime := ⟨hp⟩
  rw [← ZMod.natCast_eq_natCast_iff, Nat.cast_pow]
  rcases eq_or_ne (x : ZMod p) 0 with h0 | h0
  · rw [h0, zero_pow (Nat.succ_ne_zero _)]
  · rw [pow_succ, pow_mul, ZMod.pow_card_sub_one_eq_one h0, one_pow, one_mul]

section
variable {p q e d : Nat} (hp : p.Prime) (hq : q.Prime) (hne : p ≠ q) (hed : e * d % ((p - 1) * (q - 1)) = 1)
include hp hq hne hed

/-- The exponents undo each other modulo both primes, so modulo their product. -/
theorem pow_exponents_modEq (x : Nat) : x ^ (e * d) ≡ x [MOD p * q] := by
  have hj := Nat.div_add_mod (e * d) ((p - 1) * (q - 1))
  rw [hed] at hj
  refine (Nat.modEq_and_modEq_iff_modEq_mul ((Nat.coprime_primes hp hq).2 hne)).1 ⟨?_, ?_⟩
  · rw [← hj, mul_assoc]
    exact pow_pred_mul_add_one_modEq hp _ x
  · rw [← hj, mul_comm (p - 1), mul_assoc]
    exact pow_pred_mul_add_one_modEq hq _ x

theorem modPow_modPow {x : Nat} (h : x < p * q) : modPow (modPow x e (p * q)) d (p * q) = x := by
  rw [modPow_eq, modPow_eq, ← Nat.pow_mod, ← pow_mul, pow_exponents_modEq hp hq hne hed x, Nat.mod_eq_of_lt h]

/-- Deciphering the enciphered message passes every block through the codec. -/
theorem decryptEntries_encryptBytes (h256 : 256 ≤ p * q) (m : List Byte) :
    decryptEntries d (p * q) (encryptBytes e (p * q) m) =
      ((splitBlocks (blockSize (p * q)).toNat m).map fun blk => intToBytes (bytesToInt blk)).flatten := by
  have hk := one_le_blockSize_iff.2 h256
  rw [decryptEntries, encryptBytes, List.flatMap_map, ← List.flatMap_def]
  refine List.flatMap_congr fun blk hblk => ?_
  obtain ⟨-, hlen⟩ := length_of_mem_splitBlocks (by omega) hblk
  rw [modPow_modPow hp hq hne hed (bytesToInt_lt_of_length_le (by omega))]

end

/-! ### The lossy case (spec/44_codec_cipher.md R313) -/

/-- The codec makes no block longer. -/
theorem length_intToBytes_bytesToInt_le {bs : List Byte} (h : 1 ≤ bs.length) :
    (intToBytes (bytesToInt bs)).length ≤ bs.length := by
  rcases Nat.eq_zero_or_pos (bytesToInt bs) with h0 | hpos
  · rwa [h0]
  · rw [length_intToBytes hpos, byteLen_le_iff]
    exact bytesToInt_lt bs

/-- A map that makes no list longer keeps the concatenation only where it keeps every list. -/
theorem flatten_map_eq_flatten_iff {α : Type*} {f : List α → List α} : ∀ {L : List (List α)},
    (∀ l ∈ L, (f l).length ≤ l.length) → ((L.map f).flatten = L.flatten ↔ ∀ l ∈ L, f l = l)
  | [], _ => by simp
  | l :: L, h => by
    obtain ⟨hl, hL⟩ := List.forall_mem_cons.1 h
    have hsum : (L.map f).flatten.length ≤ L.flatten.length := by
      rw [List.length_flatten, List.length_flatten, List.map_map]
      exact List.sum_le_sum hL
    rw [List.forall_mem_cons, ← flatten_map_eq_flatten_iff hL, List.map_cons, List.flatten_cons, List.flatten_cons]
    refine ⟨fun heq => List.append_inj heq ?_, fun ⟨h1, h2⟩ => by rw [h1, h2]⟩
    have hlen := congrArg List.length heq
    rw [List.length_append, List.length_append] at hlen
    omega

/-- Settles O41: every block comes back through the codec, which keeps all of them exactly when it keeps their
concatenation. -/
theorem rsaRoundTripExactlyWithoutLossyBlock : Obligations.RsaRoundTripExactlyWithoutLossyBlock := by
  intro p q e d m hp hq hne h256 hed
  have hk : 0 < (blockSize (p * q)).toNat := by
    have := one_le_blockSize_iff.2 h256
    omega
  have hlen : ∀ blk ∈ splitBlocks (blockSize (p * q)).toNat m, 1 ≤ blk.length := fun blk hblk =>
    (length_of_mem_splitBlocks hk hblk).1
  calc decryptEntries d (p * q) (encryptBytes e (p * q) m) = m
    _ ↔ ((splitBlocks (blockSize (p * q)).toNat m).map fun blk => intToBytes (bytesToInt blk)).flatten =
        (splitBlocks (blockSize (p * q)).toNat m).flatten := by
      rw [decryptEntries_encryptBytes hp hq hne hed h256, flatten_splitBlocks hk]
    _ ↔ ∀ blk ∈ splitBlocks (blockSize (p * q)).toNat m, intToBytes (bytesToInt blk) = blk :=
      flatten_map_eq_flatten_iff fun blk hblk => length_intToBytes_bytesToInt_le (hlen blk hblk)
    _ ↔ ∀ blk ∈ splitBlocks (blockSize (p * q)).toNat m, blk.getLast? ≠ some 0 ∨ blk = [0] :=
      forall₂_congr fun blk hblk => by
        rw [intToBytes_bytesToInt_iff, and_iff_right (List.ne_nil_of_length_pos (hlen blk hblk))]

/-! ### The round trip on the machine -/

/-- Settles O42: the entries ENCRYPT wrote are all that DECRYPT reads, and their plaintext is the message. -/
theorem encryptThenDecryptReturnsMessage : Obligations.EncryptThenDecryptReturnsMessage := by
  intro s re rd rn p q e d m hinv hp hq hne h256 hed hn he hd hlen hnb hm hblocks
  have hplain : decryptEntries d (p * q) (encryptBytes e (p * q) m) = m :=
    (rsaRoundTripExactlyWithoutLossyBlock p q e d m hp hq hne h256 hed).2 fun blk hblk => .inl (hblocks blk hblk)
  have hmlen : m.length = s.msgLen.toNat := length_of_memReadBytes hm
  obtain ⟨hsrc, hsrcLen, -⟩ := snapshotIsWhatRegistersHold s hinv
  obtain ⟨-, -, -, hencrypt⟩ := encryptWritesPowersOfBlocks s re rn hinv
  simp only [hsrc, hsrcLen, hn, he, Int.toNat_natCast] at hencrypt
  obtain ⟨-, hok⟩ := hencrypt (by omega) (by omega)
  obtain ⟨-, hok⟩ := hok hlen hnb
  obtain ⟨t, ht, hend, hcount, -, hct, -, hshell, hregs, -⟩ := hok m hm
  refine ⟨t, ht, hend, fun t' hcfg hreg hctCount hidle hentries => ?_⟩
  have hcfg' : t'.cfg = s.cfg := hcfg.trans hshell.cfg
  have hsrc' : ∀ r, t'.src r = s.B r := fun r => by
    rw [src_idle hidle, State.B, hreg, hregs r List.not_mem_nil, State.B]
  have hcount' : t'.srcCtCount = t.ctCount.toNat := by rw [State.srcCtCount, hidle, hctCount]
  have hcslen : (encryptBytes e (p * q) m).length = t.ctCount.toNat := by
    rw [length_encryptBytes, hmlen, hcount, blockCount]
  have hcs : ∀ k (h : k < (encryptBytes e (p * q) m).length),
      t'.ctRead k = some (encryptBytes e (p * q) m)[k] := fun k hk => by
    rw [hentries k (hcslen ▸ hk), hct k (hcount ▸ hcslen ▸ hk), getElem_encryptBytes]
  have hexec := exec_decrypt_read ((hsrc' rd).trans hd) ((hsrc' rn).trans hn) (by omega)
    (by rw [hcount', hcount, hcfg']; exact hnb) (hcslen.trans hcount'.symm) hcs
  rw [hplain, hmlen, hcfg', if_neg (not_lt.2 hlen)] at hexec
  refine ⟨_, hexec, .complete _ .none, ?_, ?_⟩
  · show BitVec.ofNat 32 s.msgLen.toNat = s.msgLen
    rw [BitVec.ofNat_toNat, BitVec.setWidth_eq]
  · rw [← hmlen]
    exact memReadBytes_memWriteBytes _ _ m

end Sys2Proof.Machine
end

section
/-! SUPPORT. The comparison and shift units: the commands CMP, SHL, SHR, SHLI, SHRI, BITLEN and CTZ
(spec/45_compare_shift.md). -/

namespace Sys2Proof.Machine

/-! ### Execution (spec/45_compare_shift.md) -/

section
variable (s : State) (d a b : RegNum) (imm : Imm8)

theorem exec_cmp : exec (.cmp a b) s = (s.setCompare (s.src a) (s.src b)).commit := rfl

theorem exec_shl : exec (.shl d a b) s =
    s.natSrc a fun x => s.natSrc b fun n => s.shiftLeftInto d x n := rfl

theorem exec_shli : exec (.shli d a imm) s = s.natSrc a fun x => s.shiftLeftInto d x imm.toNat := rfl

theorem exec_shr : exec (.shr d a b) s =
    s.natSrc a fun x => s.natSrc b fun n => (s.setB d (shiftRight x n)).commit := rfl

theorem exec_shri : exec (.shri d a imm) s =
    s.natSrc a fun x => (s.setB d (shiftRight x imm.toNat)).commit := rfl

theorem exec_bitlen : exec (.bitlen d a) s = s.natSrc a fun x => (s.setB d (bitlen x)).commit := rfl

theorem exec_ctz : exec (.ctz d a) s =
    s.natSrc a fun x => if x = 0 then s.raise .range else (s.setB d (trailingZeros x)).commit := rfl

end

theorem endsNeg_one {s : State} {a : RegNum} (h : s.src a < 0) (go : Nat → Result) :
    EndsWritingNothing .neg s (s.natSrc a go) := by
  rw [natSrc_neg h]
  exact endsWritingNothing_raise s .neg

/-! ### CMP (spec/45_compare_shift.md R350) -/

/-- Settles O15: the flags are the three comparisons, and the effect of CMP frames the rest. -/
theorem cmpSetsFlagsFromSignedValues : Obligations.CmpSetsFlagsFromSignedValues := by
  intro s a b
  have heffect := Effect.compare (s := s) (a := a) (b := b)
  exact ⟨⟨by simp [encode, formatC_toNat], rfl⟩, _, exec_cmp s a b, .complete _ .none, decide_eq_true_iff,
    decide_eq_true_iff, decide_eq_true_iff, rfl, heffect.shell, heffect.regs, .refl s, ⟨rfl, rfl⟩, rfl, rfl⟩

/-! ### SHL and SHLI (spec/45_compare_shift.md R351, R353) -/

section
variable {s : State} {v : Int} {n : Nat}

/-- A product that does not fit ends a left shift. -/
theorem endsOverflow_shiftLeftInto (d : RegNum) (h : 2 ^ s.cfg.W ≤ v.toNat * 2 ^ n) :
    EndsWritingNothing .overflow s (s.shiftLeftInto d v.toNat n) := by
  rw [shiftLeftInto_eq, writeChecked_overflow (by rwa [Int.natAbs_natCast])]
  exact endsWritingNothing_raise s .overflow

/-- A product that fits is written. -/
theorem endsWritingReg_shiftLeftInto (d : RegNum) (hv : 0 ≤ v) (h : v.toNat * 2 ^ n < 2 ^ s.cfg.W) :
    EndsWritingReg d (v * 2 ^ n) s (s.shiftLeftInto d v.toNat n) := by
  rw [shiftLeftInto_eq, writeChecked_fits (by rwa [Int.natAbs_natCast]), Nat.cast_mul, Int.toNat_of_nonneg hv,
    Nat.cast_pow]
  exact endsWritingReg_commit s d _

end

/-- Settles O16: the sources are checked first, then the product with the power of 2. -/
theorem shiftLeftExactOrOverflow : Obligations.ShiftLeftExactOrOverflow := by
  intro s d a b imm
  rw [exec_shl, exec_shli]
  refine ⟨⟨⟨by simp [encode, formatC_toNat], rfl⟩, fun h => endsNeg_two h _, fun ha hb hW => ?_, fun ha hb hW => ?_⟩,
    ⟨by simp [encode, formatC_toNat], rfl⟩, fun h => endsNeg_one h _, fun ha hW => ?_, fun ha hW => ?_⟩
  · rw [natSrc_nonneg ha, natSrc_nonneg hb]
    exact endsOverflow_shiftLeftInto d hW
  · rw [natSrc_nonneg ha, natSrc_nonneg hb]
    exact endsWritingReg_shiftLeftInto d ha hW
  · rw [natSrc_nonneg ha]
    exact endsOverflow_shiftLeftInto d hW
  · rw [natSrc_nonneg ha]
    exact endsWritingReg_shiftLeftInto d ha hW

/-! ### SHR and SHRI (spec/45_compare_shift.md R352, R354) -/

/-- The right shift of a non-negative integer is its floor division. -/
theorem shiftRight_toNat {v : Int} (h : 0 ≤ v) (n : Nat) : (shiftRight v.toNat n : Int) = v / 2 ^ n := by
  rw [shiftRight_eq, Int.natCast_ediv, Int.toNat_of_nonneg h, Nat.cast_pow, Nat.cast_ofNat]

/-- Settles O17: the sources are checked first, and the right shift is the division. -/
theorem shiftRightIsFloorDivision : Obligations.ShiftRightIsFloorDivision := by
  intro s d a b imm
  rw [exec_shr, exec_shri]
  refine ⟨⟨⟨by simp [encode, formatC_toNat], rfl⟩, fun h => endsNeg_two h _, fun ha hb => ?_⟩,
    ⟨by simp [encode, formatC_toNat], rfl⟩, fun h => endsNeg_one h _, fun ha => ?_⟩
  · rw [natSrc_nonneg ha, natSrc_nonneg hb, shiftRight_toNat ha]
    exact endsWritingReg_commit s d _
  · rw [natSrc_nonneg ha, shiftRight_toNat ha]
    exact endsWritingReg_commit s d _

/-! ### BITLEN and CTZ (spec/45_compare_shift.md R355, R356) -/

/-- Settles O18: the source is checked first, and its bit length is the least exponent above it. -/
theorem bitlenIsLeastExponentAbove : Obligations.BitlenIsLeastExponentAbove := by
  intro s d a
  rw [exec_bitlen]
  refine ⟨⟨by simp [encode, formatC_toNat], rfl⟩, fun h => endsNeg_one h _, fun ha => ?_⟩
  obtain ⟨n, hn⟩ := Int.eq_ofNat_of_zero_le ha
  rw [natSrc_natCast hn, hn]
  exact ⟨bitlen n, mod_cast lt_two_pow_bitlen n, fun j hj => bitlen_le (mod_cast hj), endsWritingReg_commit s d _⟩

/-- The powers of 2 that divide a positive number are those up to its trailing zeros, for what is left is odd. -/
theorem mod_two_pow_eq_zero_iff {v j : Nat} (h : 0 < v) : v % 2 ^ j = 0 ↔ j ≤ trailingZeros v := by
  obtain ⟨hzero, hodd⟩ := trailingZeros_spec h
  constructor
  · intro hj
    by_contra! hlt
    have hdvd : 2 ^ trailingZeros v * 2 ∣ v :=
      pow_succ 2 (trailingZeros v) ▸ (Nat.pow_dvd_pow 2 hlt).trans (Nat.dvd_of_mod_eq_zero hj)
    have heven := Nat.dvd_div_of_mul_dvd hdvd
    omega
  · intro hle
    exact Nat.mod_eq_zero_of_dvd ((Nat.pow_dvd_pow 2 hle).trans (Nat.dvd_of_mod_eq_zero hzero))

/-- Settles O19: the source is checked first, then 0, and the trailing zeros are the largest exponent. -/
theorem ctzIsLargestPowerDividing : Obligations.CtzIsLargestPowerDividing := by
  intro s d a
  rw [exec_ctz]
  refine ⟨⟨by simp [encode, formatC_toNat], rfl⟩, fun h => endsNeg_one h _, fun h0 => ?_, fun hpos => ?_⟩
  · rw [natSrc_natCast (n := 0) h0, if_pos rfl]
    exact endsWritingNothing_raise s .range
  · obtain ⟨n, hn⟩ := Int.eq_ofNat_of_zero_le hpos.le
    have hn0 : 0 < n := by omega
    rw [natSrc_natCast hn, if_neg hn0.ne', hn]
    exact ⟨trailingZeros n, mod_cast (mod_two_pow_eq_zero_iff hn0).2 le_rfl,
      fun j hj => (mod_two_pow_eq_zero_iff hn0).1 (mod_cast hj), endsWritingReg_commit s d _⟩

end Sys2Proof.Machine
end

section
/-! SUPPORT. The support commands NOP, MOV, LDI, ADD and SUB (spec/46_support.md). -/

namespace Sys2Proof.Machine

/-! ### Execution (spec/46_support.md) -/

section
variable (s : State) (d a b : RegNum) (imm : Imm8)

theorem exec_nop : exec .nop s = s.commit := rfl

theorem exec_mov : exec (.mov d a) s = (s.setB d (s.src a)).commit := rfl

theorem exec_ldi : exec (.ldi d imm) s = (s.setB d imm.toNat).commit := rfl

theorem exec_add : exec (.add d a b) s = s.writeChecked d (s.src a + s.src b) := rfl

theorem exec_sub : exec (.sub d a b) s = s.writeChecked d (s.src a - s.src b) := rfl

end

/-! ### NOP (spec/46_support.md R390) -/

/-- DONE is 1 after a completion, so IE alone decides irq (spec/10_state.md R83). -/
theorem irq_complete (s : State) (e : ErrCode) : (s.complete e).irq = s.ie := Bool.true_and s.ie

/-- Settles O12: NOP is a completion without a write. -/
theorem nopOnlyCompletes : Obligations.NopOnlyCompletes := by
  refine ⟨⟨by simp [encode, formatC_toNat], rfl⟩, fun s => ?_⟩
  rw [exec_nop]
  refine ⟨endsWritingNothing_commit s, fun t h => ?_⟩
  rw [← next_inj.1 h]
  exact irq_complete s .none

/-! ### MOV and LDI (spec/46_support.md R391, R392) -/

/-- Settles O13: both commands are one register write and a completion. -/
theorem movAndLdiWriteRegister : Obligations.MovAndLdiWriteRegister := by
  intro s d a imm
  rw [exec_mov, exec_ldi]
  exact ⟨⟨by simp [encode, formatC_toNat], rfl⟩, endsWritingReg_commit s d _,
    ⟨by simp [encode, formatC_toNat], rfl⟩, endsWritingReg_commit s d _⟩

/-! ### ADD and SUB (spec/46_support.md R393, R394) -/

section
variable {s : State} {v : Int}

/-- A value whose magnitude does not fit ends the command (spec/10_state.md R34). -/
theorem endsOverflow_writeChecked (d : RegNum) (h : 2 ^ s.cfg.W ≤ v.natAbs) :
    EndsWritingNothing .overflow s (s.writeChecked d v) := by
  rw [writeChecked_overflow h]
  exact endsWritingNothing_raise s .overflow

/-- A value that fits is written. -/
theorem endsWritingReg_writeChecked (d : RegNum) (h : v.natAbs < 2 ^ s.cfg.W) :
    EndsWritingReg d v s (s.writeChecked d v) := by
  rw [writeChecked_fits h]
  exact endsWritingReg_commit s d v

end

/-- Settles O14: the signed sum and the signed difference are checked results. -/
theorem addSubExactOrOverflow : Obligations.AddSubExactOrOverflow := by
  intro s d a b
  rw [exec_add, exec_sub]
  exact ⟨⟨⟨by simp [encode, formatC_toNat], rfl⟩, endsOverflow_writeChecked d, endsWritingReg_writeChecked d⟩,
    ⟨by simp [encode, formatC_toNat], rfl⟩, endsOverflow_writeChecked d, endsWritingReg_writeChecked d⟩

end Sys2Proof.Machine
end

section
/-! SUPPORT. Precise errors: an effect that leaves a nonzero code behind changed nothing of the registers, the flags
and the lengths, and of memory only what spec/30_encoding.md R146 lets it (spec/60_exceptions.md R410, R414). -/

namespace Sys2Proof.Machine

section
variable {i : Instr} {s t : State}

/-- The four effects that leave a nonzero code write no register, flag or length; a wait leaves the code it finds. -/
theorem Effect.frame_of_err (h : Effect s i (.next t)) (hne : t.err ≠ .none) :
    SameRegsBut [] s t ∧ SameFlags s t ∧ SameLengths s t := by
  cases h with
  | error | badWitness | wait | decryptTooLong => exact ⟨fun _ _ => rfl, rfl, rfl, rfl⟩
  | nop | result | egcd | compare | verdict | i2b | encrypt | decrypt => exact absurd rfl hne

/-- Of them DECRYPT's too long output alone writes memory, and only in MSGMEM (spec/30_encoding.md R146). -/
theorem Effect.mem_of_err (h : Effect s i (.next t)) (hne : t.err ≠ .none) :
    SameMem s t ∨ ((∃ a b, i = .decrypt a b) ∧ t.err = .bounds ∧
      s.srcCtCount ≤ s.cfg.ctWords ∧ SameMemBut (MsgRange 0 s.cfg.msgBytes) s t) := by
  cases h with
  | error | badWitness | wait => exact .inl (SameMem.refl s)
  | decryptTooLong hct =>
    exact .inr ⟨⟨_, _, rfl⟩, rfl, hct, sameMemBut_msg rfl (length_freeBytes _ _)⟩
  | nop | result | egcd | compare | verdict | i2b | encrypt | decrypt => exact absurd rfl hne

end

/-- Settles O44: the frame of an effect with a nonzero code, and what such an effect does to memory. -/
theorem errorsArePrecise : Obligations.ErrorsArePrecise := by
  intro i s t h _ hne
  have he : Effect s i (.next t) := h ▸ exec_effect i
  obtain ⟨hregs, hflags, hlengths⟩ := he.frame_of_err hne
  exact ⟨he.shell, hregs, hflags, hlengths, he.mem_of_err hne⟩

end Sys2Proof.Machine
end

section
/-! SUPPORT. Reset and hazards: what the two resets leave, what an abandoned command's reset does to memory, the wait
for a witness, and that every command ends (spec/70_reset_and_hazards.md, spec/30_encoding.md R146). -/

namespace Sys2Proof.Machine

/-! ### The reset state and the two resets (spec/70_reset_and_hazards.md R460, R463) -/

theorem reg_resetWith (c : Config) (r : RegNum) : (State.resetWith c).reg r = ⟨false, 0⟩ :=
  reg_clearCore (State.resetWith c) r

/-- After a soft reset nothing runs, so another abandons nothing. -/
theorem softReset_softReset (s : State) : s.softReset.softReset = s.softReset := by
  have hidle : s.softReset.abandon = s.softReset := abandon_idle rfl
  rw [State.softReset, hidle]
  rfl

/-- The data of the reset state (spec/70_reset_and_hazards.md R463). -/
theorem dataOk_resetWith {c : Config} (h : c.valid) : DataOk (State.resetWith c) where
  cfg := h
  mags r := by
    rw [reg_resetWith]
    exact Nat.two_pow_pos _
  mem := .nil c
  flags := by simp [Flags.AtMostOne, State.resetWith]

theorem inv_resetWith {c : Config} (h : c.valid) : Inv (State.resetWith c) := (dataOk_resetWith h).inv rfl rfl

/-- Settles O59: the data of the reset state are in range, and nothing runs. -/
theorem resetStateSatisfiesInv : Obligations.ResetStateSatisfiesInv :=
  ⟨fun _ h => inv_resetWith h, inv_resetWith (by decide)⟩

/-- Settles O58: each level of the pin is a hardware reset, and while it is 0 no access is answered. -/
theorem hardwareResetGivesResetState : Obligations.HardwareResetGivesResetState := by
  intro s rest hs
  refine ⟨{ s.hardReset with rstN := false, agenda := .rst true :: rest }, step_cons hs, rfl, rfl,
    fun addr data be => ⟨busRead_inReset rfl addr be, busWrite_inReset rfl addr data be⟩, ?_,
    softReset_softReset s, rfl⟩
  rw [step_cons (e := .rst true) (rest := rest) rfl]
  rfl

/-! ### The memory of an abandoned command (spec/30_encoding.md R146) -/

section
variable {s : State} {c : Running}

theorem abandon_encrypt {a b : RegNum} (hc : s.running = some c)
    (hd : decodeWord c.word = .ok (.encrypt a b)) : SameMemBut (CtRange s.cfg s.cfg.ctWords) s s.abandon := by
  intro x hx
  simp only [State.abandon, hc, hd]
  exact memRead_scrambleCt _ _ _ _ fun j _ hj hin => hx ⟨j, by omega, hin⟩

theorem abandon_decrypt {a b : RegNum} (hc : s.running = some c)
    (hd : decodeWord c.word = .ok (.decrypt a b)) : SameMemBut (MsgRange 0 s.cfg.msgBytes) s s.abandon := by
  simp only [State.abandon, hc, hd]
  exact sameMemBut_msg rfl (length_freeBytes _ _)

/-- I2B's bytes are freed only where its checks pass. -/
theorem abandon_i2b {d a b : RegNum} (hc : s.running = some c) (hd : decodeWord c.word = .ok (.i2b d a b)) :
    SameMemBut (fun x => 0 ≤ s.src a ∧ 0 ≤ s.src b ∧
      s.src b + (intToBytes (s.src a).toNat).length ≤ s.cfg.msgBytes ∧
      MsgRange (s.src b).toNat (intToBytes (s.src a).toNat).length x) s s.abandon := by
  simp only [State.abandon, hc, hd]
  split_ifs with hcheck
  · exact (SameMem.refl s).but _
  · push Not at hcheck
    obtain ⟨ha, hb, hlen⟩ := hcheck
    intro x hx
    exact sameMemBut_msg rfl (length_freeBytes _ _) x fun hin => hx ⟨ha, hb, hlen, hin⟩

/-- No other command has output memory to lose. -/
theorem abandon_other {i : Instr} (hc : s.running = some c) (hd : decodeWord c.word = .ok i)
    (h1 : ∀ a b, i ≠ .encrypt a b) (h2 : ∀ a b, i ≠ .decrypt a b) (h3 : ∀ d a b, i ≠ .i2b d a b) :
    s.abandon = s := by
  simp only [State.abandon, hc, hd]
  cases i with
  | encrypt a b => exact absurd rfl (h1 a b)
  | decrypt a b => exact absurd rfl (h2 a b)
  | i2b d a b => exact absurd rfl (h3 d a b)
  | _ => rfl

end

/-! ### The soft reset on the bus (spec/70_reset_and_hazards.md R462) -/

/-- IE written (spec/10_state.md R44). -/
def State.setIe (s : State) (b : Bool) : State := { s with ie := b }

theorem scrambleCt_setIe (b : Bool) : ∀ (n k : Nat) (s : State),
    (s.setIe b).scrambleCt k n = (s.scrambleCt k n).setIe b
  | 0, _, _ => rfl
  | n + 1, k, s => scrambleCt_setIe b n (k + 1) (s.scrambleCt k 1)

theorem abandon_setIe (s : State) (b : Bool) : (s.setIe b).abandon = s.abandon.setIe b := by
  unfold State.abandon
  rw [show (s.setIe b).running = s.running from rfl]
  cases s.running with
  | none => rfl
  | some c =>
    dsimp only
    cases decodeWord c.word with
    | error e => rfl
    | ok i =>
      cases i with
      | encrypt => exact scrambleCt_setIe b _ _ s
      | i2b =>
        dsimp only
        rw [apply_ite (State.setIe · b)]
        rfl
      | _ => rfl

/-- A CTRL write with bit 1 set is a soft reset, busy or not: the IE it writes is cleared (spec/10_state.md R44). -/
theorem busWrite_softReset {s : State} {addr w : Word} {be : BitVec 4} (hr : s.rstN = true)
    (h : AccessOf s addr be .ctrl) (hw : w.getLsbD 1 = true) :
    busWrite addr w be s = .next (s.softReset.reply (some .written)) := by
  have hreset : (s.setIe (w.getLsbD 0)).softReset = s.softReset := by
    rw [State.softReset, abandon_setIe]
    rfl
  rw [busWrite_ctrl hr h (fun _ => rfl), State.writeReg, writeCtrl_reset s hw, ← hreset]
  rfl

theorem abandon_agenda (s : State) : s.abandon.agenda = s.agenda := by rw [abandon_eq]

theorem abandon_witAnswers (s : State) : s.abandon.witAnswers = s.witAnswers := by rw [abandon_eq]

theorem statusWord_softReset (s : State) : s.softReset.statusWord = 0 := by
  show bitWord false ||| bitWord false <<< 1 ||| bitWord false <<< 2 ||| BitVec.ofNat 32 ErrCode.none.code <<< 4 = 0
  decide

/-- Settles O57: the fields of the cleared core, and the memory by the abandoned command. -/
theorem softResetClearsAllButMemory : Obligations.SoftResetClearsAllButMemory := by
  intro s addr w be hr h hw
  have hkept (hm : s.abandon = s) : (s.softReset.reply (some .written)).mem = s.mem :=
    show s.abandon.mem = s.mem by rw [hm]
  refine ⟨_, busWrite_softReset hr h hw, rfl, reg_clearCore s.abandon, rfl, rfl, statusWord_softReset s, rfl, rfl,
    rfl, rfl, rfl, rfl, abandon_cfg s, (abandon_rstN s).trans hr, abandon_agenda s, abandon_witAnswers s,
    abandon_witAnswers s, fun hidle => hkept (abandon_idle hidle), fun c i hc hd => ?_⟩
  cases i with
  | encrypt a b => exact abandon_encrypt hc hd
  | decrypt a b => exact abandon_decrypt hc hd
  | i2b d a b => exact abandon_i2b hc hd
  | _ => exact hkept (abandon_other hc hd (by simp) (by simp) (by simp))

/-! ### The wait for a witness (spec/70_reset_and_hazards.md R483) -/

section
variable {s : State}

/-- An open request belongs to the running command. -/
theorem running_of_witReq (h : s.witReq = true) : ∃ c, s.running = some c ∧ c.witReq = true := by
  cases hc : s.running with
  | none => simp [State.witReq, hc] at h
  | some c => exact ⟨c, rfl, by simpa [State.witReq, hc] using h⟩

/-- While a request of ISPRIME is open wit_n is its source (spec/10_state.md R80). -/
theorem witN_isprime {c : Running} {d a : RegNum} {imm : Imm8} (hc : s.running = some c) (hw : c.witReq = true)
    (hd : decodeWord c.word = .ok (.isprime d a imm)) : s.witN = (s.src a).toNat := by
  simp only [State.witN, hc, hw, hd, if_true]

/-- A trial to come with no answer waits. -/
theorem runTrials_noAnswer {W n k : Nat} (hk : 0 < k) : runTrials W n k [] = .waiting 0 := by
  obtain ⟨k, rfl⟩ := Nat.exists_eq_succ_of_ne_zero hk.ne'
  rfl

/-- A command that already waits, with nothing ready, waits as it is. -/
theorem await_zero_of_waiting {c : Running} (hc : s.running = some c) (hw : c.witReq = true)
    (hcap : c.captured = none) (hq : s.witAnswers = []) : s.await 0 = s := by
  have hrun : (⟨c.word, c.snap, c.trials + 0, true, none⟩ : Running) = c := by rw [← hw, ← hcap]; rfl
  unfold State.await
  rw [hc, Option.map_some, hrun, ← hc, ← hq]

/-- A core's turn on a waiting ISPRIME changes nothing. -/
theorem Inv.coreTurn_waiting {c : Running} (h : Inv s) (hc : s.running = some c) (hw : c.witReq = true)
    (hq : s.witAnswers = []) : Machine.coreTurn s = .next s := by
  have hok := h.running c hc
  have hcap := hok.oneRequest hw
  obtain ⟨d, a, imm, hd, hpos, h5, hodd⟩ := hok.waits (.inl hw)
  obtain ⟨n, hn⟩ := Int.eq_ofNat_of_zero_le hpos
  have hsrc : s.src a = n := (h.src_eq hc a).trans hn
  have htrials : 0 < roundsOf imm - s.trialsPassed := by
    have hlt := hok.trials d a imm hd
    rw [State.trialsPassed, hc]
    exact Nat.sub_pos_of_lt hlt
  have hanswers : s.answers = [] := by rw [answers_running hc, hcap, hq]; rfl
  rw [coreTurn_running hc hd, exec_isprime_trials hsrc (by omega) (by omega), hanswers,
    runTrials_noAnswer htrials, State.endTrials, await_zero_of_waiting hc hw hcap hq]

end

/-- Settles O33: the invariant says what an open request belongs to, and the core's turn waits as it was. -/
theorem witnessWaitChangesNothing : Obligations.WitnessWaitChangesNothing := by
  intro s h hreq
  obtain ⟨c, hc, hw⟩ := running_of_witReq hreq
  obtain ⟨d, a, imm, hd, _, h5, hodd⟩ := (h.running c hc).waits (.inl hw)
  have hwit : s.witN = (s.B a).toNat := by rw [witN_isprime hc hw hd, h.src_eq hc]
  have hbusy : s.busy = true := by rw [State.busy, hc]; rfl
  have hirq : s.irq = false := by rw [State.irq, h.busyDone (by simp [hc]), Bool.false_and]
  exact ⟨⟨c, d, a, imm, hc, hd, hwit⟩, by omega, by omega, hbusy, hirq,
    fun hq hagenda => (step_empty hagenda).trans (h.coreTurn_waiting hc hw hq)⟩

/-! ### Every command ends or waits (spec/70_reset_and_hazards.md R484) -/

/-- A wait counts trials up and uses up the answers; a running command stays busy with its request open. -/
theorem await_waits (s : State) (passed : Nat) : s.trialsPassed ≤ (s.await passed).trialsPassed ∧
    (s.await passed).answers = [] ∧
    (s.busy = true → (s.await passed).busy = true ∧ (s.await passed).witReq = true) := by
  refine ⟨?_, answers_await s passed, ?_⟩
  · unfold State.trialsPassed State.await
    cases s.running with
    | none => exact le_rfl
    | some c => exact Nat.le_add_right c.trials passed
  · unfold State.busy State.witReq State.await
    cases s.running with
    | none => exact fun h => absurd h Bool.false_ne_true
    | some c => exact fun _ => ⟨rfl, rfl⟩

/-- Settles O46: a command's effect is a completion, ISPRIME's wait, or the fault of an unwritten byte. -/
theorem everyCommandCompletesOrWaits : Obligations.EveryCommandCompletesOrWaits := by
  intro i s
  have he : Effect s i (exec i s) := exec_effect i
  generalize exec i s = o at he
  cases he with
  | uninit hi => exact .inr ⟨rfl, hi⟩
  | wait => exact .inl ⟨_, rfl, .inr ⟨⟨_, _, _, rfl⟩, await_waits s _⟩⟩
  | _ => exact .inl ⟨_, rfl, .inl ⟨_, .complete _ _⟩⟩

end Sys2Proof.Machine
end
